-- ==== Sys2Proof/Word.lean ====
section
/-! DEFINITION. The widths of the hardware: its words, bytes, addresses and counts (00_scope.md R12, R13, 20_memory.md R54). -/

namespace Sys2Proof

/-- A register, a command word or the data of a host transaction: 32 bits (R13, R54). -/
abbrev Word := BitVec 32

/-- A source byte, which is also a symbol: 0..255 (R42). -/
abbrev Byte := BitVec 8

/-- A byte address of the host port, A[25:0] (R54). -/
abbrev Addr := BitVec 26

/-- A frequency or a node weight: 24 bits unsigned (R13). -/
abbrev Freq := BitVec 24

/-- A node id of the Huffman arena: 9 bits (R13). -/
abbrev NodeId := BitVec 9

/-- An alphabet length, a working-queue length or a node count: 9 bits (R13, R33). -/
abbrev Count := BitVec 9

/-- A codeword's characters, `false` for 0 and `true` for 1, the one nearest the tree root first (R16). -/
abbrev Chars := List Bool

end Sys2Proof
end

