-- ==== Sys2Proof/Syntax.lean ====
section
/-! DEFINITION. The commands of the hardware (30_encoding.md R77, R78, R79): the one command format as its fields, the
codebook selector, and one constructor for each row of the opcode table. -/

namespace Sys2Proof

/-- The three codebooks, the CB selector's legal values: 0 FIXED, 1 SHANNON, 2 HUFFMAN (R78). -/
inductive Book where
  | fixed
  | shannon
  | huffman
  deriving DecidableEq, Repr, Inhabited

/-- The fields of the format CMD32 (R77): OP in bits 7:0, CB in bits 9:8, RSV in bits 31:10. -/
structure CmdFields where
  op  : BitVec 8
  cb  : BitVec 2
  rsv : BitVec 22
  deriving DecidableEq, Repr

/-- The twelve commands (R79). No command has an operand in its word, so no constructor has an argument. -/
inductive Instr where
  | buildAlpha
  | buildFixed
  | buildShannon
  | buildHuffman
  | encodeFixed
  | encodeShannon
  | encodeHuffman
  | stats
  | mbr
  | hufInit
  | hufStep
  | hufExtract
  deriving DecidableEq, Repr

end Sys2Proof
end

