-- ==== Sys2Proof/Config.lean ====
section
/-! DEFINITION. What an implementation fixes (00_scope.md R9, R10, R11), the records the data stores hold
(10_state.md R43, R44, R46), and the FREE VALUES: opaque constants with no body, about whose values nothing can be proved
(20_memory.md R69, 10_state.md R42 and R52, 93_implementation_defined.md I1, I2, I3). -/

namespace Sys2Proof

/-- The reading of `minimum_bits_to_represent` above 255: P_MBR_MODE 0 is CAP, 1 is IGNORE (R11, R89). -/
inductive MbrMode where
  | cap
  | ignore
  deriving DecidableEq, Repr, Inhabited

/-- The implementation parameters P_N, P_OUT_BITS and P_MBR_MODE (R9, R10, R11). -/
structure Params where
  pN       : Nat
  pOutBits : Nat
  mbrMode  : MbrMode
  deriving DecidableEq, Repr

/-- An entry of the alphabet table: SYM and FREQ (R43). -/
structure AlphaEntry where
  sym  : Byte
  freq : Freq
  deriving DecidableEq, Repr, Inhabited

/-- A node of the Huffman arena: a LEAF with WEIGHT and INDEX, or an INTERNAL node with WEIGHT, LEFT and RIGHT (R44). -/
inductive Node where
  | leaf     (weight : Freq) (index : BitVec 8)
  | internal (weight : Freq) (left right : NodeId)
  deriving DecidableEq, Repr, Inhabited

/-- An entry of a codebook: LEN characters, character j in bit j of BITS (R46). -/
structure Codeword where
  len  : BitVec 8
  bits : BitVec 256
  deriving DecidableEq, Repr, Inhabited

/-- An unconstrained number: with it the length of the source sequence is any value R9 allows. -/
opaque Config.rawN : Nat

/-- An unconstrained number: with it the capacity of the output stream is any value R10 allows. -/
opaque Config.rawOutWords : Nat

/-- The reading of the bit scan above 255, left open by R11 and R89. -/
opaque Config.mbrMode : MbrMode

/-- The parameters the machine has at `State.reset`: free within 1 <= P_N <= 2^24 - 1 (R9), and 32 <= P_OUT_BITS <= 2^28 with
P_OUT_BITS mod 32 = 0 (R10). DESIGN CHOICE, log 2. -/
def Config.params : Params where
  pN       := Config.rawN % (2 ^ 24 - 1) + 1
  pOutBits := 32 * (Config.rawOutWords % 2 ^ 23 + 1)
  mbrMode  := Config.mbrMode

/-- FREE VALUE. What the n-th busy read of a result register or window returns (R69, I1). -/
opaque Config.busyRead : Nat → Word

/-- FREE VALUE. Byte `j` of SRC after the `e`-th hard reset (R42, I2), as `Config.srcAtReset e j`. -/
opaque Config.srcAtReset : Nat → Nat → Byte

/-- FREE VALUE. Entry `i` of ALPHA after the `e`-th reset (R43, I3). -/
opaque Config.alphaAtReset : Nat → Nat → AlphaEntry

/-- FREE VALUE. Node `n` of the arena after the `e`-th reset (R44, I3). -/
opaque Config.nodeAtReset : Nat → Nat → Node

/-- FREE VALUE. Position `p` of WQ after the `e`-th reset (R45, I3). -/
opaque Config.wqAtReset : Nat → Nat → NodeId

/-- FREE VALUE. Entry `i` of codebook `k` after the `e`-th reset (R46, I3). -/
opaque Config.cbAtReset : Nat → Book → Nat → Codeword

/-- FREE VALUE. Bit `j` of OUT after the `e`-th reset (R47, I3). -/
opaque Config.outAtReset : Nat → Nat → Bool

/-- FREE VALUE. Bucket `v` of HIST after the `e`-th reset (R48, R52, I3). -/
opaque Config.histAtReset : Nat → Nat → Freq

/-- FREE VALUE. MIN1 (0) and MIN2 (1) after the `e`-th reset (R52, I3). -/
opaque Config.scanAtReset : Nat → Nat → BitVec 8

end Sys2Proof
end

