-- ==== Sys2Proof/WellFormed.lean ====
section
/-! DEFINITION. What a legal command word's fields are (30_encoding.md R80, R82), that of every command, and what legal
parameters are (00_scope.md R9, R10). -/

namespace Sys2Proof

/-- The operation codes of every command but ENCODE (R80). -/
def plainOps : List (BitVec 8) := [0x01, 0x02, 0x03, 0x04, 0x06, 0x07, 0x10, 0x11, 0x12]

/-- The operation code of ENCODE (R79). -/
def encodeOp : BitVec 8 := 0x05

/-- The reserved bits are 0 (R77). -/
def CmdFields.rsvZero (f : CmdFields) : Bool := f.rsv == 0

/-- OP stands in the opcode map (R79). -/
def CmdFields.opKnown (f : CmdFields) : Bool := f.op == encodeOp || plainOps.contains f.op

/-- CB is 0 in every command but ENCODE (R77). -/
def CmdFields.cbPlain (f : CmdFields) : Bool := f.op == encodeOp || f.cb == 0

/-- CB is not the reserved selector 3 (R78). -/
def CmdFields.cbKnown (f : CmdFields) : Bool := f.cb != 3

/-- The fields are those of a legal word (R80). -/
def CmdFields.wf (f : CmdFields) : Bool := f.rsvZero && f.opKnown && f.cbPlain && f.cbKnown

/-- The fields of each command's word (R79). -/
def Instr.fields : Instr → CmdFields
  | .buildAlpha    => ⟨0x01, 0, 0⟩
  | .buildFixed    => ⟨0x02, 0, 0⟩
  | .buildShannon  => ⟨0x03, 0, 0⟩
  | .buildHuffman  => ⟨0x04, 0, 0⟩
  | .encodeFixed   => ⟨0x05, 0, 0⟩
  | .encodeShannon => ⟨0x05, 1, 0⟩
  | .encodeHuffman => ⟨0x05, 2, 0⟩
  | .stats         => ⟨0x06, 0, 0⟩
  | .mbr           => ⟨0x07, 0, 0⟩
  | .hufInit       => ⟨0x10, 0, 0⟩
  | .hufStep       => ⟨0x11, 0, 0⟩
  | .hufExtract    => ⟨0x12, 0, 0⟩

/-- A command is well-formed when its fields are (R80). -/
def Instr.wf (i : Instr) : Bool := i.fields.wf

/-- 1 <= P_N <= 2^24 - 1 (R9). -/
def Params.lengthWf (p : Params) : Bool := decide (1 ≤ p.pN ∧ p.pN ≤ 2 ^ 24 - 1)

/-- 32 <= P_OUT_BITS <= 2^28 and P_OUT_BITS mod 32 = 0 (R10). -/
def Params.outWf (p : Params) : Bool := decide (32 ≤ p.pOutBits ∧ p.pOutBits ≤ 2 ^ 28 ∧ p.pOutBits % 32 = 0)

/-- The parameters are ones a realisation may have (R9, R10). -/
def Params.wf (p : Params) : Bool := p.lengthWf && p.outWf

end Sys2Proof
end

