-- ==== Sys2Proof/Decode.lean ====
section
/-! DEFINITION. From a command word to its command (30_encoding.md R77 to R80), total on every word and rejecting by name, and
from a command to its word (R79). -/

namespace Sys2Proof

/-- Why a word is illegal (R82). -/
inductive Illegal where
  /-- RSV is not 0. -/
  | reservedBits
  /-- OP is outside the opcode map. -/
  | reservedOp
  /-- CB is not 0 in a command other than ENCODE. -/
  | codebookOnPlainOp
  /-- ENCODE with CB = 3. -/
  | reservedCodebook
  deriving DecidableEq, Repr

/-- The fields of a word (R77): OP is c[7:0], CB is c[9:8], RSV is c[31:10]. -/
def fieldsOf (c : Word) : CmdFields :=
  ⟨c.extractLsb' 0 8, c.extractLsb' 8 2, c.extractLsb' 10 22⟩

/-- The word with these fields (R77). -/
def wordOfFields (f : CmdFields) : Word := (f.rsv ++ f.cb) ++ f.op

/-- The codebook a CB field selects (R78). -/
def bookOfField (cb : BitVec 2) : Option Book :=
  if cb = 0 then some .fixed
  else if cb = 1 then some .shannon
  else if cb = 2 then some .huffman
  else none

/-- ENCODE's command for each codebook (R79). -/
def encodeCommand : Book → Instr
  | .fixed   => .encodeFixed
  | .shannon => .encodeShannon
  | .huffman => .encodeHuffman

/-- The command of an operation code other than ENCODE's (R79). -/
def plainCommand (op : BitVec 8) : Option Instr :=
  if op = 0x01 then some .buildAlpha
  else if op = 0x02 then some .buildFixed
  else if op = 0x03 then some .buildShannon
  else if op = 0x04 then some .buildHuffman
  else if op = 0x06 then some .stats
  else if op = 0x07 then some .mbr
  else if op = 0x10 then some .hufInit
  else if op = 0x11 then some .hufStep
  else if op = 0x12 then some .hufExtract
  else none

/-- The command a word's fields stand for, or why the word is illegal (R80, R82). -/
def decodeFields (f : CmdFields) : Except Illegal Instr :=
  if f.rsv ≠ 0 then .error .reservedBits
  else if f.op = encodeOp then
    match bookOfField f.cb with
    | some k => .ok (encodeCommand k)
    | none   => .error .reservedCodebook
  else
    match plainCommand f.op with
    | some i => if f.cb = 0 then .ok i else .error .codebookOnPlainOp
    | none   => .error .reservedOp

/-- The decoder (R80): every bit of the word is significant. -/
def decode (c : Word) : Except Illegal Instr := decodeFields (fieldsOf c)

/-- The word of a command (R79). -/
def encode (i : Instr) : Word := wordOfFields i.fields

/-- The instruction the decoder reads from an instruction of `nbits` bits numbered as spec/opcode_table.json numbers them. A
command is one 32-bit word (R83), so bits above `nbits` are 0 and bits above 31 do not exist. -/
def decodeTableWord (nbits w : Nat) : Option Instr :=
  match decode (BitVec.ofNat 32 (w % 2 ^ nbits)) with
  | .ok i    => some i
  | .error _ => none

end Sys2Proof
end

