-- ==== Sys2Proof/Machine/State.lean ====
section
/-! DEFINITION. The state of the machine (10_state.md R21 to R52), the inputs of its host agent (20_memory.md R53), the reasons a
step can stop, and the state after reset (R52, 70_reset_and_hazards.md R126, R128). -/

namespace Sys2Proof.Machine

/-- A data store: what has been written since the last reset, as (index, value) pairs, indexes strictly rising. An index that is
not listed holds no written value: it reads as its free value (log 6, log 7). -/
abbrev Store (α : Type) := List (Nat × α)

/-- The source bytes as a list of cells: index in SRC, byte (R42). -/
abbrev Memory := List Host.Cell

/-- ENG_STATE (R49). -/
inductive EngState where
  | idle
  | running
  | faulted
  deriving DecidableEq, Repr

/-- HUF_STATE (R33). The code 3 is never produced and has no name here. -/
inductive HufState where
  | empty
  | active
  | extracted
  deriving DecidableEq, Repr

/-- The fault codes of STATUS.ERR (60_exceptions.md R112). The codes 6 to 15 are never produced and have no name here. -/
inductive FaultCode where
  | none
  | illegalCmd
  | emptyAlphabet
  | noCodebook
  | hufSeq
  | symbolAbsent
  deriving DecidableEq, Repr

/-- One value for each codebook: VALID, ENC_VALID, ENC_LEN, CB (R32, R35, R36, R46). -/
structure PerBook (α : Type) where
  fixed   : α
  shannon : α
  huffman : α
  deriving DecidableEq, Repr

/-- What the host agent can do (R53): a transaction of a size in bits (R54, R55), or a change of the hard-reset input (R126). -/
inductive HostAction where
  | read  (size : Nat) (addr : Addr)
  | write (size : Nat) (addr : Addr) (data : Word)
  | assertReset
  | releaseReset
  deriving DecidableEq, Repr

/-- Who moves: the host with one action, or the engine (R53). -/
inductive Turn where
  | host (a : HostAction)
  | engine
  deriving DecidableEq, Repr

/-- What the host port answers a transaction with: a bus error or not, and the data read, 0 for a write (R55, R56). -/
structure Response where
  busError : Bool
  data     : Word
  deriving DecidableEq, Repr

/-- The state. Every field names the rule that gives it; the last seven are the model's own (log 1 to log 9). -/
structure State where
  /-- CTRL.IE (R27). -/
  ie          : Bool
  /-- LAST_CMD (R28). -/
  lastCmd     : Word
  /-- CUR_CMD (R49). -/
  curCmd      : Word
  /-- CUR_ARG (R49). -/
  curArg      : Word
  /-- ENG_STATE, which STATUS.BUSY and STATUS.FAULT show (R29, R49). -/
  engState    : EngState
  /-- STATUS.DONE (R29). -/
  done        : Bool
  /-- STATUS.ERR (R29, R112). -/
  err         : FaultCode
  /-- STATUS.CMD_DROPPED (R29). -/
  cmdDropped  : Bool
  /-- STATUS.WR_DROPPED (R29). -/
  wrDropped   : Bool
  /-- STATUS.BUS_ERR (R29). -/
  busErr      : Bool
  /-- FAULT_INFO (R30). -/
  faultInfo   : Word
  /-- ALPHA_LEN.L (R31). -/
  alphaLen    : Count
  /-- CB_VALID.VALID (R32). -/
  valid       : PerBook Bool
  /-- HUF_STATUS.HUF_STATE (R33). -/
  hufState    : HufState
  /-- HUF_STATUS.WCNT (R33). -/
  wcnt        : Count
  /-- HUF_STATUS.NODE_CNT (R33). -/
  nodeCnt     : Count
  /-- HUF_ROOT (R34). -/
  hufRoot     : NodeId
  /-- ENC_STATUS.ENC_VALID (R35). -/
  encValid    : PerBook Bool
  /-- ENC_STATUS.TRUNC (R35). -/
  trunc       : Bool
  /-- ENC_STATUS.LAST_CB (R35). -/
  lastCb      : Book
  /-- ENC_LEN (R36). -/
  encLen      : PerBook Word
  /-- STAT_SUMBITS (R37). -/
  statSumbits : Word
  /-- ARG (R38). -/
  arg         : Word
  /-- RESULT (R39). -/
  result      : Word
  /-- SRC (R42). -/
  src         : Memory
  /-- ALPHA (R43). -/
  alpha       : Store AlphaEntry
  /-- NODE (R44). -/
  node        : Store Node
  /-- WQ (R45). -/
  wq          : Store NodeId
  /-- CB (R46). -/
  cb          : PerBook (Store Codeword)
  /-- OUT (R47). -/
  out         : Store Bool
  /-- HIST (R48). -/
  hist        : Store Freq
  /-- MIN1 (R50). -/
  min1        : BitVec 8
  /-- MIN2 (R50). -/
  min2        : BitVec 8
  /-- The configuration (R9, R10, R11), which no step changes. DESIGN CHOICE, log 1. -/
  params      : Params
  /-- The turns still to come, the first one next. DESIGN CHOICE, log 3. -/
  agenda      : List Turn
  /-- What the host port answered last, if it has answered. DESIGN CHOICE, log 4. -/
  response    : Option Response
  /-- How many free draws busy reads have made (R69). DESIGN CHOICE, log 5. -/
  draws       : Nat
  /-- The hard-reset input is asserted (R126). DEDUCED, log 9. -/
  resetHeld   : Bool
  /-- How many hard resets there have been: names the free bytes of SRC. DESIGN CHOICE, log 6. -/
  srcEpoch    : Nat
  /-- How many resets there have been: names the free values of the tables. DESIGN CHOICE, log 7. -/
  tabEpoch    : Nat
  deriving DecidableEq, Repr

/-- The reasons for which the MACHINE stops: none. The spec gives every command word an end (R110, R111) and every fault a next
state (R111), so nothing raises one, and the type has no constructor. Safe: a model with no stop allows no behaviour by stopping
(log 14). -/
inductive Fault where
  deriving DecidableEq, Repr

/-- The reasons for which the model gives an instruction no meaning. -/
inductive Refusal where
  /-- Raised by an arm of `exec` that has no meaning yet: by none, every command has its meaning. Safe: it only stops. -/
  | notModelled (mnemonic : String)
  deriving DecidableEq, Repr

/-- What one step answers. -/
abbrev Answer := Host.Outcome State Fault Refusal

/-- The machine right after a hard reset (R52, R126, R128), with these parameters and an empty agenda: every register at the value
R52 gives, every store with nothing written, so that each of its entries is a free value. The model's own fields are DESIGN CHOICE
(log 3 to log 9). -/
def State.resetWith (p : Params) : State where
  ie          := false
  lastCmd     := 0
  curCmd      := 0
  curArg      := 0
  engState    := .idle
  done        := false
  err         := .none
  cmdDropped  := false
  wrDropped   := false
  busErr      := false
  faultInfo   := 0
  alphaLen    := 0
  valid       := ⟨false, false, false⟩
  hufState    := .empty
  wcnt        := 0
  nodeCnt     := 0
  hufRoot     := 0
  encValid    := ⟨false, false, false⟩
  trunc       := false
  lastCb      := .fixed
  encLen      := ⟨0, 0, 0⟩
  statSumbits := 0
  arg         := 0
  result      := 0
  src         := []
  alpha       := []
  node        := []
  wq          := []
  cb          := ⟨[], [], []⟩
  out         := []
  hist        := []
  min1        := Config.scanAtReset 0 0
  min2        := Config.scanAtReset 0 1
  params      := p
  agenda      := []
  response    := none
  draws       := 0
  resetHeld   := false
  srcEpoch    := 0
  tabEpoch    := 0

/-- The machine right after reset, whose parameters are any the spec allows (log 2). -/
def State.reset : State := State.resetWith Config.params

end Sys2Proof.Machine
end

