-- ==== Sys2Proof/Machine/Ops.lean ====
section
/-! DEFINITION. The named operations every meaning is written over: reading and writing a store, the accessors of the stores, the
end of a command (60_exceptions.md R110), taking a fault (R111) and the way back from one, a reset (R116, 70_reset_and_hazards.md
R126, R127), and the submission of a command (30_encoding.md R81, 60_exceptions.md R115). -/

namespace Sys2Proof.Machine

/-! ### Stores -/

/-- The value written at an index, if one has been. -/
def Store.get? {α : Type} : Store α → Nat → Option α
  | [], _ => none
  | (k, v) :: m, i => if i = k then some v else Store.get? m i

/-- The value at an index, or the free value it holds while nothing has been written there. -/
def Store.getD {α : Type} (m : Store α) (i : Nat) (free : α) : α := (Store.get? m i).getD free

/-- Write one entry, keeping the indexes strictly rising. -/
def Store.set {α : Type} : Store α → Nat → α → Store α
  | [], i, v => [(i, v)]
  | (k, w) :: m, i, v =>
    if i < k then (i, v) :: (k, w) :: m
    else if i = k then (i, v) :: m
    else (k, w) :: Store.set m i v

/-- Write a list of values from an index on, one entry each. -/
def Store.setFrom {α : Type} : Store α → Nat → List α → Store α
  | m, _, [] => m
  | m, i, v :: vs => Store.setFrom (Store.set m i v) (i + 1) vs

/-- The canonical form: every index larger than the one before it. -/
def Store.wf {α : Type} : Store α → Bool
  | [] => true
  | [_] => true
  | (i, _) :: (j, v) :: m => decide (i < j) && Store.wf ((j, v) :: m)

/-- Every index of the store is below a bound. -/
def Store.below {α : Type} (m : Store α) (n : Nat) : Bool := m.all fun e => decide (e.1 < n)

/-- The canonical form of SRC: indexes strictly rising. No listed entry equals what an unlisted index holds, since an unlisted index
holds no written value (log 6). -/
def Memory.wf (m : Memory) : Bool := Store.wf m

/-- The value a record of the three codebooks holds for one of them. -/
def PerBook.get {α : Type} (p : PerBook α) : Book → α
  | .fixed   => p.fixed
  | .shannon => p.shannon
  | .huffman => p.huffman

/-- Change the value of one codebook, leaving the other two. -/
def PerBook.set {α : Type} (p : PerBook α) (k : Book) (v : α) : PerBook α :=
  match k with
  | .fixed   => { p with fixed := v }
  | .shannon => { p with shannon := v }
  | .huffman => { p with huffman := v }

/-- The same value for all three codebooks. -/
def PerBook.all {α : Type} (v : α) : PerBook α := ⟨v, v, v⟩

/-! ### Accessors of the data stores -/

/-- SRC[j] (R42): the byte written there, or the free value it has held since the last hard reset. -/
def State.srcByte (s : State) (j : Nat) : Byte := Store.getD s.src j (Config.srcAtReset s.srcEpoch j)

/-- SRC[0..P_N-1] in order (R42). -/
def State.srcBytes (s : State) : List Byte := (List.range s.params.pN).map s.srcByte

/-- ALPHA[i] (R43). -/
def State.alphaAt (s : State) (i : Nat) : AlphaEntry := Store.getD s.alpha i (Config.alphaAtReset s.tabEpoch i)

/-- NODE[n] (R44). -/
def State.nodeAt (s : State) (n : Nat) : Node := Store.getD s.node n (Config.nodeAtReset s.tabEpoch n)

/-- WQ[p] (R45). -/
def State.wqAt (s : State) (p : Nat) : NodeId := Store.getD s.wq p (Config.wqAtReset s.tabEpoch p)

/-- CB[k][i] (R46). -/
def State.cbAt (s : State) (k : Book) (i : Nat) : Codeword := Store.getD (s.cb.get k) i (Config.cbAtReset s.tabEpoch k i)

/-- OUT[j] (R47). -/
def State.outBit (s : State) (j : Nat) : Bool := Store.getD s.out j (Config.outAtReset s.tabEpoch j)

/-- HIST[v] (R48). No command and no read of the port looks at a bucket before BUILD_ALPHA has written it. -/
def State.histAt (s : State) (v : Nat) : Freq := Store.getD s.hist v (Config.histAtReset s.tabEpoch v)

/-! ### The end of a command -/

/-- `complete()` (R110), after the command's assignments have been made. -/
def complete (s : State) : State := { s with done := true, engState := .idle }

/-- `raise Fault(code, info)` (R111), THE exception entry of this hardware. It is applied to the state the command started from, so
every assignment the command's rule made is discarded. -/
def raiseFault (code : FaultCode) (info : Word) (s : State) : State :=
  { s with err := code, faultInfo := info, done := true, engState := .faulted }

/-! ### Reset, the way back from a fault -/

/-- What both resets do (R52, R127): every register at its reset value, the tables unspecified again, an in-flight command discarded.
SRC, the configuration and the port are not touched. -/
def clearAll (s : State) : State :=
  { s with
    ie := false, lastCmd := 0, curCmd := 0, curArg := 0, engState := .idle,
    done := false, err := .none, cmdDropped := false, wrDropped := false, busErr := false,
    faultInfo := 0, alphaLen := 0, valid := PerBook.all false,
    hufState := .empty, wcnt := 0, nodeCnt := 0, hufRoot := 0,
    encValid := PerBook.all false, trunc := false, lastCb := .fixed, encLen := PerBook.all 0,
    statSumbits := 0, arg := 0, result := 0,
    alpha := [], node := [], wq := [], cb := PerBook.all [], out := [], hist := [],
    min1 := Config.scanAtReset (s.tabEpoch + 1) 0, min2 := Config.scanAtReset (s.tabEpoch + 1) 1,
    tabEpoch := s.tabEpoch + 1 }

/-- The soft reset (R127), the return path from FAULTED (R116): SRC is unchanged. -/
def softReset (s : State) : State := clearAll s

/-- The hard reset at its release (R126): SRC becomes unspecified too, one fresh free value for each byte. -/
def hardReset (s : State) : State :=
  { clearAll s with src := [], srcEpoch := s.srcEpoch + 1 }

/-! ### Submission of a command -/

/-- A command word is accepted, whatever its value (R81). -/
def acceptCommand (c : Word) (s : State) : State :=
  { s with lastCmd := c, curCmd := c, curArg := s.arg, done := false, engState := .running }

/-- A CMD write is dropped (R115). -/
def dropCommand (s : State) : State := { s with cmdDropped := true }

/-- A write to CMD (R81, R115). -/
def submitCommand (c : Word) (s : State) : State :=
  match s.engState with
  | .idle    => acceptCommand c s
  | .running => dropCommand s
  | .faulted => dropCommand s

end Sys2Proof.Machine
end

