-- ==== Sys2Proof/Machine/Operands.lean ====
section
/-! DEFINITION. What the commands compute with: numerals and the bit scan (00_scope.md R17, 41_statistics.md R89), codewords as
character sequences (R16, 10_state.md R46), node weights, and the symbol lookup. -/

namespace Sys2Proof.Machine

/-- The `n`-bit vector whose bit `j` is the `j`-th of the listed bits, and 0 past the end of the list. -/
def bitsOf (n : Nat) (l : List Bool) : BitVec n := (BitVec.ofBoolListLE l).setWidth n

/-- `bitlen(v)` (R17): the number of bits of v's binary numeral without leading zeros, 0 for 0. -/
def bitlen (v : Nat) : Nat := if v = 0 then 0 else Nat.log2 v + 1

/-- `bin(v)` (R17): the binary numeral of v, most significant digit first, with `bin(0) = "0"`. -/
def bin (v : Nat) : Chars := (List.range (max 1 (bitlen v))).reverse.map v.testBit

/-- Zero-pad on the left to `n` characters, and never truncate (R94). -/
def padLeft (n : Nat) (w : Chars) : Chars := List.replicate (n - w.length) false ++ w

/-- The argument the bit scan looks at (R89): all of v under CAP, its low byte under IGNORE. -/
def mbrArgument (m : MbrMode) (v : Word) : Nat :=
  match m with
  | .cap    => v.toNat
  | .ignore => (v.extractLsb' 0 8).toNat

/-- `mbr(v)`, the source's `minimum_bits_to_represent` (R89): 1..8. -/
def mbrOf (m : MbrMode) (v : Word) : Nat := max 1 (min 8 (bitlen (mbrArgument m v)))

/-- The codebook entry of a character sequence (R46): its length, and character j in bit j. -/
def codewordOf (w : Chars) : Codeword := ⟨BitVec.ofNat 8 w.length, bitsOf 256 w⟩

/-- The character sequence of a codebook entry (R46). -/
def charsOf (c : Codeword) : Chars := (List.range c.len.toNat).map c.bits.getLsbD

/-- NODE[n].WEIGHT (R44). -/
def nodeWeight : Node → Freq
  | .leaf w _       => w
  | .internal w _ _ => w

/-- `W(p)`, the weight of the node at queue position p (R101). -/
def State.weightAt (s : State) (p : Nat) : Freq := nodeWeight (s.nodeAt (s.wqAt p).toNat)

/-- The first alphabet index whose symbol is `b`, by linear scan (R108). -/
def State.lookup (s : State) (b : Byte) : Option Nat :=
  (List.range s.alphaLen.toNat).find? fun i => (s.alphaAt i).sym == b

/-- The characters ENCODE k emits for the listed source positions, in order (R108), or the first position whose byte matches no
symbol of the alphabet, with that byte. -/
def State.codeStream (s : State) (k : Book) : List Nat → Except (Byte × Nat) Chars
  | [] => .ok []
  | j :: js =>
    match s.lookup (s.srcByte j) with
    | none => .error (s.srcByte j, j)
    | some i =>
      match s.codeStream k js with
      | .error e => .error e
      | .ok w    => .ok (charsOf (s.cbAt k i) ++ w)

end Sys2Proof.Machine
end

