-- ==== Sys2Proof/Machine/Flags.lean ====
section
/-! DEFINITION. The registers as the host reads them (10_state.md R24 to R39), computed from the fields that hold them, with the
interrupt line (60_exceptions.md R117), OUT_LEN (10_state.md R47) and the FAULT_INFO of an absent symbol (R30). -/

namespace Sys2Proof.Machine

/-- The numbers of the codebooks (R78). -/
def bookCode : Book → BitVec 2
  | .fixed   => 0
  | .shannon => 1
  | .huffman => 2

/-- The numbers of HUF_STATE (R33). -/
def HufState.code : HufState → BitVec 2
  | .empty     => 0
  | .active    => 1
  | .extracted => 2

/-- The numbers of the fault codes (R112). -/
def FaultCode.code : FaultCode → BitVec 4
  | .none          => 0
  | .illegalCmd    => 1
  | .emptyAlphabet => 2
  | .noCodebook    => 3
  | .hufSeq        => 4
  | .symbolAbsent  => 5

/-- One bit for each codebook, FIXED in bit 0 (R32, R35). -/
def PerBook.bits (p : PerBook Bool) : BitVec 3 := bitsOf 3 [p.fixed, p.shannon, p.huffman]

/-- ID (R24). -/
def idWord : Word := 0x48460001

/-- PARAM0 (R25): P_N in 23:0, P_MBR_MODE in 24. -/
def param0Word (p : Params) : Word :=
  (0 : BitVec 7) ++ BitVec.ofBool (p.mbrMode == .ignore) ++ BitVec.ofNat 24 p.pN

/-- PARAM1 (R26). -/
def param1Word (p : Params) : Word := BitVec.ofNat 32 p.pOutBits

/-- CTRL (R27): IE in bit 0; SRST and the reserved bits read 0. -/
def State.ctrlWord (s : State) : Word := (0 : BitVec 31) ++ BitVec.ofBool s.ie

/-- STATUS.BUSY (R29): 1 exactly when ENG_STATE = RUNNING. -/
def State.busy (s : State) : Bool := s.engState == .running

/-- STATUS.FAULT (R29): 1 exactly when ENG_STATE = FAULTED. -/
def State.faultFlag (s : State) : Bool := s.engState == .faulted

/-- STATUS (R29). -/
def State.statusWord (s : State) : Word :=
  (0 : BitVec 21) ++ BitVec.ofBool s.busErr ++ BitVec.ofBool s.wrDropped ++ BitVec.ofBool s.cmdDropped ++ s.err.code
    ++ BitVec.ofBool false ++ BitVec.ofBool s.faultFlag ++ BitVec.ofBool s.done ++ BitVec.ofBool s.busy

/-- ALPHA_LEN (R31). -/
def State.alphaLenWord (s : State) : Word := s.alphaLen.setWidth 32

/-- CB_VALID (R32). -/
def State.cbValidWord (s : State) : Word := s.valid.bits.setWidth 32

/-- HUF_STATUS (R33): HUF_STATE in 1:0, WCNT in 12:4, NODE_CNT in 24:16. -/
def State.hufStatusWord (s : State) : Word :=
  (0 : BitVec 7) ++ s.nodeCnt ++ (0 : BitVec 3) ++ s.wcnt ++ (0 : BitVec 2) ++ s.hufState.code

/-- HUF_ROOT (R34), which reads 0 whenever HUF_STATE is not EXTRACTED. -/
def State.hufRootWord (s : State) : Word :=
  if s.hufState = .extracted then s.hufRoot.setWidth 32 else 0

/-- ENC_STATUS (R35): ENC_VALID in 2:0, TRUNC in 4, LAST_CB in 9:8. -/
def State.encStatusWord (s : State) : Word :=
  (0 : BitVec 22) ++ bookCode s.lastCb ++ (0 : BitVec 3) ++ BitVec.ofBool s.trunc ++ BitVec.ofBool false ++ s.encValid.bits

/-- IRQ = CTRL.IE & STATUS.DONE (R117). -/
def State.irq (s : State) : Bool := s.ie && s.done

/-- OUT_LEN (R47): how many characters of OUT are observable. -/
def State.outLen (s : State) : Nat :=
  if s.encValid.get s.lastCb then min (s.encLen.get s.lastCb).toNat s.params.pOutBits else 0

/-- FAULT_INFO of SYMBOL_ABSENT (R30, R112): the byte in 31:24, its position in 23:0. -/
def absentInfo (b : Byte) (j : Nat) : Word := b ++ BitVec.ofNat 24 j

end Sys2Proof.Machine
end

