-- ==== Sys2Proof/Machine/Alphabet.lean ====
section
/-! DEFINITION. The alphabet builder: BUILD_ALPHA (40_alphabet.md R86). -/

namespace Sys2Proof.Machine

/-- HIST after the tally (R86): bucket v, for v = 0..255, holds how many of the bytes are v, in 24 bits. The end value of the two
loops of the rule (log 13). -/
def histogram (bytes : List Byte) : Store Freq :=
  (List.range 256).map fun v => (v, BitVec.ofNat 24 (bytes.count (BitVec.ofNat 8 v)))

/-- One alphabet entry per bucket with a nonzero count, in ascending bucket order (R86). -/
def alphabetOf (hist : Store Freq) : List AlphaEntry :=
  hist.filterMap fun e => if e.2 ≠ 0 then some ⟨BitVec.ofNat 8 e.1, e.2⟩ else none

/-- Everything built from the old alphabet dies with it (R86, R133). -/
def invalidateBuilt (s : State) : State :=
  { s with
    valid := PerBook.all false, hufState := .empty, wcnt := 0, nodeCnt := 0, hufRoot := 0,
    encValid := PerBook.all false, trunc := false }

/-- The alphabet of a histogram, written over the old one: entries past the new L keep their stale contents (R86). -/
def installAlphabet (hist : Store Freq) (s : State) : State :=
  { s with
    hist := hist, alpha := Store.setFrom s.alpha 0 (alphabetOf hist),
    alphaLen := BitVec.ofNat 9 (alphabetOf hist).length }

/-- BUILD_ALPHA (R86). -/
def execBuildAlpha (s : State) : Answer :=
  .next (complete (invalidateBuilt (installAlphabet (histogram s.srcBytes) s)))

end Sys2Proof.Machine
end

