-- ==== Sys2Proof/Machine/Encoder.lean ====
section
/-! DEFINITION. The encoder: ENCODE FIXED, ENCODE SHANNON and ENCODE HUFFMAN (45_encoder.md R108). -/

namespace Sys2Proof.Machine

/-- The assignments of a successful ENCODE k whose stream is `w` (R108): OUT keeps its first P_OUT_BITS characters, ENC_LEN[k] the
whole length. -/
def storeStream (k : Book) (w : Chars) (s : State) : State :=
  { s with
    out := Store.setFrom s.out 0 (w.take s.params.pOutBits),
    encLen := s.encLen.set k (BitVec.ofNat 32 w.length),
    encValid := s.encValid.set k true,
    trunc := decide (s.params.pOutBits < w.length),
    lastCb := k }

/-- ENCODE k (R108): NO_CODEBOOK before SRC is looked at, then SYMBOL_ABSENT at the lowest position (R113). -/
def encodeWith (k : Book) (s : State) : State :=
  if s.valid.get k = false then raiseFault .noCodebook s.curCmd s
  else
    match s.codeStream k (List.range s.params.pN) with
    | .error (b, j) => raiseFault .symbolAbsent (absentInfo b j) s
    | .ok w         => complete (storeStream k w s)

/-- ENCODE FIXED (R108, k = 0). -/
def execEncodeFixed (s : State) : Answer := .next (encodeWith .fixed s)

/-- ENCODE SHANNON (R108, k = 1). -/
def execEncodeShannon (s : State) : Answer := .next (encodeWith .shannon s)

/-- ENCODE HUFFMAN (R108, k = 2). -/
def execEncodeHuffman (s : State) : Answer := .next (encodeWith .huffman s)

end Sys2Proof.Machine
end

