-- ==== Sys2Proof/Machine/Fixed.lean ====
section
/-! DEFINITION. The fixed-length code builder: BUILD_FIXED (42_fixed.md R94). -/

namespace Sys2Proof.Machine

/-- The fixed codeword of index i for an alphabet of L symbols (R94): the numeral of i padded to mbr(L) characters, never cut. -/
def fixedChars (m : MbrMode) (len : Count) (i : Nat) : Chars :=
  padLeft (mbrOf m (len.setWidth 32)) (bin i)

/-- The codewords of indices 0..L-1 (R94). -/
def fixedBook (m : MbrMode) (len : Count) : List Codeword :=
  (List.range len.toNat).map fun i => codewordOf (fixedChars m len i)

/-- BUILD_FIXED (R94). With L = 0 it completes with an empty valid codebook. -/
def execBuildFixed (s : State) : Answer :=
  .next (complete
    { s with
      cb := s.cb.set .fixed (Store.setFrom (s.cb.get .fixed) 0 (fixedBook s.params.mbrMode s.alphaLen)),
      valid := s.valid.set .fixed true })

end Sys2Proof.Machine
end

