-- ==== Sys2Proof/Machine/Huffman.lean ====
section
/-! DEFINITION. The Huffman builder: HUF_INIT, HUF_STEP, HUF_EXTRACT and BUILD_HUFFMAN (44_huffman.md R99 to R104). The bodies of
the three step commands are operations of their own, so that BUILD_HUFFMAN runs the same ones. -/

namespace Sys2Proof.Machine

/-- The leaves 0..L-1 (R100). -/
def leavesOf (s : State) : List Node :=
  (List.range s.alphaLen.toNat).map fun i => .leaf (s.alphaAt i).freq (BitVec.ofNat 8 i)

/-- The body of HUF_INIT after its check (R100). -/
def hufInitBody (s : State) : State :=
  { s with
    node := Store.setFrom s.node 0 (leavesOf s),
    wq := Store.setFrom s.wq 0 ((List.range s.alphaLen.toNat).map (BitVec.ofNat 9)),
    wcnt := s.alphaLen, nodeCnt := s.alphaLen, hufState := .active, hufRoot := 0 }

/-- One turn of the selection scan (R101), from the positions (a, b) found so far to those after looking at position k. -/
def scanTurn (weight : Nat → Freq) (ab : Nat × Nat) (k : Nat) : Nat × Nat :=
  if weight k < weight ab.2 then (ab.2, k)
  else if weight k < weight ab.1 then (k, ab.2)
  else ab

/-- `select()` (R101) over a queue of `n` weights: (first minimum, second minimum), by the literal scan. -/
def selectScan (weight : Nat → Freq) (n : Nat) : Nat × Nat :=
  (List.range' 2 (n - 2)).foldl (scanTurn weight) (0, 1)

/-- `remove(p)` (R102): order-preserving removal from a queue of `cnt` ids. The free values are those of unwritten positions. -/
def queueRemove (free : Nat → NodeId) (m : Store NodeId) (cnt p : Nat) : Store NodeId :=
  (List.range' p (cnt - 1 - p)).foldl (fun q j => Store.set q j (Store.getD q (j + 1) (free (j + 1)))) m

/-- Both removals of one merge, the lower index first, then the higher one adjusted (R102). -/
def queueRemoveTwo (free : Nat → NodeId) (m : Store NodeId) (cnt a b : Nat) : Store NodeId :=
  queueRemove free (queueRemove free m cnt (min a b)) (cnt - 1) (max a b - 1)

/-- One merge of the queue positions a, the left child, and b, the right child (R102, steps 2 to 4). -/
def mergeAt (a b : Nat) (s : State) : State :=
  { s with
    wq := Store.set (queueRemoveTwo (Config.wqAtReset s.tabEpoch) s.wq s.wcnt.toNat a b) (s.wcnt.toNat - 2) s.nodeCnt,
    wcnt := s.wcnt - 1,
    node := Store.set s.node s.nodeCnt.toNat
      (.internal (s.weightAt a + s.weightAt b) (s.wqAt a) (s.wqAt b)),
    nodeCnt := s.nodeCnt + 1,
    min1 := BitVec.ofNat 8 a, min2 := BitVec.ofNat 8 b }

/-- The body of one HUF_STEP merge (R102): the scan, then the merge of what it selects. -/
def hufMergeBody (s : State) : State :=
  mergeAt (selectScan s.weightAt s.wcnt.toNat).1 (selectScan s.weightAt s.wcnt.toNat).2 s

/-- `walk(n, path)` (R103), writing codewords into a codebook. `fuel` bounds the depth: a child's id is less than its parent's (R106),
so the root's id plus one is enough (log 12). -/
def hufWalk (s : State) : Nat → NodeId → Chars → Store Codeword → Store Codeword
  | 0, _, _, m => m
  | fuel + 1, n, path, m =>
    match s.nodeAt n.toNat with
    | .leaf _ i       => Store.set m i.toNat (codewordOf path)
    | .internal _ l r => hufWalk s fuel r (path ++ [true]) (hufWalk s fuel l (path ++ [false]) m)

/-- The body of HUF_EXTRACT after its check (R103). -/
def hufExtractBody (s : State) : State :=
  { s with
    cb := s.cb.set .huffman (hufWalk s ((s.wqAt 0).toNat + 1) (s.wqAt 0) [] (s.cb.get .huffman)),
    valid := s.valid.set .huffman true,
    hufRoot := s.wqAt 0, hufState := .extracted }

/-- The loop of BUILD_HUFFMAN (R104): merge while WCNT > 1. Every merge lowers WCNT by one, so WCNT turns are enough. -/
def hufMergeAll : Nat → State → State
  | 0, s => s
  | fuel + 1, s => if 1 < s.wcnt.toNat then hufMergeAll fuel (hufMergeBody s) else s

/-- HUF_INIT (R100). -/
def execHufInit (s : State) : Answer :=
  if s.alphaLen = 0 then .next (raiseFault .emptyAlphabet s.curCmd s)
  else .next (complete (hufInitBody s))

/-- HUF_STEP (R102): no merge when one root is left. -/
def execHufStep (s : State) : Answer :=
  if s.hufState = .empty then .next (raiseFault .hufSeq s.curCmd s)
  else if s.wcnt = 1 then .next (complete s)
  else .next (complete (hufMergeBody s))

/-- HUF_EXTRACT (R103). -/
def execHufExtract (s : State) : Answer :=
  if s.hufState = .empty ∨ s.wcnt ≠ 1 then .next (raiseFault .hufSeq s.curCmd s)
  else .next (complete (hufExtractBody s))

/-- BUILD_HUFFMAN (R104). -/
def execBuildHuffman (s : State) : Answer :=
  if s.alphaLen = 0 then .next (raiseFault .emptyAlphabet s.curCmd s)
  else .next (complete (hufExtractBody (hufMergeAll s.alphaLen.toNat (hufInitBody s))))

end Sys2Proof.Machine
end

