-- ==== Sys2Proof/Machine/Shannon.lean ====
section
/-! DEFINITION. The Shannon-Fano builder: BUILD_SHANNON (43_shannon.md R96). -/

namespace Sys2Proof.Machine

/-- `split(l, r, path)` (R96), writing codewords into a codebook. `fuel` bounds the depth: a range of n indices needs at most n levels,
since both halves of a range of two or more are smaller than it (R97). -/
def shannonSplit : Nat → Nat → Nat → Chars → Store Codeword → Store Codeword
  | 0, _, _, _, m => m
  | fuel + 1, l, r, path, m =>
    if r < l then m
    else if l = r then Store.set m l (codewordOf path)
    else
      let mid := (l + r) / 2
      shannonSplit fuel (mid + 1) r (path ++ [true]) (shannonSplit fuel l mid (path ++ [false]) m)

/-- BUILD_SHANNON (R96). -/
def execBuildShannon (s : State) : Answer :=
  if s.alphaLen = 0 then .next (raiseFault .emptyAlphabet s.curCmd s)
  else
    .next (complete
      { s with
        cb := s.cb.set .shannon
          (shannonSplit s.alphaLen.toNat 0 (s.alphaLen.toNat - 1) [] (s.cb.get .shannon)),
        valid := s.valid.set .shannon true })

end Sys2Proof.Machine
end

