-- ==== Sys2Proof/Machine/Statistics.lean ====
section
/-! DEFINITION. The statistics unit: MBR (41_statistics.md R90) and STATS (R91). -/

namespace Sys2Proof.Machine

/-- MBR (R90): the bit scan of the operand latched at acceptance. -/
def execMbr (s : State) : Answer :=
  .next (complete { s with result := BitVec.ofNat 32 (mbrOf s.params.mbrMode s.curArg) })

/-- The sum of the bit scan over the indices 0..L-1 (R91). -/
def sumBits (m : MbrMode) (len : Nat) : Nat :=
  ((List.range len).map fun i => mbrOf m (BitVec.ofNat 32 i)).sum

/-- STATS (R91). -/
def execStats (s : State) : Answer :=
  if s.alphaLen = 0 then .next (raiseFault .emptyAlphabet s.curCmd s)
  else .next (complete { s with statSumbits := BitVec.ofNat 32 (sumBits s.params.mbrMode s.alphaLen.toNat) })

end Sys2Proof.Machine
end

