-- ==== Sys2Proof/Machine/Dispatch.lean ====
section
/-! DEFINITION. One arm per command (30_encoding.md R79): its meaning is the engine's one step for it (60_exceptions.md R110, R111). -/

namespace Sys2Proof.Machine

def exec (i : Instr) (s : State) : Host.Outcome State Fault Refusal :=
  match i with
  | .buildAlpha => Sys2Proof.Machine.execBuildAlpha s
  | .buildFixed => Sys2Proof.Machine.execBuildFixed s
  | .buildShannon => Sys2Proof.Machine.execBuildShannon s
  | .buildHuffman => Sys2Proof.Machine.execBuildHuffman s
  | .encodeFixed => Sys2Proof.Machine.execEncodeFixed s
  | .encodeShannon => Sys2Proof.Machine.execEncodeShannon s
  | .encodeHuffman => Sys2Proof.Machine.execEncodeHuffman s
  | .stats => Sys2Proof.Machine.execStats s
  | .mbr => Sys2Proof.Machine.execMbr s
  | .hufInit => Sys2Proof.Machine.execHufInit s
  | .hufStep => Sys2Proof.Machine.execHufStep s
  | .hufExtract => Sys2Proof.Machine.execHufExtract s

end Sys2Proof.Machine
end

