-- ==== Sys2Proof/Machine/Port.lean ====
section
/-! DEFINITION. The host port (20_memory.md R54 to R70): the address map, what a read answers, what a write does, bus errors, and the
hard-reset input (70_reset_and_hazards.md R126). -/

namespace Sys2Proof.Machine

/-- The registers of the control page (R62). -/
inductive CtrlReg where
  | id | param0 | param1 | ctrl | cmd | status | faultInfo | alphaLen | cbValid | hufStatus | hufRoot | encStatus
  | encLen (k : Book)
  | statSumbits | arg | result
  deriving DecidableEq, Repr

/-- What stands at an aligned address (R61 to R67). -/
inductive Region where
  /-- A register of the control page (R62). -/
  | reg (r : CtrlReg)
  /-- Entry i of ALPHA (R63). -/
  | alpha (i : Nat)
  /-- Word 0 or word 1 of node n (R64). -/
  | node (n : Nat) (second : Bool)
  /-- Position p of WQ (R64). -/
  | wq (p : Nat)
  /-- Word w of entry i of codebook k (R65). -/
  | cb (k : Book) (i w : Nat)
  /-- Word w of SRC (R66). -/
  | src (w : Nat)
  /-- Word w of OUT (R67). -/
  | out (w : Nat)
  /-- Reserved: reads zero, writes ignored (R40, R57, R61). -/
  | reserved
  deriving DecidableEq, Repr

/-- The register at an offset of the control page (R62). -/
def ctrlRegAt (off : Nat) : Option CtrlReg :=
  if off = 0x000 then some .id
  else if off = 0x004 then some .param0
  else if off = 0x008 then some .param1
  else if off = 0x00C then some .ctrl
  else if off = 0x010 then some .cmd
  else if off = 0x014 then some .status
  else if off = 0x018 then some .faultInfo
  else if off = 0x01C then some .alphaLen
  else if off = 0x020 then some .cbValid
  else if off = 0x024 then some .hufStatus
  else if off = 0x028 then some .hufRoot
  else if off = 0x02C then some .encStatus
  else if off = 0x030 then some (.encLen .fixed)
  else if off = 0x034 then some (.encLen .shannon)
  else if off = 0x038 then some (.encLen .huffman)
  else if off = 0x03C then some .statSumbits
  else if off = 0x040 then some .arg
  else if off = 0x044 then some .result
  else none

/-- Word `off / 4` of a codebook's window (R65): 16 words an entry. -/
def cbRegion (k : Book) (off : Nat) : Region := .cb k (off / 64) (off % 64 / 4)

/-- The address map (R61 to R67). Every address of the space has a region; only aligned ones are ever asked about (R55). -/
def regionOf (a : Addr) : Region :=
  let n := a.toNat
  if n < 0x1000 then
    match ctrlRegAt n with
    | some r => .reg r
    | none   => .reserved
  else if n < 0x1400 then .alpha ((n - 0x1000) / 4)
  else if n < 0x2000 then .reserved
  else if n < 0x3000 then .node ((n - 0x2000) / 8) (decide ((n - 0x2000) % 8 / 4 = 1))
  else if n < 0x3400 then .wq ((n - 0x3000) / 4)
  else if n < 0x10000 then .reserved
  else if n < 0x14000 then cbRegion .fixed (n - 0x10000)
  else if n < 0x18000 then cbRegion .shannon (n - 0x14000)
  else if n < 0x1C000 then cbRegion .huffman (n - 0x18000)
  else if n < 0x1000000 then .reserved
  else if n < 0x2000000 then .src ((n - 0x1000000) / 4)
  else .out ((n - 0x2000000) / 4)

/-- An access the port accepts: 32 bits wide and A[1:0] = 0 (R54, R55). -/
def accessOk (size : Nat) (a : Addr) : Bool := size == 32 && a.extractLsb' 0 2 == 0

/-- A bus-error answer (R55): BUS_ERR is set and a rejected read returns data 0. -/
def busError (s : State) : State := { s with busErr := true, response := some ⟨true, 0⟩ }

/-! ### Reads -/

/-- The value of a register of the control page (R24 to R39). -/
def State.regWord (s : State) : CtrlReg → Word
  | .id          => idWord
  | .param0      => param0Word s.params
  | .param1      => param1Word s.params
  | .ctrl        => s.ctrlWord
  | .cmd         => s.lastCmd
  | .status      => s.statusWord
  | .faultInfo   => s.faultInfo
  | .alphaLen    => s.alphaLenWord
  | .cbValid     => s.cbValidWord
  | .hufStatus   => s.hufStatusWord
  | .hufRoot     => s.hufRootWord
  | .encStatus   => s.encStatusWord
  | .encLen k    => s.encLen.get k
  | .statSumbits => s.statSumbits
  | .arg         => s.arg
  | .result      => s.result

/-- Entry i of the ALPHA window (R63), 0 past the valid range (R68). -/
def State.alphaWord (s : State) (i : Nat) : Word :=
  if i < s.alphaLen.toNat then (s.alphaAt i).freq ++ (s.alphaAt i).sym else 0

/-- Word 0 of a node (R64): WEIGHT in 23:0, KIND in 31. -/
def nodeWord0 : Node → Word
  | .leaf w _       => w.setWidth 32
  | .internal w _ _ => (1 : BitVec 1) ++ (0 : BitVec 7) ++ w

/-- Word 1 of a node (R64): INDEX in 7:0, or LEFT in 8:0 and RIGHT in 24:16. -/
def nodeWord1 : Node → Word
  | .leaf _ i       => i.setWidth 32
  | .internal _ l r => (0 : BitVec 7) ++ r ++ (0 : BitVec 7) ++ l

/-- Node n of the NODE window (R64), 0 past the valid range (R68). -/
def State.nodeWord (s : State) (n : Nat) (second : Bool) : Word :=
  if n < s.nodeCnt.toNat then
    if second then nodeWord1 (s.nodeAt n) else nodeWord0 (s.nodeAt n)
  else 0

/-- Position p of the WQ window (R64), 0 past the valid range (R68). -/
def State.wqWord (s : State) (p : Nat) : Word :=
  if p < s.wcnt.toNat then (s.wqAt p).setWidth 32 else 0

/-- Word w of a codebook entry (R65): LEN, then the eight words of BITS, then zeros. -/
def codewordWord (c : Codeword) (w : Nat) : Word :=
  if w = 0 then c.len.setWidth 32
  else if w ≤ 8 then c.bits.extractLsb' (32 * (w - 1)) 32
  else 0

/-- Word w of entry i of codebook k's window (R65), 0 unless the codebook is valid and the entry in range (R68). -/
def State.cbWord (s : State) (k : Book) (i w : Nat) : Word :=
  if s.valid.get k = true ∧ i < s.alphaLen.toNat then codewordWord (s.cbAt k i) w else 0

/-- SRC byte j as the window shows it (R66): 0 past the sequence (R68). -/
def State.srcWindowByte (s : State) (j : Nat) : Byte := if j < s.params.pN then s.srcByte j else 0

/-- Word w of the SRC window, packed little-endian (R58, R66). -/
def State.srcWord (s : State) (w : Nat) : Word :=
  s.srcWindowByte (4 * w + 3) ++ s.srcWindowByte (4 * w + 2) ++ s.srcWindowByte (4 * w + 1) ++ s.srcWindowByte (4 * w)

/-- OUT bit j as the window shows it (R67): 0 from OUT_LEN on (R47, R68). -/
def State.outWindowBit (s : State) (j : Nat) : Bool := decide (j < s.outLen) && s.outBit j

/-- Word w of the OUT window, OUT[32w+b] in bit b (R58, R67). -/
def State.outWord (s : State) (w : Nat) : Word :=
  bitsOf 32 ((List.range 32).map fun b => s.outWindowBit (32 * w + b))

/-- The word the address map assigns to an address while its value is defined (R56, R68). -/
def State.readWord (s : State) (a : Addr) : Word :=
  match regionOf a with
  | .reg r         => s.regWord r
  | .alpha i       => s.alphaWord i
  | .node n second => s.nodeWord n second
  | .wq p          => s.wqWord p
  | .cb k i w      => s.cbWord k i w
  | .src w         => s.srcWord w
  | .out w         => s.outWord w
  | .reserved      => 0

/-- The registers whose reads are unspecified while RUNNING (R69). -/
def CtrlReg.freeWhileRunning : CtrlReg → Bool
  | .id          => false
  | .param0      => false
  | .param1      => false
  | .ctrl        => false
  | .cmd         => false
  | .status      => false
  | .faultInfo   => true
  | .alphaLen    => true
  | .cbValid     => true
  | .hufStatus   => true
  | .hufRoot     => true
  | .encStatus   => true
  | .encLen _    => true
  | .statSumbits => true
  | .arg         => false
  | .result      => true

/-- The regions whose reads are unspecified while RUNNING: those registers and the windows ALPHA, NODE, WQ, CB and OUT (R69). -/
def Region.freeWhileRunning : Region → Bool
  | .reg r    => r.freeWhileRunning
  | .alpha _  => true
  | .node _ _ => true
  | .wq _     => true
  | .cb _ _ _ => true
  | .src _    => false
  | .out _    => true
  | .reserved => false

/-- `MemRead(a, 4)` (R56). No read changes state (R56, R60): the port's answer and the count of free draws are the model's own. -/
def portRead (a : Addr) (s : State) : State :=
  if s.engState = .running ∧ (regionOf a).freeWhileRunning = true then
    { s with response := some ⟨false, Config.busyRead s.draws⟩, draws := s.draws + 1 }
  else { s with response := some ⟨false, s.readWord a⟩ }

/-! ### Writes -/

/-- A write to CTRL (R27): a soft reset where bit 1 is 1, whatever bit 0 holds (R127); else IE takes bit 0. -/
def writeCtrl (v : Word) (s : State) : State :=
  if v.getLsbD 1 then softReset s else { s with ie := v.getLsbD 0 }

/-- A write to STATUS (R29): a 1 clears DONE, CMD_DROPPED, WR_DROPPED or BUS_ERR; the other bits are read-only. -/
def writeStatus (v : Word) (s : State) : State :=
  { s with
    done := s.done && !v.getLsbD 1, cmdDropped := s.cmdDropped && !v.getLsbD 8,
    wrDropped := s.wrDropped && !v.getLsbD 9, busErr := s.busErr && !v.getLsbD 10 }

/-- Byte b of a word, little-endian (R58). -/
def byteOf (v : Word) (b : Nat) : Byte := v.extractLsb' (8 * b) 8

/-- Store one byte of SRC, which ignores indexes from P_N on (R66). -/
def storeSrcByte (n : Nat) (m : Memory) (j : Nat) (v : Byte) : Memory :=
  if j < n then Store.set m j v else m

/-- The memory after word w of SRC is written (R66). -/
def storeSrcWord (n : Nat) (m : Memory) (w : Nat) (v : Word) : Memory :=
  [0, 1, 2, 3].foldl (fun m b => storeSrcByte n m (4 * w + b) (byteOf v b)) m

/-- A write to the SRC window (R66), dropped while RUNNING (R70). -/
def writeSrc (w : Nat) (v : Word) (s : State) : State :=
  if s.engState = .running then { s with wrDropped := true }
  else { s with src := storeSrcWord s.params.pN s.src w v }

/-- A write to a register of the control page (R57, R62): read-only registers ignore it. -/
def writeReg (r : CtrlReg) (v : Word) (s : State) : State :=
  match r with
  | .ctrl        => writeCtrl v s
  | .cmd         => submitCommand v s
  | .status      => writeStatus v s
  | .arg         => { s with arg := v }
  | .id          => s
  | .param0      => s
  | .param1      => s
  | .faultInfo   => s
  | .alphaLen    => s
  | .cbValid     => s
  | .hufStatus   => s
  | .hufRoot     => s
  | .encStatus   => s
  | .encLen _    => s
  | .statSumbits => s
  | .result      => s

/-- What a write does to the machine (R57): read-only windows and reserved addresses ignore it. -/
def State.writeWord (s : State) (a : Addr) (v : Word) : State :=
  match regionOf a with
  | .reg r    => writeReg r v s
  | .src w    => writeSrc w v s
  | .alpha _  => s
  | .node _ _ => s
  | .wq _     => s
  | .cb _ _ _ => s
  | .out _    => s
  | .reserved => s

/-- `MemWrite(a, 4, v)` (R57), with the port's answer. -/
def portWrite (a : Addr) (v : Word) (s : State) : State :=
  { s.writeWord a v with response := some ⟨false, 0⟩ }

/-! ### The host's actions -/

/-- One transaction (R54 to R57): a bus error where the port does not accept the access (R55). -/
def transact (size : Nat) (a : Addr) (accepted : State → State) (s : State) : State :=
  if accessOk size a then accepted s else busError s

/-- What a host action does (R53). While the hard-reset input is asserted no transaction takes place (R126). -/
def hostAct (act : HostAction) (s : State) : State :=
  match act with
  | .assertReset    => { s with resetHeld := true }
  | .releaseReset   => if s.resetHeld then { hardReset s with resetHeld := false } else s
  | .read size a    => if s.resetHeld then s else transact size a (portRead a) s
  | .write size a v => if s.resetHeld then s else transact size a (portWrite a v) s

end Sys2Proof.Machine
end

