-- ==== Sys2Proof/Machine/Engine.lean ====
section
/-! DEFINITION. The engine's step (60_exceptions.md R110, R111), whose first act is to decode CUR_CMD (30_encoding.md R80), and
whose turn it is (20_memory.md R53, 70_reset_and_hazards.md R137). -/

namespace Sys2Proof.Machine

/-- The completion step of the command in progress: an illegal word faults before anything else (R80, R113). -/
def runCommand (s : State) : Answer :=
  match decode s.curCmd with
  | .ok i    => exec i s
  | .error _ => .next (raiseFault .illegalCmd s.curCmd s)

/-- The engine's turn (R53): it has its one step while RUNNING, and none otherwise, nor while the hard-reset input is asserted (R126). -/
def engineTurn (s : State) : Answer :=
  if s.resetHeld then .next s
  else
    match s.engState with
    | .running => runCommand s
    | .idle    => .next s
    | .faulted => .next s

/-- One turn of either agent (R53). -/
def takeTurn (t : Turn) (s : State) : Answer :=
  match t with
  | .host a => .next (hostAct a s)
  | .engine => engineTurn s

/-- The next turn of the agenda. When the host has nothing more to do, the engine takes its step (R137). -/
def nextTurn (s : State) : Answer :=
  match s.agenda with
  | []        => engineTurn s
  | t :: rest => takeTurn t { s with agenda := rest }

/-- The command word submitted and accepted (R81), whatever the engine was doing, with the engine's turn next. -/
def placeCommand (c : Word) (s : State) : State :=
  { acceptCommand c s with resetHeld := false, agenda := .engine :: s.agenda }

end Sys2Proof.Machine
end

