-- ==== Sys2Proof/Machine/Step.lean ====
section
/-! DEFINITION. One step of the machine: one host action, or the engine's one step for a command (20_memory.md R53). -/

namespace Sys2Proof.Machine

/-- One step (R53, R60, R72). -/
def step (s : State) : Host.Outcome State Fault Refusal := nextTurn s

/-- The state with the command word of an opcode-table row accepted and the engine about to move, so that the next step runs it. The
hardware fetches nothing (R75): a command is a word written to CMD (R81), which this stands for (log 10). -/
def State.withFetchWord (s : State) (nbits w : Nat) : State :=
  placeCommand (BitVec.ofNat 32 (w % 2 ^ nbits)) s

end Sys2Proof.Machine
end

