-- ==== Sys2Proof/Machine/Script.lean ====
section
/-! DEFINITION. The host's script language (30_encoding.md R84) and its pseudo-instructions (R85), run over the machine. It is a
way for the host agent to choose its transactions, and no part of State: PCE itself has no control flow (R84, R23). Log 16. -/

namespace Sys2Proof.Machine

/-- `expr` (R84): an integer expression over bound names and constants. -/
inductive HostExpr where
  | const (n : Nat)
  | name  (x : String)
  /-- `e[hi:lo]`. -/
  | field (e : HostExpr) (hi lo : Nat)
  | eq    (a b : HostExpr)
  | ne    (a b : HostExpr)
  | lt    (a b : HostExpr)
  | and   (a b : HostExpr)
  | or    (a b : HostExpr)
  | add   (a b : HostExpr)
  deriving DecidableEq, Repr

/-- The value of a condition: 1 or 0. DESIGN CHOICE, log 16. -/
def truth (b : Bool) : Nat := if b then 1 else 0

/-- The value bound to a name. A name that is not bound is 0. DESIGN CHOICE, log 16. -/
def valueOf (names : List (String × Word)) (x : String) : Nat :=
  match names.find? fun e => e.1 == x with
  | some e => e.2.toNat
  | none   => 0

/-- The value of an expression (R84), exact on naturals (R14). Two points R84 leaves open: `&` and `|` work bit by bit, and a field
`e[hi:lo]` with hi < lo, which has no bits, is 0. DESIGN CHOICE, log 16. -/
def HostExpr.eval (names : List (String × Word)) : HostExpr → Nat
  | .const n       => n
  | .name x        => valueOf names x
  | .field e hi lo => if hi < lo then 0 else e.eval names / 2 ^ lo % 2 ^ (hi + 1 - lo)
  | .eq a b        => truth (a.eval names == b.eval names)
  | .ne a b        => truth (a.eval names != b.eval names)
  | .lt a b        => truth (decide (a.eval names < b.eval names))
  | .and a b       => a.eval names &&& b.eval names
  | .or a b        => a.eval names ||| b.eval names
  | .add a b       => a.eval names + b.eval names

/-- One line of a host script (R84). -/
inductive ScriptLine where
  | wr    (addr : Addr) (value : Word)
  | rd    (addr : Addr) (name : String)
  | wait
  | label (name : String)
  | br    (e : HostExpr) (label : String)
  | halt
  deriving DecidableEq, Repr

/-- A pseudo-instruction (R85). -/
inductive Pseudo where
  | cmd     (i : Instr)
  | run     (i : Instr)
  | ack
  | srst
  | loadSrc (bytes : List Byte)
  | setArg  (v : Word)
  deriving DecidableEq, Repr

/-- The address of word w of the SRC window (R66). -/
def srcAddr (w : Nat) : Addr := BitVec.ofNat 26 (0x1000000 + 4 * w)

/-- Word w of a list of bytes, little-endian, with missing bytes taken as 0 (R85). -/
def packedWord (bytes : List Byte) (w : Nat) : Word :=
  bytes.getD (4 * w + 3) 0 ++ bytes.getD (4 * w + 2) 0 ++ bytes.getD (4 * w + 1) 0 ++ bytes.getD (4 * w) 0

/-- The lines a pseudo-instruction stands for on a machine of `n` source bytes (R85). -/
def Pseudo.expand (n : Nat) : Pseudo → List ScriptLine
  | .cmd i         => [.wr 0x10 (encode i)]
  | .run i         => [.wr 0x10 (encode i), .wait]
  | .ack           => [.wr 0x14 0x702]
  | .srst          => [.wr 0xC 0x2]
  | .loadSrc bytes => (List.range ((n + 3) / 4)).map fun w => .wr (srcAddr w) (packedWord bytes w)
  | .setArg v      => [.wr 0x40 v]

/-- A script being run by the host over the machine: the lines, the next one's position, the bound names, and the schedule, which
says for each turn to come whether the engine moves first; past its end the engine moves whenever it can (R53, R137). -/
structure ScriptRun where
  machine : State
  lines   : List ScriptLine
  pos     : Nat
  names   : List (String × Word)
  halted  : Bool
  engineFirst : List Bool
  deriving DecidableEq, Repr

/-- The position after a label (R84). Where the label stands on several lines, which R84 does not speak of, the first of them counts.
DESIGN CHOICE, log 16. -/
def labelPos (lines : List ScriptLine) (x : String) : Option Nat :=
  match lines.findIdx? fun l => l == .label x with
  | some p => some (p + 1)
  | none   => none

/-- The data of the last answer of the port, 0 before the first. While the hard-reset input is asserted a read has no answer of its own
(log 9), and the line that made it binds this one. DESIGN CHOICE, log 16. -/
def lastData (s : State) : Word :=
  match s.response with
  | some r => r.data
  | none   => 0

/-- One line of the script, at its position (R84). WAIT is `RD 0x0000014 -> s` until s[0] = 0, so each of its reads binds s. A script
that runs past its end, or branches to a label it does not hold, halts: DESIGN CHOICE, log 16. -/
def ScriptRun.line (r : ScriptRun) : ScriptRun :=
  match r.lines[r.pos]? with
  | none => { r with halted := true }
  | some (.wr a v) => { r with machine := hostAct (.write 32 a v) r.machine, pos := r.pos + 1 }
  | some (.rd a x) =>
    { r with
      machine := hostAct (.read 32 a) r.machine, pos := r.pos + 1,
      names := (x, lastData (hostAct (.read 32 a) r.machine)) :: r.names }
  | some .wait =>
    { r with
      machine := hostAct (.read 32 0x14) r.machine,
      names := ("s", lastData (hostAct (.read 32 0x14) r.machine)) :: r.names,
      pos := if (lastData (hostAct (.read 32 0x14) r.machine)).getLsbD 0 then r.pos else r.pos + 1 }
  | some (.label _) => { r with pos := r.pos + 1 }
  | some (.br e x) =>
    if e.eval r.names = 0 then { r with pos := r.pos + 1 }
    else
      match labelPos r.lines x with
      | some p => { r with pos := p }
      | none   => { r with halted := true }
  | some .halt => { r with halted := true }

/-- The engine's turn while a script runs. -/
def ScriptRun.engine (r : ScriptRun) : Host.Outcome ScriptRun Fault Refusal :=
  match engineTurn r.machine with
  | .next s    => .next { r with machine := s }
  | .fault f   => .fault f
  | .refused f => .refused f

/-- One turn of a running script, the host's or the engine's (R53). -/
def ScriptRun.step (r : ScriptRun) : Host.Outcome ScriptRun Fault Refusal :=
  match r.engineFirst with
  | true :: rest  => { r with engineFirst := rest }.engine
  | false :: rest => .next { r with engineFirst := rest }.line
  | []            => if r.machine.engState = .running then r.engine else .next r.line

end Sys2Proof.Machine
end

