-- ==== Sys2Proof/Safety.lean ====
section
/-! DEFINITION. The terms claims use: whose turn it is, what a fault leaves, the working queue and the codebooks as lists of
character sequences, and the invariants of the machine (10_state.md R33, R34, R43 to R46, 44_huffman.md R106, R107). -/

namespace Sys2Proof.Machine

/-! ### Turns -/

/-- The engine is the agent that moves next: the agenda says so or is at its end, and the hard-reset input is not asserted (R53, R126). -/
def EngineMoves (s : State) : Prop := s.resetHeld = false ∧ (s.agenda = [] ∨ ∃ rest, s.agenda = .engine :: rest)

/-- The state once its next turn has been taken off the agenda. -/
def popTurn (s : State) : State := { s with agenda := s.agenda.tail }

/-- The next turn is a reset: the release of an asserted hard-reset input, or a write of 1 to CTRL.SRST (R126, R127). -/
def ResetMoves (s : State) : Prop :=
  ∃ rest, s.agenda = .host .releaseReset :: rest
    ∨ ∃ v : Word, v.getLsbD 1 = true ∧ s.agenda = .host (.write 32 0xC v) :: rest

/-- The state after `n` steps, or the stop that came before them. -/
def runFor : Nat → State → Answer
  | 0, s => .next s
  | n + 1, s =>
    match step s with
    | .next t    => runFor n t
    | .fault f   => .fault f
    | .refused f => .refused f

/-- What a fault leaves (R111): the state before, but for ERR, FAULT_INFO, DONE and ENG_STATE. -/
def faulted (code : FaultCode) (info : Word) (s : State) : State :=
  { s with err := code, faultInfo := info, done := true, engState := .faulted }

/-- The end of several commands, each run on the state the one before it left. -/
def execAll : List Instr → State → Answer
  | [], s => .next s
  | i :: is, s =>
    match exec i s with
    | .next t    => execAll is t
    | .fault f   => .fault f
    | .refused f => .refused f

/-! ### Views -/

/-- What the host port answers a 32-bit read with (R56). -/
def State.portAnswer (s : State) (a : Addr) : Option Response := (hostAct (.read 32 a) s).response

/-- A read of the port is defined: the hard-reset input is not asserted and no command is RUNNING (R69, R126). -/
def PortQuiet (s : State) : Prop := s.resetHeld = false ∧ s.engState ≠ .running

/-- The machine after the writes of a list of script lines (R84). -/
def runWrites : List ScriptLine → State → State
  | [], s => s
  | .wr a v :: ls, s => runWrites ls (hostAct (.write 32 a v) s)
  | _ :: ls, s => runWrites ls s

/-- The working queue in order: WQ[0..WCNT-1] (R45). -/
def State.queue (s : State) : List NodeId := (List.range s.wcnt.toNat).map s.wqAt

/-- The codeword of alphabet index i in codebook k, as characters (R46). -/
def State.codeword (s : State) (k : Book) (i : Nat) : Chars := charsOf (s.cbAt k i)

/-- No codeword of an index below n begins another one (R19). -/
def PrefixFree (code : Nat → Chars) (n : Nat) : Prop :=
  ∀ i < n, ∀ j < n, code i <+: code j → i = j

/-- The path of index i in the bisection of [l, r] at the floor of the midpoint: 0 for the left half, 1 for the right (R96). `fuel`
bounds the depth. -/
def bisect : Nat → Nat → Nat → Nat → Chars
  | 0, _, _, _ => []
  | fuel + 1, l, r, i =>
    if r ≤ l then []
    else if i ≤ (l + r) / 2 then false :: bisect fuel l ((l + r) / 2) i
    else true :: bisect fuel ((l + r) / 2 + 1) r i

/-- The byte at source position j matches no symbol of the alphabet (R108). -/
def State.Absent (s : State) (j : Nat) : Prop := ∀ i < s.alphaLen.toNat, (s.alphaAt i).sym ≠ s.srcByte j

/-- `f` gives each source position the alphabet index the encoder looks up: the first with that symbol (R108). -/
def State.Looks (s : State) (f : Nat → Nat) : Prop :=
  ∀ j < s.params.pN, f j < s.alphaLen.toNat ∧ (s.alphaAt (f j)).sym = s.srcByte j ∧
    ∀ i < f j, (s.alphaAt i).sym ≠ s.srcByte j

/-- The characters of the source sequence under codebook k, position by position, by the indices `f` (R108). -/
def State.stream (s : State) (k : Book) (f : Nat → Nat) : Chars :=
  ((List.range s.params.pN).map fun j => s.codeword k (f j)).flatten

/-! ### Invariants -/

/-- The registers of the engine and of the latched fault (R29, R30, R49): DONE is clear while a command runs, CUR_CMD is LAST_CMD then,
and ERR and FAULT_INFO hold something only in FAULTED. -/
structure EngineInv (s : State) : Prop where
  running_not_done : s.engState = .running → s.done = false
  running_cmd      : s.engState = .running → s.curCmd = s.lastCmd
  err_iff_faulted  : s.err ≠ .none ↔ s.engState = .faulted
  info_zero        : s.engState ≠ .faulted → s.faultInfo = 0

/-- The registers of the Huffman builder (R33, R34). -/
structure HufInv (s : State) : Prop where
  len_le        : s.alphaLen.toNat ≤ 256
  empty_iff     : s.hufState = .empty ↔ s.wcnt = 0
  empty_nodes   : s.hufState = .empty → s.nodeCnt = 0
  queue_le      : s.wcnt.toNat ≤ s.alphaLen.toNat
  node_count    : s.hufState ≠ .empty → s.nodeCnt.toNat + s.wcnt.toNat = 2 * s.alphaLen.toNat
  extracted_one : s.hufState = .extracted → s.wcnt = 1
  root_zero     : s.hufState ≠ .extracted → s.hufRoot = 0

/-- Every store is in canonical form and lists no entry its array does not have (R42 to R48). -/
structure StoreInv (s : State) : Prop where
  src   : Memory.wf s.src = true ∧ Store.below s.src s.params.pN = true
  alpha : Store.wf s.alpha = true ∧ Store.below s.alpha 256 = true
  node  : Store.wf s.node = true ∧ Store.below s.node 511 = true
  wq    : Store.wf s.wq = true ∧ Store.below s.wq 256 = true
  cb    : ∀ k : Book, Store.wf (s.cb.get k) = true ∧ Store.below (s.cb.get k) 256 = true
  out   : Store.wf s.out = true ∧ Store.below s.out s.params.pOutBits = true
  hist  : Store.wf s.hist = true ∧ Store.below s.hist 256 = true

/-- The valid entries of the alphabet (R43). -/
structure AlphaInv (s : State) : Prop where
  ascending : ∀ i, i + 1 < s.alphaLen.toNat → (s.alphaAt i).sym < (s.alphaAt (i + 1)).sym
  positive  : ∀ i < s.alphaLen.toNat, 1 ≤ (s.alphaAt i).freq.toNat
  total     : s.alphaLen ≠ 0 →
    ((List.range s.alphaLen.toNat).map fun i => (s.alphaAt i).freq.toNat).sum = s.params.pN

/-- Node m is a child of node n. -/
def State.IsChild (s : State) (m n : Nat) : Prop :=
  match s.nodeAt n with
  | .leaf _ _       => False
  | .internal _ l r => l.toNat = m ∨ r.toNat = m

/-- The arena and the queue, once HUF_INIT has run (R44, R45, R106, R107): leaves first, in index order; each internal node owns two
distinct older nodes and weighs their sum; the queue holds, once each, exactly the valid nodes that have no parent; and no node has
two parents. -/
structure ForestInv (s : State) : Prop where
  leaves    : s.hufState ≠ .empty → ∀ n < s.alphaLen.toNat, s.nodeAt n = .leaf (s.alphaAt n).freq (BitVec.ofNat 8 n)
  internals : s.hufState ≠ .empty → ∀ n < s.nodeCnt.toNat, s.alphaLen.toNat ≤ n →
    ∃ l r : NodeId, l.toNat < n ∧ r.toNat < n ∧ l ≠ r ∧
      s.nodeAt n = .internal (nodeWeight (s.nodeAt l.toNat) + nodeWeight (s.nodeAt r.toNat)) l r
  queued    : s.hufState ≠ .empty → ∀ p < s.wcnt.toNat, (s.wqAt p).toNat < s.nodeCnt.toNat
  once      : s.hufState ≠ .empty → ∀ p < s.wcnt.toNat, ∀ q < s.wcnt.toNat, s.wqAt p = s.wqAt q → p = q
  roots     : s.hufState ≠ .empty → ∀ m < s.nodeCnt.toNat,
    ((∃ p < s.wcnt.toNat, (s.wqAt p).toNat = m) ↔ ∀ n < s.nodeCnt.toNat, ¬ s.IsChild m n)
  oneParent : s.hufState ≠ .empty → ∀ m < s.nodeCnt.toNat, ∀ n < s.nodeCnt.toNat, ∀ n' < s.nodeCnt.toNat,
    s.IsChild m n → s.IsChild m n' → n = n'

/-- The entries of a valid codebook (R46): nothing above the LEN lowest bits of BITS. -/
def BookInv (s : State) : Prop :=
  ∀ k : Book, s.valid.get k = true → ∀ i < s.alphaLen.toNat, ∀ j, (s.cbAt k i).len.toNat ≤ j → (s.cbAt k i).bits.getLsbD j = false

/-- Node m is reached from node n by a path whose characters are w: 0 to the left, 1 to the right (R103). -/
inductive State.Path (s : State) : Nat → Chars → Nat → Prop where
  | here (n : Nat) : State.Path s n [] n
  | left {n m : Nat} {wt : Freq} {l r : NodeId} {w : Chars} :
      s.nodeAt n = .internal wt l r → State.Path s l.toNat w m → State.Path s n (false :: w) m
  | right {n m : Nat} {wt : Freq} {l r : NodeId} {w : Chars} :
      s.nodeAt n = .internal wt l r → State.Path s r.toNat w m → State.Path s n (true :: w) m

end Sys2Proof.Machine
end

