-- ==== Sys2Proof/Certificates/Slice0/Obligations.lean ====
section
/-! DEFINITION. What is claimed of the machine, for the provers. Every statement is about all states it names, reached by a run or not;
the invariants it needs are premises. -/

open Sys2Proof Sys2Proof.Machine

/-! ### Encoding -/

/-- R79: the twelve words of the opcode map, written out, decode to their commands. -/
def Obligations.DecodesTheTwelveWords : Prop :=
  decode 0x00000001#32 = .ok .buildAlpha ∧ decode 0x00000002#32 = .ok .buildFixed ∧
  decode 0x00000003#32 = .ok .buildShannon ∧ decode 0x00000004#32 = .ok .buildHuffman ∧
  decode 0x00000005#32 = .ok .encodeFixed ∧ decode 0x00000105#32 = .ok .encodeShannon ∧
  decode 0x00000205#32 = .ok .encodeHuffman ∧ decode 0x00000006#32 = .ok .stats ∧
  decode 0x00000007#32 = .ok .mbr ∧ decode 0x00000010#32 = .ok .hufInit ∧
  decode 0x00000011#32 = .ok .hufStep ∧ decode 0x00000012#32 = .ok .hufExtract

/-- R79: the table of legal command words: a word decodes to a command exactly when it is that command's one word, as the encoder writes
it, and no other word decodes; so no two commands share a word and no bit of a word is ignored. -/
def Obligations.DecodesExactlyTheEncodedWords : Prop :=
  ∀ (c : Word) (i : Instr),
    (decode c = .ok i ↔ c = encode i) ∧
    (decode c = .ok i ↔ (c, i) ∈ [((0x00000001 : Word), Instr.buildAlpha), (0x00000002, .buildFixed), (0x00000003, .buildShannon),
      (0x00000004, .buildHuffman), (0x00000005, .encodeFixed), (0x00000105, .encodeShannon), (0x00000205, .encodeHuffman),
      (0x00000006, .stats), (0x00000007, .mbr), (0x00000010, .hufInit), (0x00000011, .hufStep), (0x00000012, .hufExtract)])

/-- R82, R80, R111: each kind of illegal word, when the engine's step for it comes, faults with ILLEGAL_CMD and the word, and does nothing
else. Whose turn it is, and the turn taken off the agenda, are the model's choice (log 3). -/
def Obligations.IllegalWordsFault : Prop :=
  ∀ s : State, EngineMoves s → s.engState = .running →
    (s.curCmd.extractLsb' 0 8 ∉ [(0x01 : BitVec 8), 0x02, 0x03, 0x04, 0x05, 0x06, 0x07, 0x10, 0x11, 0x12]
      ∨ s.curCmd.extractLsb' 10 22 ≠ 0
      ∨ (s.curCmd.extractLsb' 0 8 ≠ 0x05 ∧ s.curCmd.extractLsb' 8 2 ≠ 0)
      ∨ (s.curCmd.extractLsb' 0 8 = 0x05 ∧ s.curCmd.extractLsb' 8 2 = 3)) →
    step s = .next (faulted .illegalCmd s.curCmd (popTurn s))

/-! ### Turns and the end of a command -/

/-- R53, R80, R110: when the engine moves while RUNNING and CUR_CMD decodes to i, the step is exec of i, with the turn taken off the
agenda. -/
def Obligations.StepRunsTheDecodedCommand : Prop :=
  ∀ (s : State) (i : Instr), EngineMoves s → s.engState = .running → decode s.curCmd = .ok i →
    step s = exec i (popTurn s)

/-- R53, R60, R125: when the host moves, the step is its action, whole; and in IDLE and FAULTED the engine has no step, so that its turn
changes nothing but the agenda. -/
def Obligations.StepTakesTheOtherTurns : Prop :=
  ∀ s : State,
    (∀ (a : HostAction) (rest : List Turn), s.agenda = .host a :: rest → step s = .next (hostAct a (popTurn s))) ∧
    (EngineMoves s → s.engState ≠ .running → step s = .next (popTurn s))

/-- R81, R115: a write to CMD in IDLE accepts the word, whatever its value; in RUNNING or FAULTED it sets CMD_DROPPED and nothing else
(beside the port's own answer). -/
def Obligations.CommandAcceptedOnlyWhenIdle : Prop :=
  ∀ (s : State) (c : Word), s.resetHeld = false →
    (s.engState = .idle →
      hostAct (.write 32 0x0000010 c) s =
        { s with lastCmd := c, curCmd := c, curArg := s.arg, done := false, engState := .running,
                 response := some ⟨false, 0⟩ }) ∧
    (s.engState ≠ .idle →
      hostAct (.write 32 0x0000010 c) s = { s with cmdDropped := true, response := some ⟨false, 0⟩ })

/-- R110, R111: every command ends, in one step, with DONE set: in IDLE, with the latched fault fields as they were, or in FAULTED. -/
def Obligations.EveryCommandEndsWithDone : Prop :=
  ∀ (i : Instr) (s : State), ∃ t, exec i s = .next t ∧ t.done = true ∧
    ((t.engState = .idle ∧ t.err = s.err ∧ t.faultInfo = s.faultInfo) ∨ (t.engState = .faulted ∧ t.err ≠ .none))

/-- R111: a command that ends in FAULTED has changed ERR, FAULT_INFO, DONE and ENG_STATE, and nothing else. -/
def Obligations.FaultsDiscardEveryAssignment : Prop :=
  ∀ (i : Instr) (s t : State), exec i s = .next t → t.engState = .faulted → t = faulted t.err t.faultInfo s

/-- R112: a fault a command's rule raises is one of the table's, with the table's condition and information. -/
def Obligations.FaultsAreThoseOfTheTable : Prop :=
  ∀ (i : Instr) (s t : State), exec i s = .next t → t.engState = .faulted →
    (t.err = .emptyAlphabet ∧ i ∈ [Instr.stats, .buildShannon, .hufInit, .buildHuffman] ∧ s.alphaLen = 0 ∧
      t.faultInfo = s.curCmd) ∨
    (∃ k, t.err = .noCodebook ∧ i = encodeCommand k ∧ s.valid.get k = false ∧ t.faultInfo = s.curCmd) ∨
    (t.err = .hufSeq ∧ t.faultInfo = s.curCmd ∧
      ((i = .hufStep ∧ s.hufState = .empty) ∨ (i = .hufExtract ∧ (s.hufState = .empty ∨ s.wcnt ≠ 1)))) ∨
    (∃ k j, t.err = .symbolAbsent ∧ i = encodeCommand k ∧ s.valid.get k = true ∧ j < s.params.pN ∧ s.Absent j ∧
      t.faultInfo = s.srcByte j ++ BitVec.ofNat 24 j)

/-- R112, R113: the precondition checks: each command faults where the table says it does, before it looks at anything else. -/
def Obligations.PreconditionsFault : Prop :=
  ∀ s : State,
    (∀ i ∈ [Instr.stats, .buildShannon, .hufInit, .buildHuffman], s.alphaLen = 0 →
      exec i s = .next (faulted .emptyAlphabet s.curCmd s)) ∧
    (∀ k, s.valid.get k = false → exec (encodeCommand k) s = .next (faulted .noCodebook s.curCmd s)) ∧
    (s.hufState = .empty → exec .hufStep s = .next (faulted .hufSeq s.curCmd s)) ∧
    (s.hufState = .empty ∨ s.wcnt ≠ 1 → exec .hufExtract s = .next (faulted .hufSeq s.curCmd s))

/-- R108, R113: ENCODE faults with SYMBOL_ABSENT at the LOWEST source position whose byte matches no symbol, with the byte and the
position, and discards the stream. -/
def Obligations.AbsentSymbolFaultsAtTheLowestPosition : Prop :=
  ∀ (s : State) (k : Book) (j : Nat), s.valid.get k = true → j < s.params.pN → s.Absent j → (∀ j' < j, ¬ s.Absent j') →
    exec (encodeCommand k) s = .next (faulted .symbolAbsent (s.srcByte j ++ BitVec.ofNat 24 j) s)

/-- R114: a step from FAULTED that is not a reset stays in FAULTED, keeps the latched fault and the whole pre-command state, and
accepts only host writes to SRC, ARG, CTRL and STATUS. -/
def Obligations.FaultedIsStuckUntilReset : Prop :=
  ∀ s t : State, s.engState = .faulted → ¬ ResetMoves s → step s = .next t →
    t = { s with src := t.src, arg := t.arg, ie := t.ie, done := t.done, cmdDropped := t.cmdDropped, wrDropped := t.wrDropped,
                 busErr := t.busErr, response := t.response, resetHeld := t.resetHeld, agenda := s.agenda.tail }

/-- 60_exceptions.md R110, R111, log 14: the machine never stops: every step answers a next state. -/
def Obligations.NoStepStops : Prop := ∀ s : State, ∃ t, step s = .next t

/-- R9, R10, R11, R21, R25, R26: no step changes the configuration, so ID, PARAM0 and PARAM1 read the same for ever (log 1). -/
def Obligations.StepKeepsTheConfiguration : Prop :=
  ∀ s t : State, step s = .next t →
    t.params = s.params ∧ t.readWord 0x0 = 0x48460001#32 ∧ t.readWord 0x4 = s.readWord 0x4 ∧ t.readWord 0x8 = s.readWord 0x8

/-- R42, R38, R27, R28, R29, R49: no command writes SRC, ARG, CTRL, LAST_CMD, CUR_CMD, CUR_ARG or the port's flags. -/
def Obligations.CommandsLeaveTheHostsStateAlone : Prop :=
  ∀ (i : Instr) (s t : State), exec i s = .next t →
    t.src = s.src ∧ (∀ j, t.srcByte j = s.srcByte j) ∧ t.arg = s.arg ∧ t.ie = s.ie ∧ t.lastCmd = s.lastCmd ∧ t.curCmd = s.curCmd ∧
    t.curArg = s.curArg ∧ t.cmdDropped = s.cmdDropped ∧ t.wrDropped = s.wrDropped ∧ t.busErr = s.busErr ∧
    t.agenda = s.agenda ∧ t.response = s.response ∧ t.draws = s.draws ∧ t.resetHeld = s.resetHeld ∧
    t.srcEpoch = s.srcEpoch ∧ t.tabEpoch = s.tabEpoch

/-- R31 to R37, R39, R43 to R48, R50, R99: who writes what, over all commands. -/
def Obligations.EachResultHasItsOwnWriters : Prop :=
  ∀ (i : Instr) (s t : State), exec i s = .next t →
    (t.result ≠ s.result → i = .mbr) ∧
    (t.statSumbits ≠ s.statSumbits → i = .stats) ∧
    (t.alphaLen ≠ s.alphaLen ∨ t.alpha ≠ s.alpha ∨ t.hist ≠ s.hist → i = .buildAlpha) ∧
    (t.cb.fixed ≠ s.cb.fixed → i = .buildFixed) ∧
    (t.cb.shannon ≠ s.cb.shannon → i = .buildShannon) ∧
    (t.cb.huffman ≠ s.cb.huffman → i = .buildHuffman ∨ i = .hufExtract) ∧
    (t.valid.fixed ≠ s.valid.fixed → i = .buildAlpha ∨ i = .buildFixed) ∧
    (t.valid.shannon ≠ s.valid.shannon → i = .buildAlpha ∨ i = .buildShannon) ∧
    (t.valid.huffman ≠ s.valid.huffman → i = .buildAlpha ∨ i = .buildHuffman ∨ i = .hufExtract) ∧
    (t.hufState ≠ s.hufState → i = .buildAlpha ∨ i = .hufInit ∨ i = .hufExtract ∨ i = .buildHuffman) ∧
    (t.wcnt ≠ s.wcnt ∨ t.nodeCnt ≠ s.nodeCnt → i = .buildAlpha ∨ i = .hufInit ∨ i = .hufStep ∨ i = .buildHuffman) ∧
    (t.hufRoot ≠ s.hufRoot → i = .buildAlpha ∨ i = .hufInit ∨ i = .hufExtract ∨ i = .buildHuffman) ∧
    (t.out ≠ s.out ∨ t.encLen ≠ s.encLen ∨ t.lastCb ≠ s.lastCb → ∃ k, i = encodeCommand k) ∧
    (t.trunc ≠ s.trunc → i = .buildAlpha ∨ ∃ k, i = encodeCommand k) ∧
    (∀ k, (t.encLen.get k ≠ s.encLen.get k → i = encodeCommand k) ∧
      (t.encValid.get k ≠ s.encValid.get k → i = .buildAlpha ∨ i = encodeCommand k)) ∧
    (t.node ≠ s.node ∨ t.wq ≠ s.wq → i = .hufInit ∨ i = .hufStep ∨ i = .buildHuffman) ∧
    (t.min1 ≠ s.min1 ∨ t.min2 ≠ s.min2 → i = .hufStep ∨ i = .buildHuffman)

/-! ### The alphabet -/

/-- R86: BUILD_ALPHA completes from every state, leaves HIST holding the tally, and writes only what the rule lists. -/
def Obligations.BuildAlphaCompletes : Prop :=
  ∀ s : State, ∃ t, exec .buildAlpha s = .next t ∧
    t = { s with hist := t.hist, alpha := t.alpha, alphaLen := t.alphaLen, valid := ⟨false, false, false⟩,
                 hufState := .empty, wcnt := 0, nodeCnt := 0, hufRoot := 0, encValid := ⟨false, false, false⟩, trunc := false,
                 done := true, engState := .idle } ∧
    (∀ v < 256, Store.get? t.hist v = some (BitVec.ofNat 24 (s.srcBytes.count (BitVec.ofNat 8 v))) ∧
      t.histAt v = BitVec.ofNat 24 (s.srcBytes.count (BitVec.ofNat 8 v))) ∧
    (∀ i, t.alphaLen.toNat ≤ i → Store.get? t.alpha i = Store.get? s.alpha i)

/-- R87: the alphabet BUILD_ALPHA leaves is the census of SRC: symbols ascending, each the symbol of a source byte and each source byte
with a symbol, frequencies the counts, adding up to P_N. -/
def Obligations.AlphabetIsTheCensusOfTheSource : Prop :=
  ∀ s t : State, s.params.wf = true → exec .buildAlpha s = .next t →
    1 ≤ t.alphaLen.toNat ∧ t.alphaLen.toNat ≤ 256 ∧ AlphaInv t ∧
    (∀ b : Byte, b ∈ s.srcBytes ↔ ∃ i < t.alphaLen.toNat, (t.alphaAt i).sym = b) ∧
    (∀ i < t.alphaLen.toNat, (t.alphaAt i).freq.toNat = s.srcBytes.count (t.alphaAt i).sym)

/-- R88: BUILD_ALPHA is a function of SRC: two states with the same source bytes get the same alphabet, whatever else differs (the
second run on an unchanged SRC is the case u = t). -/
def Obligations.BuildAlphaDependsOnTheSourceAlone : Prop :=
  ∀ s t u v : State, s.srcBytes = u.srcBytes → exec .buildAlpha s = .next t → exec .buildAlpha u = .next v →
    t.alphaLen = v.alphaLen ∧ (∀ i < t.alphaLen.toNat, t.alphaAt i = v.alphaAt i)

/-! ### Statistics -/

/-- R89, R90: MBR completes from every state and RESULT is the 1-based position of the highest set bit of the operand, 1 for 0 and at
most 8; under IGNORE only the low byte of the operand is looked at. It is the bit scan the other commands use. -/
def Obligations.MbrGivesTheHighestBitPosition : Prop :=
  ∀ s : State, ∃ r : Nat,
    exec .mbr s = .next { s with result := BitVec.ofNat 32 r, done := true, engState := .idle } ∧
    mbrOf s.params.mbrMode s.curArg = r ∧
    (∀ u : Nat, u = (if s.params.mbrMode = .cap then s.curArg.toNat else s.curArg.toNat % 256) →
      (u = 0 → r = 1) ∧ (u ≠ 0 → u < 128 → 2 ^ (r - 1) ≤ u ∧ u < 2 ^ r ∧ 1 ≤ r) ∧ (128 ≤ u → r = 8))

/-- R91: STATS faults on L = 0; with L >= 1 it completes with the sum of the bit scan over the indices; for L <= 256 the reading
P_MBR_MODE makes no difference, and the sum is at most 1794, its value for L = 256. -/
def Obligations.StatsSumsTheBitScan : Prop :=
  ∀ s : State,
    (s.alphaLen = 0 → exec .stats s = .next (faulted .emptyAlphabet s.curCmd s)) ∧
    (s.alphaLen ≠ 0 →
      exec .stats s =
        .next { s with
          statSumbits := BitVec.ofNat 32 (∑ i ∈ Finset.range s.alphaLen.toNat, mbrOf s.params.mbrMode (BitVec.ofNat 32 i)),
          done := true, engState := .idle } ∧
      (s.alphaLen.toNat ≤ 256 →
        (∑ i ∈ Finset.range s.alphaLen.toNat, mbrOf s.params.mbrMode (BitVec.ofNat 32 i)) =
          ∑ i ∈ Finset.range s.alphaLen.toNat, max 1 (bitlen i) ∧
        (∑ i ∈ Finset.range s.alphaLen.toNat, max 1 (bitlen i)) ≤ 1794 ∧
        (s.alphaLen = 256 → (∑ i ∈ Finset.range s.alphaLen.toNat, max 1 (bitlen i)) = 1794)))

/-! ### The fixed-length code -/

/-- R94: BUILD_FIXED completes from every state, L = 0 among them, writes entry i < L as the numeral of i padded to mbr(L) characters
and never cut, in the layout of R46, and changes nothing else. -/
def Obligations.BuildFixedCompletes : Prop :=
  ∀ s : State, ∃ t, exec .buildFixed s = .next t ∧
    t = { s with cb := { s.cb with fixed := t.cb.fixed }, valid := { s.valid with fixed := true },
                 done := true, engState := .idle } ∧
    (∀ i < s.alphaLen.toNat, ∃ w : Chars,
      w = List.replicate (mbrOf s.params.mbrMode (s.alphaLen.setWidth 32) - (bin i).length) false ++ bin i ∧
      w.length = max (mbrOf s.params.mbrMode (s.alphaLen.setWidth 32)) (max 1 (bitlen i)) ∧
      (∀ c < w.length, w[c]? = some (i.testBit (w.length - 1 - c))) ∧
      Store.get? t.cb.fixed i = some (codewordOf w) ∧ t.codeword .fixed i = w) ∧
    (∀ i, s.alphaLen.toNat ≤ i → Store.get? t.cb.fixed i = Store.get? s.cb.fixed i)

/-- R95: under CAP with L <= 256, and under IGNORE with L <= 255, every fixed codeword has length mbr(L), character c of entry i is the
digit of weight 2^(n-1-c) of i, and the codebook is prefix-free. -/
def Obligations.FixedCodebookIsUniformAndPrefixFree : Prop :=
  ∀ s t : State, s.alphaLen ≠ 0 → (s.alphaLen.toNat ≤ 255 ∨ (s.params.mbrMode = .cap ∧ s.alphaLen.toNat = 256)) →
    exec .buildFixed s = .next t →
    ∃ n, n = mbrOf s.params.mbrMode (s.alphaLen.setWidth 32) ∧
      (∀ i < s.alphaLen.toNat, (t.codeword .fixed i).length = n ∧
        ∀ c < n, (t.codeword .fixed i)[c]? = some (i.testBit (n - 1 - c))) ∧
      PrefixFree (t.codeword .fixed) s.alphaLen.toNat

/-! ### The Shannon-Fano code -/

/-- R96: BUILD_SHANNON faults on L = 0; with L >= 1 it completes, gives every index the path the bisection of 0..L-1 at the floor of the
midpoint leads it by, in the layout of R46, and writes only CB[1][0..L-1] and VALID[1]. -/
def Obligations.BuildShannonCompletes : Prop :=
  ∀ s : State,
    (s.alphaLen = 0 → exec .buildShannon s = .next (faulted .emptyAlphabet s.curCmd s)) ∧
    (s.alphaLen ≠ 0 → ∃ t, exec .buildShannon s = .next t ∧
      t = { s with cb := { s.cb with shannon := t.cb.shannon }, valid := { s.valid with shannon := true },
                   done := true, engState := .idle } ∧
      (∀ i < s.alphaLen.toNat, ∃ w : Chars, w = bisect s.alphaLen.toNat 0 (s.alphaLen.toNat - 1) i ∧
        Store.get? t.cb.shannon i = some (codewordOf w) ∧ t.codeword .shannon i = w) ∧
      (∀ i, s.alphaLen.toNat ≤ i → Store.get? t.cb.shannon i = Store.get? s.cb.shannon i))

/-- R97: for 1 <= L <= 256 the Shannon codebook is prefix-free, its codeword lengths are floor(log2 L) or ceil(log2 L), and for
L = 2^e entry i is the e-digit numeral of i, most significant digit first. -/
def Obligations.ShannonCodebookIsPrefixFreeAndBalanced : Prop :=
  ∀ s t : State, s.alphaLen ≠ 0 → s.alphaLen.toNat ≤ 256 → exec .buildShannon s = .next t →
    PrefixFree (t.codeword .shannon) s.alphaLen.toNat ∧
    (∀ i < s.alphaLen.toNat, (t.codeword .shannon i).length = Nat.log 2 s.alphaLen.toNat ∨
      (t.codeword .shannon i).length = Nat.clog 2 s.alphaLen.toNat) ∧
    (∀ e, s.alphaLen.toNat = 2 ^ e → ∀ i < s.alphaLen.toNat,
      t.codeword .shannon i = (List.range e).reverse.map i.testBit)

/-- R98: the Shannon codebook depends on L alone: two states with the same L, and whatever symbols and frequencies, get the same
codewords. -/
def Obligations.ShannonCodebookDependsOnLengthAlone : Prop :=
  ∀ s t u v : State, s.alphaLen = u.alphaLen → exec .buildShannon s = .next t → exec .buildShannon u = .next v →
    s.alphaLen ≠ 0 → ∀ i < s.alphaLen.toNat, t.codeword .shannon i = v.codeword .shannon i

/-! ### The Huffman code -/

/-- R100: HUF_INIT faults on L = 0; with L >= 1 it completes: one leaf per alphabet entry, the queue in index order, ACTIVE, HUF_ROOT 0,
and nothing else changed. -/
def Obligations.HufInitCompletes : Prop :=
  ∀ s : State,
    (s.alphaLen = 0 → exec .hufInit s = .next (faulted .emptyAlphabet s.curCmd s)) ∧
    (s.alphaLen ≠ 0 → ∃ t, exec .hufInit s = .next t ∧
      t = { s with node := t.node, wq := t.wq, wcnt := s.alphaLen, nodeCnt := s.alphaLen, hufState := .active, hufRoot := 0,
                   done := true, engState := .idle } ∧
      (∀ i < s.alphaLen.toNat, Store.get? t.node i = some (.leaf (s.alphaAt i).freq (BitVec.ofNat 8 i)) ∧
        t.nodeAt i = .leaf (s.alphaAt i).freq (BitVec.ofNat 8 i) ∧
        Store.get? t.wq i = some (BitVec.ofNat 9 i) ∧ t.wqAt i = BitVec.ofNat 9 i) ∧
      (∀ i, s.alphaLen.toNat ≤ i → Store.get? t.node i = Store.get? s.node i ∧ Store.get? t.wq i = Store.get? s.wq i))

/-- R101: the selection scan, element by element: it starts from positions 0 and 1 whatever their weights; each later element that is
strictly below the second minimum pushes it into the first slot, else one strictly below the first minimum replaces only that. -/
def Obligations.ScanIsTheLiteralOne : Prop :=
  ∀ w : Nat → Freq, selectScan w 2 = (0, 1) ∧
    ∀ n a b : Nat, 2 ≤ n → selectScan w n = (a, b) →
      ((w n).toNat < (w b).toNat → selectScan w (n + 1) = (b, n)) ∧
      (¬ (w n).toNat < (w b).toNat → (w n).toNat < (w a).toNat → selectScan w (n + 1) = (n, b)) ∧
      (¬ (w n).toNat < (w b).toNat → ¬ (w n).toNat < (w a).toNat → selectScan w (n + 1) = (a, b))

/-- R105: the literal scan. It selects two distinct positions; if W(1) <= W(0) they hold two smallest weights; if W(0) < W(1) and some
later weight is below W(1), position 0 is lost and they hold two smallest of the others; else they are (0, 1). -/
def Obligations.ScanSelectsAsCharacterised : Prop :=
  ∀ (w : Nat → Freq) (n a b : Nat), 2 ≤ n → selectScan w n = (a, b) →
    a < n ∧ b < n ∧ a ≠ b ∧
    (w 1 ≤ w 0 → w b ≤ w a ∧ ∀ k < n, k ≠ a → k ≠ b → w a ≤ w k) ∧
    (w 0 < w 1 → (∃ k, 2 ≤ k ∧ k < n ∧ w k < w 1) →
      a ≠ 0 ∧ b ≠ 0 ∧ ∀ k < n, k ≠ 0 → k ≠ a → k ≠ b → w a ≤ w k ∧ w b ≤ w k) ∧
    (w 0 < w 1 → (∀ k, 2 ≤ k → k < n → w 1 ≤ w k) → a = 0 ∧ b = 1)

/-- R101, R102: W(p) is the weight of the node queued at p. HUF_STEP faults in EMPTY; with one root it completes and changes nothing; with
two or more it completes with one merge: the two selected positions leave the queue, the others keep their order, and a new node with the
first minimum on the left and the second on the right goes to the tail; nothing else changes. MIN1 and MIN2 keep the positions (log 8). -/
def Obligations.HufStepMergesTheSelectedRoots : Prop :=
  ∀ s : State,
    (s.hufState = .empty → exec .hufStep s = .next (faulted .hufSeq s.curCmd s)) ∧
    (s.hufState ≠ .empty → s.wcnt = 1 → exec .hufStep s = .next { s with done := true, engState := .idle }) ∧
    (∀ (p : Nat) (w : Freq), (∃ i, s.nodeAt (s.wqAt p).toNat = .leaf w i) ∨ (∃ l r, s.nodeAt (s.wqAt p).toNat = .internal w l r) →
      s.weightAt p = w) ∧
    (∀ a b : Nat, s.hufState ≠ .empty → 2 ≤ s.wcnt.toNat → selectScan s.weightAt s.wcnt.toNat = (a, b) →
      ∃ t, exec .hufStep s = .next t ∧
        t = { s with wq := t.wq, wcnt := s.wcnt - 1, node := t.node, nodeCnt := s.nodeCnt + 1,
                     min1 := BitVec.ofNat 8 a, min2 := BitVec.ofNat 8 b, done := true, engState := .idle } ∧
        t.queue = ((s.queue.eraseIdx (max a b)).eraseIdx (min a b)) ++ [s.nodeCnt] ∧
        (∀ p, s.wcnt.toNat ≤ p → Store.get? t.wq p = Store.get? s.wq p) ∧
        Store.get? t.node s.nodeCnt.toNat = some (.internal (s.weightAt a + s.weightAt b) (s.wqAt a) (s.wqAt b)) ∧
        t.nodeAt s.nodeCnt.toNat = .internal (s.weightAt a + s.weightAt b) (s.wqAt a) (s.wqAt b) ∧
        (∀ n, n ≠ s.nodeCnt.toNat → Store.get? t.node n = Store.get? s.node n))

/-- R103, R107: HUF_EXTRACT faults unless one root is left; then it completes, writing only CB[2], VALID[2], HUF_ROOT and HUF_STATE, and
where the arena and the queue meet their invariant it gives every alphabet index the characters of the path from the root to its leaf,
0 to the left and 1 to the right, of at most L - 1 characters. -/
def Obligations.HufExtractRecordsThePathOfEveryLeaf : Prop :=
  ∀ s : State,
    (s.hufState = .empty ∨ s.wcnt ≠ 1 → exec .hufExtract s = .next (faulted .hufSeq s.curCmd s)) ∧
    (s.hufState ≠ .empty → s.wcnt = 1 → ∃ t, exec .hufExtract s = .next t ∧
      t = { s with cb := { s.cb with huffman := t.cb.huffman }, valid := { s.valid with huffman := true },
                   hufRoot := s.wqAt 0, hufState := .extracted, done := true, engState := .idle } ∧
      (HufInv s → ForestInv s →
        (∀ i < s.alphaLen.toNat, ∃ w : Chars, s.Path (s.wqAt 0).toNat w i ∧ w.length ≤ s.alphaLen.toNat - 1 ∧
          Store.get? t.cb.huffman i = some (codewordOf w) ∧ t.codeword .huffman i = w) ∧
        (∀ i, s.alphaLen.toNat ≤ i → Store.get? t.cb.huffman i = Store.get? s.cb.huffman i)))

/-- R104: BUILD_HUFFMAN leaves the very state that HUF_INIT, L - 1 HUF_STEPs and one HUF_EXTRACT leave. -/
def Obligations.BuildHuffmanIsTheStepCommandsInOrder : Prop :=
  ∀ s : State, s.alphaLen ≠ 0 →
    execAll (.hufInit :: (List.replicate (s.alphaLen.toNat - 1) .hufStep ++ [.hufExtract])) s = exec .buildHuffman s

/-- R104, R106: BUILD_HUFFMAN with 1 <= L <= 256 completes in EXTRACTED with one root, node 2L - 2, of 2L - 1 nodes, and writes only what
its three parts write. -/
def Obligations.BuildHuffmanCompletesWithOneRoot : Prop :=
  ∀ s : State, s.alphaLen ≠ 0 → s.alphaLen.toNat ≤ 256 → ∃ t, exec .buildHuffman s = .next t ∧
    t = { s with node := t.node, wq := t.wq, cb := { s.cb with huffman := t.cb.huffman }, min1 := t.min1, min2 := t.min2,
                 valid := { s.valid with huffman := true }, hufState := .extracted, wcnt := 1,
                 nodeCnt := BitVec.ofNat 9 (2 * s.alphaLen.toNat - 1), hufRoot := BitVec.ofNat 9 (2 * s.alphaLen.toNat - 2),
                 done := true, engState := .idle } ∧
    t.queue = [BitVec.ofNat 9 (2 * s.alphaLen.toNat - 2)] ∧ ForestInv t

/-- R107: the Huffman codebook is prefix-free, and its codewords have at most L - 1 characters. -/
def Obligations.HuffmanCodebookIsPrefixFree : Prop :=
  ∀ s t : State, s.alphaLen ≠ 0 → s.alphaLen.toNat ≤ 256 → exec .buildHuffman s = .next t →
    PrefixFree (t.codeword .huffman) s.alphaLen.toNat ∧
    ∀ i < s.alphaLen.toNat, (t.codeword .huffman i).length ≤ s.alphaLen.toNat - 1

/-- R107: the root of the Huffman tree weighs P_N, where the alphabet is that of the source. -/
def Obligations.HuffmanRootWeighsTheSource : Prop :=
  ∀ s t : State, s.params.wf = true → s.alphaLen ≠ 0 → s.alphaLen.toNat ≤ 256 → AlphaInv s → exec .buildHuffman s = .next t →
    (nodeWeight (t.nodeAt t.hufRoot.toNat)).toNat = s.params.pN

/-! ### The encoder -/

/-- R108: ENCODE k with a valid codebook and every source byte in the alphabet completes: OUT takes the first P_OUT_BITS characters of
the stream, ENC_LEN[k] its whole length, TRUNC whether it was cut, and nothing else changes. -/
def Obligations.EncodeCompletesWithTheStream : Prop :=
  ∀ (s : State) (i : Instr) (k : Book) (f : Nat → Nat),
    (i, k) ∈ [(Instr.encodeFixed, Book.fixed), (.encodeShannon, .shannon), (.encodeHuffman, .huffman)] →
    s.valid.get k = true → s.Looks f →
    ∃ t, exec i s = .next t ∧
      t = { s with out := t.out, encLen := s.encLen.set k (BitVec.ofNat 32 (s.stream k f).length),
                   encValid := s.encValid.set k true, trunc := decide (s.params.pOutBits < (s.stream k f).length), lastCb := k,
                   done := true, engState := .idle } ∧
      (∀ c, Store.get? t.out c =
        if c < min (s.stream k f).length s.params.pOutBits then (s.stream k f)[c]? else Store.get? s.out c) ∧
      ∀ c < min (s.stream k f).length s.params.pOutBits, (s.stream k f)[c]? = some (t.outBit c)

/-- R109: when the alphabet is the census of SRC, ENC_LEN[k] is the sum over the alphabet of FREQ times LEN. -/
def Obligations.EncodedLengthIsTheWeightedSum : Prop :=
  ∀ (s t : State) (k : Book), s.params.wf = true → AlphaInv s → s.alphaLen ≠ 0 →
    (∀ i < s.alphaLen.toNat, (s.alphaAt i).freq.toNat = s.srcBytes.count (s.alphaAt i).sym) →
    s.valid.get k = true → exec (encodeCommand k) s = .next t →
    t.engState = .idle ∧ (t.encLen.get k).toNat =
      ∑ i ∈ Finset.range s.alphaLen.toNat, (s.alphaAt i).freq.toNat * (s.cbAt k i).len.toNat

/-- R109: a stream that was not cut determines the source: two machines with the same alphabet and the same prefix-free codebook, L >= 2,
that end ENCODE k with the same length and the same OUT had the same SRC. -/
def Obligations.StreamDeterminesTheSource : Prop :=
  ∀ (s t u v : State) (k : Book), s.params.wf = true → u.params = s.params → u.alphaLen = s.alphaLen → 2 ≤ s.alphaLen.toNat →
    (∀ i < s.alphaLen.toNat, (u.alphaAt i).sym = (s.alphaAt i).sym ∧ u.codeword k i = s.codeword k i) →
    PrefixFree (s.codeword k) s.alphaLen.toNat →
    exec (encodeCommand k) s = .next t → t.engState = .idle → t.trunc = false →
    exec (encodeCommand k) u = .next v → v.engState = .idle → v.trunc = false →
    t.encLen.get k = v.encLen.get k → (∀ c < (t.encLen.get k).toNat, t.outBit c = v.outBit c) →
    s.srcBytes = u.srcBytes

/-! ### The host port -/

/-- R55, R56, R60: an access that is not 32 bits wide, or whose address has A[1:0] /= 0, changes nothing but BUS_ERR, and a rejected
read returns 0; an accepted read changes no state at all: only the port's answer and the count of free draws, which are the model's
own (log 4, log 5). -/
def Obligations.ReadsAndBadAccessesChangeNoState : Prop :=
  ∀ (s : State) (size : Nat) (a : Addr) (v : Word), s.resetHeld = false →
    ((size ≠ 32 ∨ a.extractLsb' 0 2 ≠ 0) →
      hostAct (.read size a) s = { s with busErr := true, response := some ⟨true, 0⟩ } ∧
      hostAct (.write size a v) s = { s with busErr := true, response := some ⟨true, 0⟩ }) ∧
    (a.extractLsb' 0 2 = 0 → ∃ t, hostAct (.read 32 a) s = t ∧ t = { s with response := t.response, draws := t.draws } ∧
      ∃ d, t.response = some ⟨false, d⟩)

/-- R69: while RUNNING, a read of ALPHA_LEN or of any other register or window the rule lists returns a free draw and takes it; ID,
PARAM0, PARAM1, CTRL, CMD, STATUS, ARG, SRC and reserved addresses read as when IDLE. The draw is log 5; that the padding words of the
listed windows, 0x2FF8 and 0x2FFC and words 9 to 15 of a codebook entry, are free with them is log 15 (DEDUCED). -/
def Obligations.BusyReadsAreFreeDraws : Prop :=
  ∀ (s : State) (a : Addr), s.resetHeld = false → s.engState = .running → a.extractLsb' 0 2 = 0 →
    ((a.toNat ∈ [0x018, 0x01C, 0x020, 0x024, 0x028, 0x02C, 0x030, 0x034, 0x038, 0x03C, 0x044] ∨
      (0x1000 ≤ a.toNat ∧ a.toNat < 0x1400) ∨ (0x2000 ≤ a.toNat ∧ a.toNat < 0x3400) ∨
      (0x10000 ≤ a.toNat ∧ a.toNat < 0x1C000) ∨ 0x2000000 ≤ a.toNat) →
      hostAct (.read 32 a) s = { s with response := some ⟨false, Config.busyRead s.draws⟩, draws := s.draws + 1 }) ∧
    (a.toNat ∈ [0x000, 0x004, 0x008, 0x00C, 0x010, 0x014, 0x040] ∨ (0x048 ≤ a.toNat ∧ a.toNat < 0x1000) ∨
      (0x1400 ≤ a.toNat ∧ a.toNat < 0x2000) ∨ (0x3400 ≤ a.toNat ∧ a.toNat < 0x10000) ∨
      (0x1C000 ≤ a.toNat ∧ a.toNat < 0x2000000) →
      hostAct (.read 32 a) s = { s with response := some ⟨false, s.readWord a⟩ })

/-- R58, R66, R70: a write of word w of the SRC window stores the bytes below P_N, little-endian, and no other byte, unless a command is
RUNNING: then no byte changes and WR_DROPPED is set. -/
def Obligations.SourceWritesStoreBytesUnlessRunning : Prop :=
  ∀ (s : State) (w : Nat) (v : Word), s.resetHeld = false → w < 2 ^ 22 →
    (s.engState = .running →
      hostAct (.write 32 (BitVec.ofNat 26 (0x1000000 + 4 * w)) v) s =
        { s with wrDropped := true, response := some ⟨false, 0⟩ }) ∧
    (s.engState ≠ .running → ∃ t, hostAct (.write 32 (BitVec.ofNat 26 (0x1000000 + 4 * w)) v) s = t ∧
      t = { s with src := t.src, response := some ⟨false, 0⟩ } ∧
      ∀ j, t.srcByte j = if j / 4 = w ∧ j < s.params.pN then v.extractLsb' (8 * (j % 4)) 8 else s.srcByte j)

/-- R58, R66, R68: word w of the SRC window reads the current bytes, little-endian, in every engine state, and 0 for bytes past P_N. -/
def Obligations.SourceWindowReadsTheBytes : Prop :=
  ∀ (s : State) (w : Nat), s.resetHeld = false → w < 2 ^ 22 →
    ∃ v : Word, s.portAnswer (BitVec.ofNat 26 (0x1000000 + 4 * w)) = some ⟨false, v⟩ ∧
      ∀ b < 4, v.extractLsb' (8 * b) 8 = if 4 * w + b < s.params.pN then s.srcByte (4 * w + b) else 0

/-- R63, R64, R68: the ALPHA, NODE and WQ windows while no command runs: the entries in range, field by field, and 0 outside it. The last
two words of the NODE region, which R61 gives no node, stand as node 511 and read 0 (log 15, DEDUCED). -/
def Obligations.AlphabetAndTreeWindowsRead : Prop :=
  ∀ s : State, PortQuiet s →
    (∀ i < 256, s.portAnswer (BitVec.ofNat 26 (0x1000 + 4 * i)) =
      some ⟨false, if i < s.alphaLen.toNat then (s.alphaAt i).freq ++ (s.alphaAt i).sym else 0⟩) ∧
    (∀ n < 512, ∃ v u : Word,
      s.portAnswer (BitVec.ofNat 26 (0x2000 + 8 * n)) = some ⟨false, v⟩ ∧
      s.portAnswer (BitVec.ofNat 26 (0x2004 + 8 * n)) = some ⟨false, u⟩ ∧
      (s.nodeCnt.toNat ≤ n → v = 0 ∧ u = 0) ∧ (n = 511 → v = 0 ∧ u = 0) ∧
      (∀ (w : Freq) (i : BitVec 8), n < s.nodeCnt.toNat → s.nodeAt n = .leaf w i →
        v.extractLsb' 0 24 = w ∧ v.extractLsb' 24 7 = 0 ∧ v.getLsbD 31 = false ∧
        u.extractLsb' 0 8 = i ∧ u.extractLsb' 8 24 = 0) ∧
      (∀ (w : Freq) (l r : NodeId), n < s.nodeCnt.toNat → s.nodeAt n = .internal w l r →
        v.extractLsb' 0 24 = w ∧ v.extractLsb' 24 7 = 0 ∧ v.getLsbD 31 = true ∧
        u.extractLsb' 0 9 = l ∧ u.extractLsb' 9 7 = 0 ∧ u.extractLsb' 16 9 = r ∧ u.extractLsb' 25 7 = 0)) ∧
    (∀ p < 256, s.portAnswer (BitVec.ofNat 26 (0x3000 + 4 * p)) =
      some ⟨false, if p < s.wcnt.toNat then (s.wqAt p).setWidth 32 else 0⟩)

/-- R46, R47, R65, R67, R68: the CB and OUT windows while no command runs: LEN, then character j of the codeword in bit j mod 32 of word
1 + j / 32, zeros, and 0 for an entry out of range; OUT bit 32w + b in bit b of word w, and 0 from OUT_LEN on, which is the smaller of
ENC_LEN[LAST_CB] and P_OUT_BITS where ENC_VALID[LAST_CB] = 1 and else 0. -/
def Obligations.CodebookAndStreamWindowsRead : Prop :=
  ∀ s : State, PortQuiet s →
    (∀ (k : Book) (base i w : Nat), (k, base) ∈ [(Book.fixed, 0x10000), (.shannon, 0x14000), (.huffman, 0x18000)] →
      i < 256 → w < 16 →
      ∃ v : Word, s.portAnswer (BitVec.ofNat 26 (base + 64 * i + 4 * w)) = some ⟨false, v⟩ ∧
        ((s.valid.get k = false ∨ s.alphaLen.toNat ≤ i) → v = 0) ∧
        (s.valid.get k = true → i < s.alphaLen.toNat →
          (w = 0 → v = (s.cbAt k i).len.setWidth 32 ∧ v.toNat = (s.codeword k i).length) ∧
          (∀ u < 8, w = 1 + u → ∀ b < 32, v.getLsbD b = (s.cbAt k i).bits.getLsbD (32 * u + b)) ∧
          (∀ j < (s.cbAt k i).len.toNat, w = 1 + j / 32 → (s.codeword k i)[j]? = some (v.getLsbD (j % 32))) ∧
          (9 ≤ w → v = 0))) ∧
    (∀ outLen : Nat,
      (s.encValid.get s.lastCb = true → outLen = min (s.encLen.get s.lastCb).toNat s.params.pOutBits) →
      (s.encValid.get s.lastCb = false → outLen = 0) →
      s.outLen = outLen ∧
      ∀ w < 2 ^ 23, ∃ v : Word, s.portAnswer (BitVec.ofNat 26 (0x2000000 + 4 * w)) = some ⟨false, v⟩ ∧
        ∀ b < 32, v.getLsbD b = (decide (32 * w + b < outLen) && s.outBit (32 * w + b)))

/-- R24 to R39, R62, R69, R78, R112: the control page: each register at its offset, its fields at their bits with the numbers the spec
gives their values, and reserved offsets and the reserved ranges of the map reading 0. ID, PARAM0, PARAM1, CTRL, CMD, STATUS, ARG and
what is reserved read so in every engine state, STATUS.BUSY 1 exactly while RUNNING; the others while no command runs. -/
def Obligations.ControlPageReads : Prop :=
  ∀ s : State, s.resetHeld = false →
    (s.portAnswer 0x000 = some ⟨false, 0x48460001⟩ ∧
      s.portAnswer 0x008 = some ⟨false, BitVec.ofNat 32 s.params.pOutBits⟩ ∧
      s.portAnswer 0x010 = some ⟨false, s.lastCmd⟩ ∧
      s.portAnswer 0x040 = some ⟨false, s.arg⟩ ∧
      (∃ v : Word, s.portAnswer 0x004 = some ⟨false, v⟩ ∧ v.extractLsb' 0 24 = BitVec.ofNat 24 s.params.pN ∧
        (v.getLsbD 24 = true ↔ s.params.mbrMode = .ignore) ∧ v.extractLsb' 25 7 = 0) ∧
      (∃ v : Word, s.portAnswer 0x00C = some ⟨false, v⟩ ∧ v.getLsbD 0 = s.ie ∧ v.extractLsb' 1 31 = 0) ∧
      (∃ v : Word, s.portAnswer 0x014 = some ⟨false, v⟩ ∧ (v.getLsbD 0 = true ↔ s.engState = .running) ∧ v.getLsbD 1 = s.done ∧
        (v.getLsbD 2 = true ↔ s.engState = .faulted) ∧ v.getLsbD 3 = false ∧
        (∀ (c : FaultCode) (x : BitVec 4), (c, x) ∈ [(FaultCode.none, (0 : BitVec 4)), (.illegalCmd, 1), (.emptyAlphabet, 2),
          (.noCodebook, 3), (.hufSeq, 4), (.symbolAbsent, 5)] → s.err = c → v.extractLsb' 4 4 = x) ∧
        v.getLsbD 8 = s.cmdDropped ∧ v.getLsbD 9 = s.wrDropped ∧ v.getLsbD 10 = s.busErr ∧ v.extractLsb' 11 21 = 0) ∧
      (∀ a : Addr, a.extractLsb' 0 2 = 0 →
        ((0x048 ≤ a.toNat ∧ a.toNat < 0x1000) ∨ (0x1400 ≤ a.toNat ∧ a.toNat < 0x2000) ∨
          (0x3400 ≤ a.toNat ∧ a.toNat < 0x10000) ∨ (0x1C000 ≤ a.toNat ∧ a.toNat < 0x1000000)) →
        s.portAnswer a = some ⟨false, 0⟩)) ∧
    (s.engState ≠ .running →
      s.portAnswer 0x018 = some ⟨false, s.faultInfo⟩ ∧
      s.portAnswer 0x01C = some ⟨false, s.alphaLen.setWidth 32⟩ ∧
      s.portAnswer 0x030 = some ⟨false, s.encLen.fixed⟩ ∧ s.portAnswer 0x034 = some ⟨false, s.encLen.shannon⟩ ∧
      s.portAnswer 0x038 = some ⟨false, s.encLen.huffman⟩ ∧ s.portAnswer 0x03C = some ⟨false, s.statSumbits⟩ ∧
      s.portAnswer 0x044 = some ⟨false, s.result⟩ ∧
      (∃ v : Word, s.portAnswer 0x020 = some ⟨false, v⟩ ∧ v.getLsbD 0 = s.valid.fixed ∧ v.getLsbD 1 = s.valid.shannon ∧
        v.getLsbD 2 = s.valid.huffman ∧ v.extractLsb' 3 29 = 0) ∧
      (∃ v : Word, s.portAnswer 0x024 = some ⟨false, v⟩ ∧
        (∀ (h : HufState) (x : BitVec 2), (h, x) ∈ [(HufState.empty, (0 : BitVec 2)), (.active, 1), (.extracted, 2)] →
          s.hufState = h → v.extractLsb' 0 2 = x) ∧
        v.extractLsb' 2 2 = 0 ∧ v.extractLsb' 4 9 = s.wcnt ∧ v.extractLsb' 13 3 = 0 ∧ v.extractLsb' 16 9 = s.nodeCnt ∧
        v.extractLsb' 25 7 = 0) ∧
      s.portAnswer 0x028 = some ⟨false, if s.hufState = .extracted then s.hufRoot.setWidth 32 else 0⟩ ∧
      (∃ v : Word, s.portAnswer 0x02C = some ⟨false, v⟩ ∧ v.getLsbD 0 = s.encValid.fixed ∧ v.getLsbD 1 = s.encValid.shannon ∧
        v.getLsbD 2 = s.encValid.huffman ∧ v.getLsbD 3 = false ∧ v.getLsbD 4 = s.trunc ∧ v.extractLsb' 5 3 = 0 ∧
        (∀ (k : Book) (x : BitVec 2), (k, x) ∈ [(Book.fixed, (0 : BitVec 2)), (.shannon, 1), (.huffman, 2)] →
          s.lastCb = k → v.extractLsb' 8 2 = x) ∧ v.extractLsb' 10 22 = 0))

/-- R57, R61, R62: a write anywhere but CTRL, CMD, STATUS, ARG and the SRC window is ignored. -/
def Obligations.WritesToReadOnlyPlacesAreIgnored : Prop :=
  ∀ (s : State) (a : Addr) (v : Word), s.resetHeld = false → a.extractLsb' 0 2 = 0 →
    a.toNat ∉ [0x00C, 0x010, 0x014, 0x040] → ¬ (0x1000000 ≤ a.toNat ∧ a.toNat < 0x2000000) →
    hostAct (.write 32 a v) s = { s with response := some ⟨false, 0⟩ }

/-- R29, R38, R27, R70: the writes to STATUS, ARG and CTRL.IE, accepted in every engine state: STATUS loses DONE, CMD_DROPPED, WR_DROPPED
and BUS_ERR where the word has a 1 and keeps every other bit. -/
def Obligations.StatusArgAndEnableWrites : Prop :=
  ∀ (s : State) (v : Word), s.resetHeld = false →
    (∃ t, hostAct (.write 32 0x014 v) s = t ∧
      t = { s with done := t.done, cmdDropped := t.cmdDropped, wrDropped := t.wrDropped, busErr := t.busErr,
                   response := some ⟨false, 0⟩ } ∧
      t.done = (s.done && !v.getLsbD 1) ∧ t.cmdDropped = (s.cmdDropped && !v.getLsbD 8) ∧
      t.wrDropped = (s.wrDropped && !v.getLsbD 9) ∧ t.busErr = (s.busErr && !v.getLsbD 10) ∧
      t.statusWord = s.statusWord &&& ~~~(v &&& 0x702)) ∧
    hostAct (.write 32 0x040 v) s = { s with arg := v, response := some ⟨false, 0⟩ } ∧
    (v.getLsbD 1 = false → hostAct (.write 32 0x00C v) s = { s with ie := v.getLsbD 0, response := some ⟨false, 0⟩ })

/-- R127, R52: a write of 1 to CTRL.SRST, in every engine state, gives every register its reset value and leaves SRC as it was. -/
def Obligations.SoftResetKeepsOnlyTheSource : Prop :=
  ∀ (s : State) (v : Word), s.resetHeld = false → v.getLsbD 1 = true →
    ∃ t, hostAct (.write 32 0x00C v) s = t ∧
      t = { State.resetWith s.params with
              src := s.src, srcEpoch := s.srcEpoch, tabEpoch := t.tabEpoch, min1 := t.min1, min2 := t.min2,
              agenda := s.agenda, draws := s.draws, response := some ⟨false, 0⟩ } ∧
      ∀ j, t.srcByte j = s.srcByte j

/-- R126, R52: while the hard-reset input is asserted neither agent does anything; its release gives every register its reset value and
makes SRC unspecified: each byte a fresh free value. -/
def Obligations.HardResetForgetsEverything : Prop :=
  ∀ s : State, s.resetHeld = true →
    (∀ (size : Nat) (a : Addr) (v : Word), hostAct (.read size a) s = s ∧ hostAct (.write size a v) s = s) ∧
    engineTurn s = .next s ∧
    ∃ t, hostAct .releaseReset s = t ∧
      t = { State.resetWith s.params with
              srcEpoch := s.srcEpoch + 1, tabEpoch := t.tabEpoch, min1 := t.min1, min2 := t.min2,
              agenda := s.agenda, draws := s.draws, response := s.response } ∧
      ∀ j, t.srcByte j = Config.srcAtReset (s.srcEpoch + 1) j

/-- R128, R68: after either reset every read outside SRC and the three constants answers 0. -/
def Obligations.EveryResultReadsZeroAfterAReset : Prop :=
  ∀ (s : State) (a : Addr), a.extractLsb' 0 2 = 0 → a.toNat ∉ [0x000, 0x004, 0x008] →
    ¬ (0x1000000 ≤ a.toNat ∧ a.toNat < 0x2000000) →
    (∀ v : Word, s.resetHeld = false → v.getLsbD 1 = true →
      (hostAct (.write 32 0x00C v) s).portAnswer a = some ⟨false, 0⟩) ∧
    (s.resetHeld = true → (hostAct .releaseReset s).portAnswer a = some ⟨false, 0⟩)

/-- R117: IRQ is CTRL.IE while a command has ended, whether it completed or faulted, and until DONE is cleared by a W1C write, by the next
acceptance or by a reset. -/
def Obligations.InterruptFollowsDone : Prop :=
  ∀ s : State, s.irq = (s.ie && s.done) ∧
    (s.resetHeld = false → s.engState = .running → ∃ t, engineTurn s = .next t ∧ t.engState ≠ .running ∧ t.irq = s.ie) ∧
    (s.resetHeld = false →
      (∀ v : Word, v.getLsbD 1 = true → (hostAct (.write 32 0x014 v) s).irq = false) ∧
      (∀ c : Word, s.engState = .idle → (hostAct (.write 32 0x010 c) s).irq = false) ∧
      (∀ v : Word, v.getLsbD 1 = true → (hostAct (.write 32 0x00C v) s).irq = false)) ∧
    (s.resetHeld = true → (hostAct .releaseReset s).irq = false)

/-- R137, R127: an accepted command ends: once the turns the host still has are over, or before, no command runs, unless the hard-reset
input is held. -/
def Obligations.AcceptedCommandEnds : Prop :=
  ∀ s : State, s.engState = .running → s.resetHeld = false → .host .assertReset ∉ s.agenda →
    ∃ n ≤ s.agenda.length + 1, ∃ t, runFor n s = .next t ∧ t.engState ≠ .running

/-- R85, R66: LOADSRC leaves exactly its bytes in SRC. -/
def Obligations.LoadSrcLoadsTheBytes : Prop :=
  ∀ (s : State) (bytes : List Byte), s.params.wf = true → PortQuiet s → bytes.length = s.params.pN →
    (runWrites ((Pseudo.loadSrc bytes).expand s.params.pN) s).srcBytes = bytes

/-! ### Invariants -/

/-- R52, R128: the registers of the state after reset have the values the table gives, and the state meets every invariant, whatever
parameters the spec allows. -/
def Obligations.ResetMeetsTheInvariants : Prop :=
  State.reset.params.wf = true ∧
  (∀ p : Params, ∃ s, s = State.resetWith p ∧
    s.params = p ∧ s.ie = false ∧ s.lastCmd = 0 ∧ s.curCmd = 0 ∧ s.curArg = 0 ∧ s.engState = .idle ∧ s.done = false ∧ s.err = .none ∧
    s.cmdDropped = false ∧ s.wrDropped = false ∧ s.busErr = false ∧ s.faultInfo = 0 ∧ s.alphaLen = 0 ∧
    s.valid = ⟨false, false, false⟩ ∧ s.hufState = .empty ∧ s.wcnt = 0 ∧ s.nodeCnt = 0 ∧ s.hufRoot = 0 ∧
    s.encValid = ⟨false, false, false⟩ ∧ s.trunc = false ∧ s.lastCb = .fixed ∧ s.encLen = ⟨0, 0, 0⟩ ∧ s.statSumbits = 0 ∧
    s.arg = 0 ∧ s.result = 0) ∧
  ∀ p : Params, p.wf = true →
    EngineInv (State.resetWith p) ∧ HufInv (State.resetWith p) ∧ StoreInv (State.resetWith p) ∧ AlphaInv (State.resetWith p) ∧
    ForestInv (State.resetWith p) ∧ BookInv (State.resetWith p)

/-- R29, R30, R49: every step keeps the invariant of the engine's registers and of the latched fault. -/
def Obligations.StepKeepsEngineInv : Prop := ∀ s t : State, EngineInv s → step s = .next t → EngineInv t

/-- R33, R34: every step keeps the invariant of the Huffman registers. -/
def Obligations.StepKeepsHufInv : Prop := ∀ s t : State, HufInv s → step s = .next t → HufInv t

/-- R42 to R48, log 6, log 7: every step keeps the stores in canonical form and inside their arrays. -/
def Obligations.StepKeepsStoreInv : Prop := ∀ s t : State, HufInv s → StoreInv s → step s = .next t → StoreInv t

/-- R43, R87: every step keeps the invariant of the alphabet. -/
def Obligations.StepKeepsAlphaInv : Prop := ∀ s t : State, s.params.wf = true → AlphaInv s → step s = .next t → AlphaInv t

/-- R44, R45, R106, R107: every step keeps the arena a forest whose roots are the queue. -/
def Obligations.StepKeepsForestInv : Prop := ∀ s t : State, HufInv s → ForestInv s → step s = .next t → ForestInv t

/-- R46: every step keeps the entries of the valid codebooks clean above their length. -/
def Obligations.StepKeepsBookInv : Prop :=
  ∀ s t : State, HufInv s → ForestInv s → BookInv s → step s = .next t → BookInv t
end

