-- ==== Sys2Proof/Laws/Store.lean ====
section
/-! SUPPORT. The laws of the data stores: a read after a write, what a write leaves alone, and that every operation keeps the canonical
form and the bound of its array. -/

namespace Sys2Proof.Machine

variable {α : Type}

@[simp] theorem Store.get?_nil (i : Nat) : Store.get? ([] : Store α) i = none := rfl

theorem Store.get?_cons (k : Nat) (v : α) (m : Store α) (i : Nat) :
    Store.get? ((k, v) :: m) i = if i = k then some v else Store.get? m i := rfl

/-- A read after a write: the written entry at its index, every other entry as before. -/
theorem Store.get?_set (m : Store α) (i : Nat) (v : α) (j : Nat) :
    Store.get? (Store.set m i v) j = if j = i then some v else Store.get? m j := by
  induction m with
  | nil => simp [Store.set, Store.get?_cons]
  | cons e m ih =>
    obtain ⟨k, w⟩ := e
    unfold Store.set
    split
    · simp [Store.get?_cons]
    · split
      · next h => subst h; by_cases hj : j = i <;> simp [Store.get?_cons, hj]
      · by_cases hj : j = k
        · subst hj; simp [Store.get?_cons, show j ≠ i by omega]
        · simp [Store.get?_cons, hj, ih]

@[simp] theorem Store.get?_set_same (m : Store α) (i : Nat) (v : α) : Store.get? (Store.set m i v) i = some v := by
  simp [Store.get?_set]

theorem Store.get?_set_other (m : Store α) {i j : Nat} (v : α) (h : j ≠ i) :
    Store.get? (Store.set m i v) j = Store.get? m j := by
  simp [Store.get?_set, h]

@[simp] theorem Store.setFrom_nil (m : Store α) (i : Nat) : Store.setFrom m i [] = m := rfl

@[simp] theorem Store.setFrom_cons (m : Store α) (i : Nat) (v : α) (vs : List α) :
    Store.setFrom m i (v :: vs) = Store.setFrom (Store.set m i v) (i + 1) vs := rfl

/-- A read after a list of values has been written from an index on. -/
theorem Store.get?_setFrom (vs : List α) (m : Store α) (i j : Nat) :
    Store.get? (Store.setFrom m i vs) j = if i ≤ j ∧ j < i + vs.length then vs[j - i]? else Store.get? m j := by
  induction vs generalizing m i with
  | nil => simp [show ¬ (i ≤ j ∧ j < i) by omega]
  | cons v vs ih =>
    rw [Store.setFrom_cons, ih, Store.get?_set]
    simp only [List.length_cons]
    by_cases h1 : i + 1 ≤ j ∧ j < i + 1 + vs.length
    · rw [if_pos h1, if_pos (by omega), show j - i = (j - (i + 1)) + 1 by omega, List.getElem?_cons_succ]
    · rw [if_neg h1]
      by_cases h2 : j = i
      · subst h2; simp
      · rw [if_neg h2, if_neg (by omega)]

/-- Inside the range written. -/
theorem Store.get?_setFrom_inside (vs : List α) (m : Store α) {i j : Nat} (h : i ≤ j) (h' : j < i + vs.length) :
    Store.get? (Store.setFrom m i vs) j = vs[j - i]? := by
  rw [Store.get?_setFrom, if_pos ⟨h, h'⟩]

/-- Outside the range written. -/
theorem Store.get?_setFrom_outside (vs : List α) (m : Store α) {i j : Nat} (h : ¬ (i ≤ j ∧ j < i + vs.length)) :
    Store.get? (Store.setFrom m i vs) j = Store.get? m j := by
  rw [Store.get?_setFrom, if_neg h]

theorem Store.getD_set (m : Store α) (i : Nat) (v : α) (j : Nat) (d : α) :
    Store.getD (Store.set m i v) j d = if j = i then v else Store.getD m j d := by
  unfold Store.getD; rw [Store.get?_set]; split <;> rfl

/-! ### The canonical form -/

@[simp] theorem Store.wf_nil : Store.wf ([] : Store α) = true := rfl

@[simp] theorem Store.wf_single (e : Nat × α) : Store.wf [e] = true := rfl

theorem Store.wf_cons_cons (i j : Nat) (v w : α) (m : Store α) :
    Store.wf ((i, v) :: (j, w) :: m) = true ↔ i < j ∧ Store.wf ((j, w) :: m) = true := by
  simp [Store.wf]

theorem Store.wf_tail (e : Nat × α) (m : Store α) (h : Store.wf (e :: m) = true) : Store.wf m = true := by
  cases m with
  | nil => rfl
  | cons e' m => exact ((Store.wf_cons_cons _ _ _ _ _).1 h).2

/-- The smallest index of a store after a write. -/
theorem Store.set_head (m : Store α) (i : Nat) (v : α) :
    ∃ k w m', Store.set m i v = (k, w) :: m' ∧ (k = i ∨ ∃ w' m'', m = (k, w') :: m'') := by
  cases m with
  | nil => exact ⟨i, v, [], rfl, .inl rfl⟩
  | cons e m =>
    obtain ⟨k, w⟩ := e
    unfold Store.set
    split
    · exact ⟨i, v, _, rfl, .inl rfl⟩
    · split
      · exact ⟨i, v, m, rfl, .inl rfl⟩
      · exact ⟨k, w, Store.set m i v, rfl, .inr ⟨w, m, rfl⟩⟩

/-- A write keeps the canonical form. -/
theorem Store.wf_set (m : Store α) (i : Nat) (v : α) (h : Store.wf m = true) : Store.wf (Store.set m i v) = true := by
  induction m with
  | nil => rfl
  | cons e m ih =>
    obtain ⟨k, w⟩ := e
    unfold Store.set
    split
    · next hlt => exact (Store.wf_cons_cons _ _ _ _ _).2 ⟨hlt, h⟩
    · split
      · next he =>
        subst he
        cases m with
        | nil => rfl
        | cons e' m =>
          obtain ⟨k', w'⟩ := e'
          exact (Store.wf_cons_cons _ _ _ _ _).2 ((Store.wf_cons_cons _ _ _ _ _).1 h)
      · have ih := ih (Store.wf_tail _ _ h)
        obtain ⟨k', w', m', hset, hk⟩ := Store.set_head m i v
        rw [hset] at ih ⊢
        refine (Store.wf_cons_cons _ _ _ _ _).2 ⟨?_, ih⟩
        rcases hk with rfl | ⟨w'', m'', rfl⟩
        · omega
        · exact ((Store.wf_cons_cons _ _ _ _ _).1 h).1

/-- Writing a list of values keeps the canonical form. -/
theorem Store.wf_setFrom (vs : List α) (m : Store α) (i : Nat) (h : Store.wf m = true) :
    Store.wf (Store.setFrom m i vs) = true := by
  induction vs generalizing m i with
  | nil => exact h
  | cons v vs ih => exact ih _ _ (Store.wf_set m i v h)

/-! ### The bound of the array -/

@[simp] theorem Store.below_nil (n : Nat) : Store.below ([] : Store α) n = true := rfl

theorem Store.below_cons (k : Nat) (v : α) (m : Store α) (n : Nat) :
    Store.below ((k, v) :: m) n = true ↔ k < n ∧ Store.below m n = true := by
  simp [Store.below]

/-- A write below the bound keeps the bound. -/
theorem Store.below_set (m : Store α) {i n : Nat} (v : α) (hi : i < n) (h : Store.below m n = true) :
    Store.below (Store.set m i v) n = true := by
  induction m with
  | nil => exact (Store.below_cons _ _ _ _).2 ⟨hi, rfl⟩
  | cons e m ih =>
    obtain ⟨k, w⟩ := e
    have h' := (Store.below_cons _ _ _ _).1 h
    unfold Store.set
    split
    · exact (Store.below_cons _ _ _ _).2 ⟨hi, h⟩
    · split
      · exact (Store.below_cons _ _ _ _).2 ⟨hi, h'.2⟩
      · exact (Store.below_cons _ _ _ _).2 ⟨h'.1, ih h'.2⟩

/-- Writing a list of values below the bound keeps the bound. -/
theorem Store.below_setFrom (vs : List α) (m : Store α) {i n : Nat} (hi : i + vs.length ≤ n) (h : Store.below m n = true) :
    Store.below (Store.setFrom m i vs) n = true := by
  induction vs generalizing m i with
  | nil => exact h
  | cons v vs ih =>
    simp only [List.length_cons] at hi
    exact ih _ (by omega) (Store.below_set m v (by omega) h)

/-! ### The three codebooks -/

@[simp] theorem PerBook.get_set_same (p : PerBook α) (k : Book) (v : α) : (p.set k v).get k = v := by cases k <;> rfl

theorem PerBook.get_set (p : PerBook α) (k k' : Book) (v : α) : (p.set k v).get k' = if k' = k then v else p.get k' := by
  cases k <;> cases k' <;> rfl

theorem PerBook.get_set_other (p : PerBook α) {k k' : Book} (v : α) (h : k' ≠ k) : (p.set k v).get k' = p.get k' := by
  rw [PerBook.get_set, if_neg h]

@[simp] theorem PerBook.get_all (v : α) (k : Book) : (PerBook.all v).get k = v := by cases k <;> rfl

theorem PerBook.set_fixed (p : PerBook α) (v : α) : p.set .fixed v = { p with fixed := v } := rfl

theorem PerBook.set_shannon (p : PerBook α) (v : α) : p.set .shannon v = { p with shannon := v } := rfl

theorem PerBook.set_huffman (p : PerBook α) (v : α) : p.set .huffman v = { p with huffman := v } := rfl

end Sys2Proof.Machine
end

