-- ==== Sys2Proof/Laws/Operands.lean ====
section
/-! SUPPORT. The laws of the operands: bits of a listed vector, codewords as character sequences, the bit scan, and the symbol lookup. -/

namespace Sys2Proof.Machine

/-- Bit j of a listed vector. -/
theorem getLsbD_bitsOf (n : Nat) (l : List Bool) (j : Nat) : (bitsOf n l).getLsbD j = (decide (j < n) && l.getD j false) := by
  simp [bitsOf, BitVec.getLsbD_setWidth, BitVec.getLsbD_ofBoolListLE]

@[simp] theorem codewordOf_len (w : Chars) (h : w.length ≤ 255) : (codewordOf w).len.toNat = w.length := by
  simp only [codewordOf, BitVec.toNat_ofNat]; omega

/-- A codeword of at most 255 characters is read back as it was written (R46). -/
theorem charsOf_codewordOf (w : Chars) (h : w.length ≤ 255) : charsOf (codewordOf w) = w := by
  apply List.ext_getElem
  · simp [charsOf, codewordOf_len w h]
  · intro j h1 h2
    simp [charsOf, codewordOf, getLsbD_bitsOf, List.getD_eq_getElem?_getD, List.getElem?_eq_getElem h2]
    omega

/-- The bits of a codeword above its length are 0 (R46). -/
theorem codewordOf_clean (w : Chars) (h : w.length ≤ 255) (j : Nat) (hj : (codewordOf w).len.toNat ≤ j) :
    (codewordOf w).bits.getLsbD j = false := by
  rw [codewordOf_len w h] at hj
  simp [codewordOf, getLsbD_bitsOf, List.getD_eq_getElem?_getD, List.getElem?_eq_none hj]

/-- Character j of a codebook entry is bit j of BITS (R46). -/
theorem charsOf_getElem? (c : Codeword) {j : Nat} (h : j < c.len.toNat) : (charsOf c)[j]? = some (c.bits.getLsbD j) := by
  simp [charsOf, h]

@[simp] theorem charsOf_length (c : Codeword) : (charsOf c).length = c.len.toNat := by simp [charsOf]

/-! ### Numerals and the bit scan -/

@[simp] theorem bitlen_zero : bitlen 0 = 0 := rfl

/-- `bitlen(v)` is the number of bits of v: 2^(bitlen v - 1) <= v < 2^(bitlen v) (R17). -/
theorem bitlen_spec (v : Nat) (h : v ≠ 0) : 2 ^ (bitlen v - 1) ≤ v ∧ v < 2 ^ bitlen v ∧ 1 ≤ bitlen v := by
  have hb : bitlen v = Nat.log2 v + 1 := by simp [bitlen, h]
  refine ⟨?_, ?_, by omega⟩
  · rw [hb]; simpa using Nat.log2_self_le h
  · rw [hb]; exact Nat.lt_log2_self

theorem lt_two_pow_bitlen (v : Nat) : v < 2 ^ bitlen v := by
  by_cases h : v = 0
  · subst h; decide
  · exact (bitlen_spec v h).2.1

theorem bitlen_le_iff (v n : Nat) : bitlen v ≤ n ↔ v < 2 ^ n := by
  constructor
  · intro h; exact lt_of_lt_of_le (lt_two_pow_bitlen v) (Nat.pow_le_pow_right (by decide) h)
  · intro h
    by_contra hn
    have hv : v ≠ 0 := by rintro rfl; simp at hn
    have h1 : 2 ^ n ≤ 2 ^ (bitlen v - 1) := Nat.pow_le_pow_right (by decide) (by omega)
    have h2 := (bitlen_spec v hv).1
    omega

theorem bitlen_mono {u v : Nat} (h : u ≤ v) : bitlen u ≤ bitlen v :=
  (bitlen_le_iff u _).2 (lt_of_le_of_lt h (lt_two_pow_bitlen v))

@[simp] theorem bin_length (v : Nat) : (bin v).length = max 1 (bitlen v) := by simp [bin]

/-- Character c of a numeral is the digit of weight 2^(length - 1 - c) (R17). -/
theorem bin_getElem (v c : Nat) (h : c < (bin v).length) : (bin v)[c] = v.testBit ((bin v).length - 1 - c) := by
  simp [bin]

theorem padLeft_length (n : Nat) (w : Chars) : (padLeft n w).length = max n w.length := by
  simp only [padLeft, List.length_append, List.length_replicate]; omega

/-- `mbr` is between 1 and 8 (R89). -/
theorem mbrOf_bounds (m : MbrMode) (v : Word) : 1 ≤ mbrOf m v ∧ mbrOf m v ≤ 8 := by
  simp only [mbrOf]; omega

theorem mbrArgument_cap (v : Word) : mbrArgument .cap v = v.toNat := rfl

theorem mbrArgument_ignore (v : Word) : mbrArgument .ignore v = v.toNat % 256 := by
  simp [mbrArgument, BitVec.extractLsb'_toNat]

/-- Below 256 the two readings agree (R89). -/
theorem mbrArgument_of_lt (m : MbrMode) (v : Word) (h : v.toNat < 256) : mbrArgument m v = v.toNat := by
  cases m with
  | cap => rfl
  | ignore => rw [mbrArgument_ignore]; omega

/-! ### The encoder's lookup -/

/-- The lookup finds the first index with the symbol (R108). -/
theorem lookup_eq_some (s : State) (b : Byte) (i : Nat) :
    s.lookup b = some i ↔ i < s.alphaLen.toNat ∧ (s.alphaAt i).sym = b ∧ ∀ i' < i, (s.alphaAt i').sym ≠ b := by
  unfold State.lookup
  rw [List.find?_range_eq_some]
  simp only [List.mem_range, beq_iff_eq, Bool.not_eq_eq_eq_not, Bool.not_true, beq_eq_false_iff_ne, ne_eq]
  tauto

/-- The lookup finds nothing exactly when the symbol is absent (R108). -/
theorem lookup_eq_none (s : State) (b : Byte) : s.lookup b = none ↔ ∀ i < s.alphaLen.toNat, (s.alphaAt i).sym ≠ b := by
  simp [State.lookup, List.find?_eq_none]

@[simp] theorem codeStream_nil (s : State) (k : Book) : s.codeStream k [] = .ok [] := rfl

/-- When every listed position has an index, the stream is their codewords in order (R108). -/
theorem codeStream_ok (s : State) (k : Book) (js : List Nat) (f : Nat → Nat)
    (h : ∀ j ∈ js, s.lookup (s.srcByte j) = some (f j)) :
    s.codeStream k js = .ok ((js.map fun j => charsOf (s.cbAt k (f j))).flatten) := by
  induction js with
  | nil => rfl
  | cons j js ih =>
    simp only [State.codeStream, h j List.mem_cons_self, ih fun j' hj => h j' (List.mem_cons_of_mem _ hj), List.map_cons,
      List.flatten_cons]

/-- The stream fails exactly at the first listed position whose byte is absent (R108, R113). -/
theorem codeStream_error (s : State) (k : Book) (js : List Nat) (e : Byte × Nat) (h : s.codeStream k js = .error e) :
    ∃ before after, js = before ++ e.2 :: after ∧ e.1 = s.srcByte e.2 ∧ s.lookup (s.srcByte e.2) = none ∧
      ∀ j ∈ before, s.lookup (s.srcByte j) ≠ none := by
  induction js with
  | nil => simp at h
  | cons j js ih =>
    unfold State.codeStream at h
    cases hl : s.lookup (s.srcByte j) with
    | none =>
      rw [hl] at h
      obtain rfl : (s.srcByte j, j) = e := by simpa using h
      exact ⟨[], js, rfl, rfl, hl, by simp⟩
    | some i =>
      rw [hl] at h
      cases hc : s.codeStream k js with
      | ok w => rw [hc] at h; simp at h
      | error e' =>
        rw [hc] at h
        obtain rfl : e' = e := by simpa using h
        obtain ⟨b, a, h1, h2, h3, h4⟩ := ih hc
        refine ⟨j :: b, a, by rw [h1]; rfl, h2, h3, ?_⟩
        intro j' hj'
        rcases List.mem_cons.1 hj' with rfl | hj'
        · rw [hl]; simp
        · exact h4 j' hj'

end Sys2Proof.Machine
end

