-- ==== Sys2Proof/Laws/State.lean ====
section
/-! SUPPORT. One lemma for each field of State and each named update of it, true by `rfl`: what the update makes of the field. -/

namespace Sys2Proof.Machine

/-! ### What `complete()` (R110) makes of each field -/

@[simp] theorem complete_ie (s : State) : (complete s).ie = s.ie := rfl
@[simp] theorem complete_lastCmd (s : State) : (complete s).lastCmd = s.lastCmd := rfl
@[simp] theorem complete_curCmd (s : State) : (complete s).curCmd = s.curCmd := rfl
@[simp] theorem complete_curArg (s : State) : (complete s).curArg = s.curArg := rfl
@[simp] theorem complete_engState (s : State) : (complete s).engState = .idle := rfl
@[simp] theorem complete_done (s : State) : (complete s).done = true := rfl
@[simp] theorem complete_err (s : State) : (complete s).err = s.err := rfl
@[simp] theorem complete_cmdDropped (s : State) : (complete s).cmdDropped = s.cmdDropped := rfl
@[simp] theorem complete_wrDropped (s : State) : (complete s).wrDropped = s.wrDropped := rfl
@[simp] theorem complete_busErr (s : State) : (complete s).busErr = s.busErr := rfl
@[simp] theorem complete_faultInfo (s : State) : (complete s).faultInfo = s.faultInfo := rfl
@[simp] theorem complete_alphaLen (s : State) : (complete s).alphaLen = s.alphaLen := rfl
@[simp] theorem complete_valid (s : State) : (complete s).valid = s.valid := rfl
@[simp] theorem complete_hufState (s : State) : (complete s).hufState = s.hufState := rfl
@[simp] theorem complete_wcnt (s : State) : (complete s).wcnt = s.wcnt := rfl
@[simp] theorem complete_nodeCnt (s : State) : (complete s).nodeCnt = s.nodeCnt := rfl
@[simp] theorem complete_hufRoot (s : State) : (complete s).hufRoot = s.hufRoot := rfl
@[simp] theorem complete_encValid (s : State) : (complete s).encValid = s.encValid := rfl
@[simp] theorem complete_trunc (s : State) : (complete s).trunc = s.trunc := rfl
@[simp] theorem complete_lastCb (s : State) : (complete s).lastCb = s.lastCb := rfl
@[simp] theorem complete_encLen (s : State) : (complete s).encLen = s.encLen := rfl
@[simp] theorem complete_statSumbits (s : State) : (complete s).statSumbits = s.statSumbits := rfl
@[simp] theorem complete_arg (s : State) : (complete s).arg = s.arg := rfl
@[simp] theorem complete_result (s : State) : (complete s).result = s.result := rfl
@[simp] theorem complete_src (s : State) : (complete s).src = s.src := rfl
@[simp] theorem complete_alpha (s : State) : (complete s).alpha = s.alpha := rfl
@[simp] theorem complete_node (s : State) : (complete s).node = s.node := rfl
@[simp] theorem complete_wq (s : State) : (complete s).wq = s.wq := rfl
@[simp] theorem complete_cb (s : State) : (complete s).cb = s.cb := rfl
@[simp] theorem complete_out (s : State) : (complete s).out = s.out := rfl
@[simp] theorem complete_hist (s : State) : (complete s).hist = s.hist := rfl
@[simp] theorem complete_min1 (s : State) : (complete s).min1 = s.min1 := rfl
@[simp] theorem complete_min2 (s : State) : (complete s).min2 = s.min2 := rfl
@[simp] theorem complete_params (s : State) : (complete s).params = s.params := rfl
@[simp] theorem complete_agenda (s : State) : (complete s).agenda = s.agenda := rfl
@[simp] theorem complete_response (s : State) : (complete s).response = s.response := rfl
@[simp] theorem complete_draws (s : State) : (complete s).draws = s.draws := rfl
@[simp] theorem complete_resetHeld (s : State) : (complete s).resetHeld = s.resetHeld := rfl
@[simp] theorem complete_srcEpoch (s : State) : (complete s).srcEpoch = s.srcEpoch := rfl
@[simp] theorem complete_tabEpoch (s : State) : (complete s).tabEpoch = s.tabEpoch := rfl

/-! ### What taking a fault (R111) makes of each field -/

@[simp] theorem raiseFault_ie (c : FaultCode) (v : Word) (s : State) : (raiseFault c v s).ie = s.ie := rfl
@[simp] theorem raiseFault_lastCmd (c : FaultCode) (v : Word) (s : State) : (raiseFault c v s).lastCmd = s.lastCmd := rfl
@[simp] theorem raiseFault_curCmd (c : FaultCode) (v : Word) (s : State) : (raiseFault c v s).curCmd = s.curCmd := rfl
@[simp] theorem raiseFault_curArg (c : FaultCode) (v : Word) (s : State) : (raiseFault c v s).curArg = s.curArg := rfl
@[simp] theorem raiseFault_engState (c : FaultCode) (v : Word) (s : State) : (raiseFault c v s).engState = .faulted := rfl
@[simp] theorem raiseFault_done (c : FaultCode) (v : Word) (s : State) : (raiseFault c v s).done = true := rfl
@[simp] theorem raiseFault_err (c : FaultCode) (v : Word) (s : State) : (raiseFault c v s).err = c := rfl
@[simp] theorem raiseFault_cmdDropped (c : FaultCode) (v : Word) (s : State) : (raiseFault c v s).cmdDropped = s.cmdDropped := rfl
@[simp] theorem raiseFault_wrDropped (c : FaultCode) (v : Word) (s : State) : (raiseFault c v s).wrDropped = s.wrDropped := rfl
@[simp] theorem raiseFault_busErr (c : FaultCode) (v : Word) (s : State) : (raiseFault c v s).busErr = s.busErr := rfl
@[simp] theorem raiseFault_faultInfo (c : FaultCode) (v : Word) (s : State) : (raiseFault c v s).faultInfo = v := rfl
@[simp] theorem raiseFault_alphaLen (c : FaultCode) (v : Word) (s : State) : (raiseFault c v s).alphaLen = s.alphaLen := rfl
@[simp] theorem raiseFault_valid (c : FaultCode) (v : Word) (s : State) : (raiseFault c v s).valid = s.valid := rfl
@[simp] theorem raiseFault_hufState (c : FaultCode) (v : Word) (s : State) : (raiseFault c v s).hufState = s.hufState := rfl
@[simp] theorem raiseFault_wcnt (c : FaultCode) (v : Word) (s : State) : (raiseFault c v s).wcnt = s.wcnt := rfl
@[simp] theorem raiseFault_nodeCnt (c : FaultCode) (v : Word) (s : State) : (raiseFault c v s).nodeCnt = s.nodeCnt := rfl
@[simp] theorem raiseFault_hufRoot (c : FaultCode) (v : Word) (s : State) : (raiseFault c v s).hufRoot = s.hufRoot := rfl
@[simp] theorem raiseFault_encValid (c : FaultCode) (v : Word) (s : State) : (raiseFault c v s).encValid = s.encValid := rfl
@[simp] theorem raiseFault_trunc (c : FaultCode) (v : Word) (s : State) : (raiseFault c v s).trunc = s.trunc := rfl
@[simp] theorem raiseFault_lastCb (c : FaultCode) (v : Word) (s : State) : (raiseFault c v s).lastCb = s.lastCb := rfl
@[simp] theorem raiseFault_encLen (c : FaultCode) (v : Word) (s : State) : (raiseFault c v s).encLen = s.encLen := rfl
@[simp] theorem raiseFault_statSumbits (c : FaultCode) (v : Word) (s : State) : (raiseFault c v s).statSumbits = s.statSumbits := rfl
@[simp] theorem raiseFault_arg (c : FaultCode) (v : Word) (s : State) : (raiseFault c v s).arg = s.arg := rfl
@[simp] theorem raiseFault_result (c : FaultCode) (v : Word) (s : State) : (raiseFault c v s).result = s.result := rfl
@[simp] theorem raiseFault_src (c : FaultCode) (v : Word) (s : State) : (raiseFault c v s).src = s.src := rfl
@[simp] theorem raiseFault_alpha (c : FaultCode) (v : Word) (s : State) : (raiseFault c v s).alpha = s.alpha := rfl
@[simp] theorem raiseFault_node (c : FaultCode) (v : Word) (s : State) : (raiseFault c v s).node = s.node := rfl
@[simp] theorem raiseFault_wq (c : FaultCode) (v : Word) (s : State) : (raiseFault c v s).wq = s.wq := rfl
@[simp] theorem raiseFault_cb (c : FaultCode) (v : Word) (s : State) : (raiseFault c v s).cb = s.cb := rfl
@[simp] theorem raiseFault_out (c : FaultCode) (v : Word) (s : State) : (raiseFault c v s).out = s.out := rfl
@[simp] theorem raiseFault_hist (c : FaultCode) (v : Word) (s : State) : (raiseFault c v s).hist = s.hist := rfl
@[simp] theorem raiseFault_min1 (c : FaultCode) (v : Word) (s : State) : (raiseFault c v s).min1 = s.min1 := rfl
@[simp] theorem raiseFault_min2 (c : FaultCode) (v : Word) (s : State) : (raiseFault c v s).min2 = s.min2 := rfl
@[simp] theorem raiseFault_params (c : FaultCode) (v : Word) (s : State) : (raiseFault c v s).params = s.params := rfl
@[simp] theorem raiseFault_agenda (c : FaultCode) (v : Word) (s : State) : (raiseFault c v s).agenda = s.agenda := rfl
@[simp] theorem raiseFault_response (c : FaultCode) (v : Word) (s : State) : (raiseFault c v s).response = s.response := rfl
@[simp] theorem raiseFault_draws (c : FaultCode) (v : Word) (s : State) : (raiseFault c v s).draws = s.draws := rfl
@[simp] theorem raiseFault_resetHeld (c : FaultCode) (v : Word) (s : State) : (raiseFault c v s).resetHeld = s.resetHeld := rfl
@[simp] theorem raiseFault_srcEpoch (c : FaultCode) (v : Word) (s : State) : (raiseFault c v s).srcEpoch = s.srcEpoch := rfl
@[simp] theorem raiseFault_tabEpoch (c : FaultCode) (v : Word) (s : State) : (raiseFault c v s).tabEpoch = s.tabEpoch := rfl

/-! ### What accepting a command (R81) makes of each field -/

@[simp] theorem acceptCommand_ie (c : Word) (s : State) : (acceptCommand c s).ie = s.ie := rfl
@[simp] theorem acceptCommand_lastCmd (c : Word) (s : State) : (acceptCommand c s).lastCmd = c := rfl
@[simp] theorem acceptCommand_curCmd (c : Word) (s : State) : (acceptCommand c s).curCmd = c := rfl
@[simp] theorem acceptCommand_curArg (c : Word) (s : State) : (acceptCommand c s).curArg = s.arg := rfl
@[simp] theorem acceptCommand_engState (c : Word) (s : State) : (acceptCommand c s).engState = .running := rfl
@[simp] theorem acceptCommand_done (c : Word) (s : State) : (acceptCommand c s).done = false := rfl
@[simp] theorem acceptCommand_err (c : Word) (s : State) : (acceptCommand c s).err = s.err := rfl
@[simp] theorem acceptCommand_cmdDropped (c : Word) (s : State) : (acceptCommand c s).cmdDropped = s.cmdDropped := rfl
@[simp] theorem acceptCommand_wrDropped (c : Word) (s : State) : (acceptCommand c s).wrDropped = s.wrDropped := rfl
@[simp] theorem acceptCommand_busErr (c : Word) (s : State) : (acceptCommand c s).busErr = s.busErr := rfl
@[simp] theorem acceptCommand_faultInfo (c : Word) (s : State) : (acceptCommand c s).faultInfo = s.faultInfo := rfl
@[simp] theorem acceptCommand_alphaLen (c : Word) (s : State) : (acceptCommand c s).alphaLen = s.alphaLen := rfl
@[simp] theorem acceptCommand_valid (c : Word) (s : State) : (acceptCommand c s).valid = s.valid := rfl
@[simp] theorem acceptCommand_hufState (c : Word) (s : State) : (acceptCommand c s).hufState = s.hufState := rfl
@[simp] theorem acceptCommand_wcnt (c : Word) (s : State) : (acceptCommand c s).wcnt = s.wcnt := rfl
@[simp] theorem acceptCommand_nodeCnt (c : Word) (s : State) : (acceptCommand c s).nodeCnt = s.nodeCnt := rfl
@[simp] theorem acceptCommand_hufRoot (c : Word) (s : State) : (acceptCommand c s).hufRoot = s.hufRoot := rfl
@[simp] theorem acceptCommand_encValid (c : Word) (s : State) : (acceptCommand c s).encValid = s.encValid := rfl
@[simp] theorem acceptCommand_trunc (c : Word) (s : State) : (acceptCommand c s).trunc = s.trunc := rfl
@[simp] theorem acceptCommand_lastCb (c : Word) (s : State) : (acceptCommand c s).lastCb = s.lastCb := rfl
@[simp] theorem acceptCommand_encLen (c : Word) (s : State) : (acceptCommand c s).encLen = s.encLen := rfl
@[simp] theorem acceptCommand_statSumbits (c : Word) (s : State) : (acceptCommand c s).statSumbits = s.statSumbits := rfl
@[simp] theorem acceptCommand_arg (c : Word) (s : State) : (acceptCommand c s).arg = s.arg := rfl
@[simp] theorem acceptCommand_result (c : Word) (s : State) : (acceptCommand c s).result = s.result := rfl
@[simp] theorem acceptCommand_src (c : Word) (s : State) : (acceptCommand c s).src = s.src := rfl
@[simp] theorem acceptCommand_alpha (c : Word) (s : State) : (acceptCommand c s).alpha = s.alpha := rfl
@[simp] theorem acceptCommand_node (c : Word) (s : State) : (acceptCommand c s).node = s.node := rfl
@[simp] theorem acceptCommand_wq (c : Word) (s : State) : (acceptCommand c s).wq = s.wq := rfl
@[simp] theorem acceptCommand_cb (c : Word) (s : State) : (acceptCommand c s).cb = s.cb := rfl
@[simp] theorem acceptCommand_out (c : Word) (s : State) : (acceptCommand c s).out = s.out := rfl
@[simp] theorem acceptCommand_hist (c : Word) (s : State) : (acceptCommand c s).hist = s.hist := rfl
@[simp] theorem acceptCommand_min1 (c : Word) (s : State) : (acceptCommand c s).min1 = s.min1 := rfl
@[simp] theorem acceptCommand_min2 (c : Word) (s : State) : (acceptCommand c s).min2 = s.min2 := rfl
@[simp] theorem acceptCommand_params (c : Word) (s : State) : (acceptCommand c s).params = s.params := rfl
@[simp] theorem acceptCommand_agenda (c : Word) (s : State) : (acceptCommand c s).agenda = s.agenda := rfl
@[simp] theorem acceptCommand_response (c : Word) (s : State) : (acceptCommand c s).response = s.response := rfl
@[simp] theorem acceptCommand_draws (c : Word) (s : State) : (acceptCommand c s).draws = s.draws := rfl
@[simp] theorem acceptCommand_resetHeld (c : Word) (s : State) : (acceptCommand c s).resetHeld = s.resetHeld := rfl
@[simp] theorem acceptCommand_srcEpoch (c : Word) (s : State) : (acceptCommand c s).srcEpoch = s.srcEpoch := rfl
@[simp] theorem acceptCommand_tabEpoch (c : Word) (s : State) : (acceptCommand c s).tabEpoch = s.tabEpoch := rfl

/-! ### What dropping a command (R115) makes of each field -/

@[simp] theorem dropCommand_ie (s : State) : (dropCommand s).ie = s.ie := rfl
@[simp] theorem dropCommand_lastCmd (s : State) : (dropCommand s).lastCmd = s.lastCmd := rfl
@[simp] theorem dropCommand_curCmd (s : State) : (dropCommand s).curCmd = s.curCmd := rfl
@[simp] theorem dropCommand_curArg (s : State) : (dropCommand s).curArg = s.curArg := rfl
@[simp] theorem dropCommand_engState (s : State) : (dropCommand s).engState = s.engState := rfl
@[simp] theorem dropCommand_done (s : State) : (dropCommand s).done = s.done := rfl
@[simp] theorem dropCommand_err (s : State) : (dropCommand s).err = s.err := rfl
@[simp] theorem dropCommand_cmdDropped (s : State) : (dropCommand s).cmdDropped = true := rfl
@[simp] theorem dropCommand_wrDropped (s : State) : (dropCommand s).wrDropped = s.wrDropped := rfl
@[simp] theorem dropCommand_busErr (s : State) : (dropCommand s).busErr = s.busErr := rfl
@[simp] theorem dropCommand_faultInfo (s : State) : (dropCommand s).faultInfo = s.faultInfo := rfl
@[simp] theorem dropCommand_alphaLen (s : State) : (dropCommand s).alphaLen = s.alphaLen := rfl
@[simp] theorem dropCommand_valid (s : State) : (dropCommand s).valid = s.valid := rfl
@[simp] theorem dropCommand_hufState (s : State) : (dropCommand s).hufState = s.hufState := rfl
@[simp] theorem dropCommand_wcnt (s : State) : (dropCommand s).wcnt = s.wcnt := rfl
@[simp] theorem dropCommand_nodeCnt (s : State) : (dropCommand s).nodeCnt = s.nodeCnt := rfl
@[simp] theorem dropCommand_hufRoot (s : State) : (dropCommand s).hufRoot = s.hufRoot := rfl
@[simp] theorem dropCommand_encValid (s : State) : (dropCommand s).encValid = s.encValid := rfl
@[simp] theorem dropCommand_trunc (s : State) : (dropCommand s).trunc = s.trunc := rfl
@[simp] theorem dropCommand_lastCb (s : State) : (dropCommand s).lastCb = s.lastCb := rfl
@[simp] theorem dropCommand_encLen (s : State) : (dropCommand s).encLen = s.encLen := rfl
@[simp] theorem dropCommand_statSumbits (s : State) : (dropCommand s).statSumbits = s.statSumbits := rfl
@[simp] theorem dropCommand_arg (s : State) : (dropCommand s).arg = s.arg := rfl
@[simp] theorem dropCommand_result (s : State) : (dropCommand s).result = s.result := rfl
@[simp] theorem dropCommand_src (s : State) : (dropCommand s).src = s.src := rfl
@[simp] theorem dropCommand_alpha (s : State) : (dropCommand s).alpha = s.alpha := rfl
@[simp] theorem dropCommand_node (s : State) : (dropCommand s).node = s.node := rfl
@[simp] theorem dropCommand_wq (s : State) : (dropCommand s).wq = s.wq := rfl
@[simp] theorem dropCommand_cb (s : State) : (dropCommand s).cb = s.cb := rfl
@[simp] theorem dropCommand_out (s : State) : (dropCommand s).out = s.out := rfl
@[simp] theorem dropCommand_hist (s : State) : (dropCommand s).hist = s.hist := rfl
@[simp] theorem dropCommand_min1 (s : State) : (dropCommand s).min1 = s.min1 := rfl
@[simp] theorem dropCommand_min2 (s : State) : (dropCommand s).min2 = s.min2 := rfl
@[simp] theorem dropCommand_params (s : State) : (dropCommand s).params = s.params := rfl
@[simp] theorem dropCommand_agenda (s : State) : (dropCommand s).agenda = s.agenda := rfl
@[simp] theorem dropCommand_response (s : State) : (dropCommand s).response = s.response := rfl
@[simp] theorem dropCommand_draws (s : State) : (dropCommand s).draws = s.draws := rfl
@[simp] theorem dropCommand_resetHeld (s : State) : (dropCommand s).resetHeld = s.resetHeld := rfl
@[simp] theorem dropCommand_srcEpoch (s : State) : (dropCommand s).srcEpoch = s.srcEpoch := rfl
@[simp] theorem dropCommand_tabEpoch (s : State) : (dropCommand s).tabEpoch = s.tabEpoch := rfl

/-! ### What a reset (R52) makes of each field -/

@[simp] theorem clearAll_ie (s : State) : (clearAll s).ie = false := rfl
@[simp] theorem clearAll_lastCmd (s : State) : (clearAll s).lastCmd = 0 := rfl
@[simp] theorem clearAll_curCmd (s : State) : (clearAll s).curCmd = 0 := rfl
@[simp] theorem clearAll_curArg (s : State) : (clearAll s).curArg = 0 := rfl
@[simp] theorem clearAll_engState (s : State) : (clearAll s).engState = .idle := rfl
@[simp] theorem clearAll_done (s : State) : (clearAll s).done = false := rfl
@[simp] theorem clearAll_err (s : State) : (clearAll s).err = .none := rfl
@[simp] theorem clearAll_cmdDropped (s : State) : (clearAll s).cmdDropped = false := rfl
@[simp] theorem clearAll_wrDropped (s : State) : (clearAll s).wrDropped = false := rfl
@[simp] theorem clearAll_busErr (s : State) : (clearAll s).busErr = false := rfl
@[simp] theorem clearAll_faultInfo (s : State) : (clearAll s).faultInfo = 0 := rfl
@[simp] theorem clearAll_alphaLen (s : State) : (clearAll s).alphaLen = 0 := rfl
@[simp] theorem clearAll_valid (s : State) : (clearAll s).valid = PerBook.all false := rfl
@[simp] theorem clearAll_hufState (s : State) : (clearAll s).hufState = .empty := rfl
@[simp] theorem clearAll_wcnt (s : State) : (clearAll s).wcnt = 0 := rfl
@[simp] theorem clearAll_nodeCnt (s : State) : (clearAll s).nodeCnt = 0 := rfl
@[simp] theorem clearAll_hufRoot (s : State) : (clearAll s).hufRoot = 0 := rfl
@[simp] theorem clearAll_encValid (s : State) : (clearAll s).encValid = PerBook.all false := rfl
@[simp] theorem clearAll_trunc (s : State) : (clearAll s).trunc = false := rfl
@[simp] theorem clearAll_lastCb (s : State) : (clearAll s).lastCb = .fixed := rfl
@[simp] theorem clearAll_encLen (s : State) : (clearAll s).encLen = PerBook.all 0 := rfl
@[simp] theorem clearAll_statSumbits (s : State) : (clearAll s).statSumbits = 0 := rfl
@[simp] theorem clearAll_arg (s : State) : (clearAll s).arg = 0 := rfl
@[simp] theorem clearAll_result (s : State) : (clearAll s).result = 0 := rfl
@[simp] theorem clearAll_src (s : State) : (clearAll s).src = s.src := rfl
@[simp] theorem clearAll_alpha (s : State) : (clearAll s).alpha = [] := rfl
@[simp] theorem clearAll_node (s : State) : (clearAll s).node = [] := rfl
@[simp] theorem clearAll_wq (s : State) : (clearAll s).wq = [] := rfl
@[simp] theorem clearAll_cb (s : State) : (clearAll s).cb = PerBook.all [] := rfl
@[simp] theorem clearAll_out (s : State) : (clearAll s).out = [] := rfl
@[simp] theorem clearAll_hist (s : State) : (clearAll s).hist = [] := rfl
@[simp] theorem clearAll_min1 (s : State) : (clearAll s).min1 = Config.scanAtReset (s.tabEpoch + 1) 0 := rfl
@[simp] theorem clearAll_min2 (s : State) : (clearAll s).min2 = Config.scanAtReset (s.tabEpoch + 1) 1 := rfl
@[simp] theorem clearAll_params (s : State) : (clearAll s).params = s.params := rfl
@[simp] theorem clearAll_agenda (s : State) : (clearAll s).agenda = s.agenda := rfl
@[simp] theorem clearAll_response (s : State) : (clearAll s).response = s.response := rfl
@[simp] theorem clearAll_draws (s : State) : (clearAll s).draws = s.draws := rfl
@[simp] theorem clearAll_resetHeld (s : State) : (clearAll s).resetHeld = s.resetHeld := rfl
@[simp] theorem clearAll_srcEpoch (s : State) : (clearAll s).srcEpoch = s.srcEpoch := rfl
@[simp] theorem clearAll_tabEpoch (s : State) : (clearAll s).tabEpoch = s.tabEpoch + 1 := rfl

/-! ### What the invalidation of BUILD_ALPHA (R133) makes of each field -/

@[simp] theorem invalidateBuilt_ie (s : State) : (invalidateBuilt s).ie = s.ie := rfl
@[simp] theorem invalidateBuilt_lastCmd (s : State) : (invalidateBuilt s).lastCmd = s.lastCmd := rfl
@[simp] theorem invalidateBuilt_curCmd (s : State) : (invalidateBuilt s).curCmd = s.curCmd := rfl
@[simp] theorem invalidateBuilt_curArg (s : State) : (invalidateBuilt s).curArg = s.curArg := rfl
@[simp] theorem invalidateBuilt_engState (s : State) : (invalidateBuilt s).engState = s.engState := rfl
@[simp] theorem invalidateBuilt_done (s : State) : (invalidateBuilt s).done = s.done := rfl
@[simp] theorem invalidateBuilt_err (s : State) : (invalidateBuilt s).err = s.err := rfl
@[simp] theorem invalidateBuilt_cmdDropped (s : State) : (invalidateBuilt s).cmdDropped = s.cmdDropped := rfl
@[simp] theorem invalidateBuilt_wrDropped (s : State) : (invalidateBuilt s).wrDropped = s.wrDropped := rfl
@[simp] theorem invalidateBuilt_busErr (s : State) : (invalidateBuilt s).busErr = s.busErr := rfl
@[simp] theorem invalidateBuilt_faultInfo (s : State) : (invalidateBuilt s).faultInfo = s.faultInfo := rfl
@[simp] theorem invalidateBuilt_alphaLen (s : State) : (invalidateBuilt s).alphaLen = s.alphaLen := rfl
@[simp] theorem invalidateBuilt_valid (s : State) : (invalidateBuilt s).valid = PerBook.all false := rfl
@[simp] theorem invalidateBuilt_hufState (s : State) : (invalidateBuilt s).hufState = .empty := rfl
@[simp] theorem invalidateBuilt_wcnt (s : State) : (invalidateBuilt s).wcnt = 0 := rfl
@[simp] theorem invalidateBuilt_nodeCnt (s : State) : (invalidateBuilt s).nodeCnt = 0 := rfl
@[simp] theorem invalidateBuilt_hufRoot (s : State) : (invalidateBuilt s).hufRoot = 0 := rfl
@[simp] theorem invalidateBuilt_encValid (s : State) : (invalidateBuilt s).encValid = PerBook.all false := rfl
@[simp] theorem invalidateBuilt_trunc (s : State) : (invalidateBuilt s).trunc = false := rfl
@[simp] theorem invalidateBuilt_lastCb (s : State) : (invalidateBuilt s).lastCb = s.lastCb := rfl
@[simp] theorem invalidateBuilt_encLen (s : State) : (invalidateBuilt s).encLen = s.encLen := rfl
@[simp] theorem invalidateBuilt_statSumbits (s : State) : (invalidateBuilt s).statSumbits = s.statSumbits := rfl
@[simp] theorem invalidateBuilt_arg (s : State) : (invalidateBuilt s).arg = s.arg := rfl
@[simp] theorem invalidateBuilt_result (s : State) : (invalidateBuilt s).result = s.result := rfl
@[simp] theorem invalidateBuilt_src (s : State) : (invalidateBuilt s).src = s.src := rfl
@[simp] theorem invalidateBuilt_alpha (s : State) : (invalidateBuilt s).alpha = s.alpha := rfl
@[simp] theorem invalidateBuilt_node (s : State) : (invalidateBuilt s).node = s.node := rfl
@[simp] theorem invalidateBuilt_wq (s : State) : (invalidateBuilt s).wq = s.wq := rfl
@[simp] theorem invalidateBuilt_cb (s : State) : (invalidateBuilt s).cb = s.cb := rfl
@[simp] theorem invalidateBuilt_out (s : State) : (invalidateBuilt s).out = s.out := rfl
@[simp] theorem invalidateBuilt_hist (s : State) : (invalidateBuilt s).hist = s.hist := rfl
@[simp] theorem invalidateBuilt_min1 (s : State) : (invalidateBuilt s).min1 = s.min1 := rfl
@[simp] theorem invalidateBuilt_min2 (s : State) : (invalidateBuilt s).min2 = s.min2 := rfl
@[simp] theorem invalidateBuilt_params (s : State) : (invalidateBuilt s).params = s.params := rfl
@[simp] theorem invalidateBuilt_agenda (s : State) : (invalidateBuilt s).agenda = s.agenda := rfl
@[simp] theorem invalidateBuilt_response (s : State) : (invalidateBuilt s).response = s.response := rfl
@[simp] theorem invalidateBuilt_draws (s : State) : (invalidateBuilt s).draws = s.draws := rfl
@[simp] theorem invalidateBuilt_resetHeld (s : State) : (invalidateBuilt s).resetHeld = s.resetHeld := rfl
@[simp] theorem invalidateBuilt_srcEpoch (s : State) : (invalidateBuilt s).srcEpoch = s.srcEpoch := rfl
@[simp] theorem invalidateBuilt_tabEpoch (s : State) : (invalidateBuilt s).tabEpoch = s.tabEpoch := rfl

/-! ### What the new alphabet (R86) makes of each field -/

@[simp] theorem installAlphabet_ie (h : Store Freq) (s : State) : (installAlphabet h s).ie = s.ie := rfl
@[simp] theorem installAlphabet_lastCmd (h : Store Freq) (s : State) : (installAlphabet h s).lastCmd = s.lastCmd := rfl
@[simp] theorem installAlphabet_curCmd (h : Store Freq) (s : State) : (installAlphabet h s).curCmd = s.curCmd := rfl
@[simp] theorem installAlphabet_curArg (h : Store Freq) (s : State) : (installAlphabet h s).curArg = s.curArg := rfl
@[simp] theorem installAlphabet_engState (h : Store Freq) (s : State) : (installAlphabet h s).engState = s.engState := rfl
@[simp] theorem installAlphabet_done (h : Store Freq) (s : State) : (installAlphabet h s).done = s.done := rfl
@[simp] theorem installAlphabet_err (h : Store Freq) (s : State) : (installAlphabet h s).err = s.err := rfl
@[simp] theorem installAlphabet_cmdDropped (h : Store Freq) (s : State) : (installAlphabet h s).cmdDropped = s.cmdDropped := rfl
@[simp] theorem installAlphabet_wrDropped (h : Store Freq) (s : State) : (installAlphabet h s).wrDropped = s.wrDropped := rfl
@[simp] theorem installAlphabet_busErr (h : Store Freq) (s : State) : (installAlphabet h s).busErr = s.busErr := rfl
@[simp] theorem installAlphabet_faultInfo (h : Store Freq) (s : State) : (installAlphabet h s).faultInfo = s.faultInfo := rfl
@[simp] theorem installAlphabet_alphaLen (h : Store Freq) (s : State) : (installAlphabet h s).alphaLen = BitVec.ofNat 9 (alphabetOf h).length := rfl
@[simp] theorem installAlphabet_valid (h : Store Freq) (s : State) : (installAlphabet h s).valid = s.valid := rfl
@[simp] theorem installAlphabet_hufState (h : Store Freq) (s : State) : (installAlphabet h s).hufState = s.hufState := rfl
@[simp] theorem installAlphabet_wcnt (h : Store Freq) (s : State) : (installAlphabet h s).wcnt = s.wcnt := rfl
@[simp] theorem installAlphabet_nodeCnt (h : Store Freq) (s : State) : (installAlphabet h s).nodeCnt = s.nodeCnt := rfl
@[simp] theorem installAlphabet_hufRoot (h : Store Freq) (s : State) : (installAlphabet h s).hufRoot = s.hufRoot := rfl
@[simp] theorem installAlphabet_encValid (h : Store Freq) (s : State) : (installAlphabet h s).encValid = s.encValid := rfl
@[simp] theorem installAlphabet_trunc (h : Store Freq) (s : State) : (installAlphabet h s).trunc = s.trunc := rfl
@[simp] theorem installAlphabet_lastCb (h : Store Freq) (s : State) : (installAlphabet h s).lastCb = s.lastCb := rfl
@[simp] theorem installAlphabet_encLen (h : Store Freq) (s : State) : (installAlphabet h s).encLen = s.encLen := rfl
@[simp] theorem installAlphabet_statSumbits (h : Store Freq) (s : State) : (installAlphabet h s).statSumbits = s.statSumbits := rfl
@[simp] theorem installAlphabet_arg (h : Store Freq) (s : State) : (installAlphabet h s).arg = s.arg := rfl
@[simp] theorem installAlphabet_result (h : Store Freq) (s : State) : (installAlphabet h s).result = s.result := rfl
@[simp] theorem installAlphabet_src (h : Store Freq) (s : State) : (installAlphabet h s).src = s.src := rfl
@[simp] theorem installAlphabet_alpha (h : Store Freq) (s : State) : (installAlphabet h s).alpha = Store.setFrom s.alpha 0 (alphabetOf h) := rfl
@[simp] theorem installAlphabet_node (h : Store Freq) (s : State) : (installAlphabet h s).node = s.node := rfl
@[simp] theorem installAlphabet_wq (h : Store Freq) (s : State) : (installAlphabet h s).wq = s.wq := rfl
@[simp] theorem installAlphabet_cb (h : Store Freq) (s : State) : (installAlphabet h s).cb = s.cb := rfl
@[simp] theorem installAlphabet_out (h : Store Freq) (s : State) : (installAlphabet h s).out = s.out := rfl
@[simp] theorem installAlphabet_hist (h : Store Freq) (s : State) : (installAlphabet h s).hist = h := rfl
@[simp] theorem installAlphabet_min1 (h : Store Freq) (s : State) : (installAlphabet h s).min1 = s.min1 := rfl
@[simp] theorem installAlphabet_min2 (h : Store Freq) (s : State) : (installAlphabet h s).min2 = s.min2 := rfl
@[simp] theorem installAlphabet_params (h : Store Freq) (s : State) : (installAlphabet h s).params = s.params := rfl
@[simp] theorem installAlphabet_agenda (h : Store Freq) (s : State) : (installAlphabet h s).agenda = s.agenda := rfl
@[simp] theorem installAlphabet_response (h : Store Freq) (s : State) : (installAlphabet h s).response = s.response := rfl
@[simp] theorem installAlphabet_draws (h : Store Freq) (s : State) : (installAlphabet h s).draws = s.draws := rfl
@[simp] theorem installAlphabet_resetHeld (h : Store Freq) (s : State) : (installAlphabet h s).resetHeld = s.resetHeld := rfl
@[simp] theorem installAlphabet_srcEpoch (h : Store Freq) (s : State) : (installAlphabet h s).srcEpoch = s.srcEpoch := rfl
@[simp] theorem installAlphabet_tabEpoch (h : Store Freq) (s : State) : (installAlphabet h s).tabEpoch = s.tabEpoch := rfl

/-! ### What HUF_INIT's body (R100) makes of each field -/

@[simp] theorem hufInitBody_ie (s : State) : (hufInitBody s).ie = s.ie := rfl
@[simp] theorem hufInitBody_lastCmd (s : State) : (hufInitBody s).lastCmd = s.lastCmd := rfl
@[simp] theorem hufInitBody_curCmd (s : State) : (hufInitBody s).curCmd = s.curCmd := rfl
@[simp] theorem hufInitBody_curArg (s : State) : (hufInitBody s).curArg = s.curArg := rfl
@[simp] theorem hufInitBody_engState (s : State) : (hufInitBody s).engState = s.engState := rfl
@[simp] theorem hufInitBody_done (s : State) : (hufInitBody s).done = s.done := rfl
@[simp] theorem hufInitBody_err (s : State) : (hufInitBody s).err = s.err := rfl
@[simp] theorem hufInitBody_cmdDropped (s : State) : (hufInitBody s).cmdDropped = s.cmdDropped := rfl
@[simp] theorem hufInitBody_wrDropped (s : State) : (hufInitBody s).wrDropped = s.wrDropped := rfl
@[simp] theorem hufInitBody_busErr (s : State) : (hufInitBody s).busErr = s.busErr := rfl
@[simp] theorem hufInitBody_faultInfo (s : State) : (hufInitBody s).faultInfo = s.faultInfo := rfl
@[simp] theorem hufInitBody_alphaLen (s : State) : (hufInitBody s).alphaLen = s.alphaLen := rfl
@[simp] theorem hufInitBody_valid (s : State) : (hufInitBody s).valid = s.valid := rfl
@[simp] theorem hufInitBody_hufState (s : State) : (hufInitBody s).hufState = .active := rfl
@[simp] theorem hufInitBody_wcnt (s : State) : (hufInitBody s).wcnt = s.alphaLen := rfl
@[simp] theorem hufInitBody_nodeCnt (s : State) : (hufInitBody s).nodeCnt = s.alphaLen := rfl
@[simp] theorem hufInitBody_hufRoot (s : State) : (hufInitBody s).hufRoot = 0 := rfl
@[simp] theorem hufInitBody_encValid (s : State) : (hufInitBody s).encValid = s.encValid := rfl
@[simp] theorem hufInitBody_trunc (s : State) : (hufInitBody s).trunc = s.trunc := rfl
@[simp] theorem hufInitBody_lastCb (s : State) : (hufInitBody s).lastCb = s.lastCb := rfl
@[simp] theorem hufInitBody_encLen (s : State) : (hufInitBody s).encLen = s.encLen := rfl
@[simp] theorem hufInitBody_statSumbits (s : State) : (hufInitBody s).statSumbits = s.statSumbits := rfl
@[simp] theorem hufInitBody_arg (s : State) : (hufInitBody s).arg = s.arg := rfl
@[simp] theorem hufInitBody_result (s : State) : (hufInitBody s).result = s.result := rfl
@[simp] theorem hufInitBody_src (s : State) : (hufInitBody s).src = s.src := rfl
@[simp] theorem hufInitBody_alpha (s : State) : (hufInitBody s).alpha = s.alpha := rfl
@[simp] theorem hufInitBody_node (s : State) : (hufInitBody s).node = Store.setFrom s.node 0 (leavesOf s) := rfl
@[simp] theorem hufInitBody_wq (s : State) : (hufInitBody s).wq = Store.setFrom s.wq 0 ((List.range s.alphaLen.toNat).map (BitVec.ofNat 9)) := rfl
@[simp] theorem hufInitBody_cb (s : State) : (hufInitBody s).cb = s.cb := rfl
@[simp] theorem hufInitBody_out (s : State) : (hufInitBody s).out = s.out := rfl
@[simp] theorem hufInitBody_hist (s : State) : (hufInitBody s).hist = s.hist := rfl
@[simp] theorem hufInitBody_min1 (s : State) : (hufInitBody s).min1 = s.min1 := rfl
@[simp] theorem hufInitBody_min2 (s : State) : (hufInitBody s).min2 = s.min2 := rfl
@[simp] theorem hufInitBody_params (s : State) : (hufInitBody s).params = s.params := rfl
@[simp] theorem hufInitBody_agenda (s : State) : (hufInitBody s).agenda = s.agenda := rfl
@[simp] theorem hufInitBody_response (s : State) : (hufInitBody s).response = s.response := rfl
@[simp] theorem hufInitBody_draws (s : State) : (hufInitBody s).draws = s.draws := rfl
@[simp] theorem hufInitBody_resetHeld (s : State) : (hufInitBody s).resetHeld = s.resetHeld := rfl
@[simp] theorem hufInitBody_srcEpoch (s : State) : (hufInitBody s).srcEpoch = s.srcEpoch := rfl
@[simp] theorem hufInitBody_tabEpoch (s : State) : (hufInitBody s).tabEpoch = s.tabEpoch := rfl

/-! ### What one merge (R102) makes of each field -/

@[simp] theorem mergeAt_ie (a b : Nat) (s : State) : (mergeAt a b s).ie = s.ie := rfl
@[simp] theorem mergeAt_lastCmd (a b : Nat) (s : State) : (mergeAt a b s).lastCmd = s.lastCmd := rfl
@[simp] theorem mergeAt_curCmd (a b : Nat) (s : State) : (mergeAt a b s).curCmd = s.curCmd := rfl
@[simp] theorem mergeAt_curArg (a b : Nat) (s : State) : (mergeAt a b s).curArg = s.curArg := rfl
@[simp] theorem mergeAt_engState (a b : Nat) (s : State) : (mergeAt a b s).engState = s.engState := rfl
@[simp] theorem mergeAt_done (a b : Nat) (s : State) : (mergeAt a b s).done = s.done := rfl
@[simp] theorem mergeAt_err (a b : Nat) (s : State) : (mergeAt a b s).err = s.err := rfl
@[simp] theorem mergeAt_cmdDropped (a b : Nat) (s : State) : (mergeAt a b s).cmdDropped = s.cmdDropped := rfl
@[simp] theorem mergeAt_wrDropped (a b : Nat) (s : State) : (mergeAt a b s).wrDropped = s.wrDropped := rfl
@[simp] theorem mergeAt_busErr (a b : Nat) (s : State) : (mergeAt a b s).busErr = s.busErr := rfl
@[simp] theorem mergeAt_faultInfo (a b : Nat) (s : State) : (mergeAt a b s).faultInfo = s.faultInfo := rfl
@[simp] theorem mergeAt_alphaLen (a b : Nat) (s : State) : (mergeAt a b s).alphaLen = s.alphaLen := rfl
@[simp] theorem mergeAt_valid (a b : Nat) (s : State) : (mergeAt a b s).valid = s.valid := rfl
@[simp] theorem mergeAt_hufState (a b : Nat) (s : State) : (mergeAt a b s).hufState = s.hufState := rfl
@[simp] theorem mergeAt_wcnt (a b : Nat) (s : State) : (mergeAt a b s).wcnt = s.wcnt - 1 := rfl
@[simp] theorem mergeAt_nodeCnt (a b : Nat) (s : State) : (mergeAt a b s).nodeCnt = s.nodeCnt + 1 := rfl
@[simp] theorem mergeAt_hufRoot (a b : Nat) (s : State) : (mergeAt a b s).hufRoot = s.hufRoot := rfl
@[simp] theorem mergeAt_encValid (a b : Nat) (s : State) : (mergeAt a b s).encValid = s.encValid := rfl
@[simp] theorem mergeAt_trunc (a b : Nat) (s : State) : (mergeAt a b s).trunc = s.trunc := rfl
@[simp] theorem mergeAt_lastCb (a b : Nat) (s : State) : (mergeAt a b s).lastCb = s.lastCb := rfl
@[simp] theorem mergeAt_encLen (a b : Nat) (s : State) : (mergeAt a b s).encLen = s.encLen := rfl
@[simp] theorem mergeAt_statSumbits (a b : Nat) (s : State) : (mergeAt a b s).statSumbits = s.statSumbits := rfl
@[simp] theorem mergeAt_arg (a b : Nat) (s : State) : (mergeAt a b s).arg = s.arg := rfl
@[simp] theorem mergeAt_result (a b : Nat) (s : State) : (mergeAt a b s).result = s.result := rfl
@[simp] theorem mergeAt_src (a b : Nat) (s : State) : (mergeAt a b s).src = s.src := rfl
@[simp] theorem mergeAt_alpha (a b : Nat) (s : State) : (mergeAt a b s).alpha = s.alpha := rfl
@[simp] theorem mergeAt_node (a b : Nat) (s : State) : (mergeAt a b s).node = Store.set s.node s.nodeCnt.toNat (.internal (s.weightAt a + s.weightAt b) (s.wqAt a) (s.wqAt b)) := rfl
@[simp] theorem mergeAt_wq (a b : Nat) (s : State) : (mergeAt a b s).wq = Store.set (queueRemoveTwo (Config.wqAtReset s.tabEpoch) s.wq s.wcnt.toNat a b) (s.wcnt.toNat - 2) s.nodeCnt := rfl
@[simp] theorem mergeAt_cb (a b : Nat) (s : State) : (mergeAt a b s).cb = s.cb := rfl
@[simp] theorem mergeAt_out (a b : Nat) (s : State) : (mergeAt a b s).out = s.out := rfl
@[simp] theorem mergeAt_hist (a b : Nat) (s : State) : (mergeAt a b s).hist = s.hist := rfl
@[simp] theorem mergeAt_min1 (a b : Nat) (s : State) : (mergeAt a b s).min1 = BitVec.ofNat 8 a := rfl
@[simp] theorem mergeAt_min2 (a b : Nat) (s : State) : (mergeAt a b s).min2 = BitVec.ofNat 8 b := rfl
@[simp] theorem mergeAt_params (a b : Nat) (s : State) : (mergeAt a b s).params = s.params := rfl
@[simp] theorem mergeAt_agenda (a b : Nat) (s : State) : (mergeAt a b s).agenda = s.agenda := rfl
@[simp] theorem mergeAt_response (a b : Nat) (s : State) : (mergeAt a b s).response = s.response := rfl
@[simp] theorem mergeAt_draws (a b : Nat) (s : State) : (mergeAt a b s).draws = s.draws := rfl
@[simp] theorem mergeAt_resetHeld (a b : Nat) (s : State) : (mergeAt a b s).resetHeld = s.resetHeld := rfl
@[simp] theorem mergeAt_srcEpoch (a b : Nat) (s : State) : (mergeAt a b s).srcEpoch = s.srcEpoch := rfl
@[simp] theorem mergeAt_tabEpoch (a b : Nat) (s : State) : (mergeAt a b s).tabEpoch = s.tabEpoch := rfl

/-! ### What HUF_EXTRACT's body (R103) makes of each field -/

@[simp] theorem hufExtractBody_ie (s : State) : (hufExtractBody s).ie = s.ie := rfl
@[simp] theorem hufExtractBody_lastCmd (s : State) : (hufExtractBody s).lastCmd = s.lastCmd := rfl
@[simp] theorem hufExtractBody_curCmd (s : State) : (hufExtractBody s).curCmd = s.curCmd := rfl
@[simp] theorem hufExtractBody_curArg (s : State) : (hufExtractBody s).curArg = s.curArg := rfl
@[simp] theorem hufExtractBody_engState (s : State) : (hufExtractBody s).engState = s.engState := rfl
@[simp] theorem hufExtractBody_done (s : State) : (hufExtractBody s).done = s.done := rfl
@[simp] theorem hufExtractBody_err (s : State) : (hufExtractBody s).err = s.err := rfl
@[simp] theorem hufExtractBody_cmdDropped (s : State) : (hufExtractBody s).cmdDropped = s.cmdDropped := rfl
@[simp] theorem hufExtractBody_wrDropped (s : State) : (hufExtractBody s).wrDropped = s.wrDropped := rfl
@[simp] theorem hufExtractBody_busErr (s : State) : (hufExtractBody s).busErr = s.busErr := rfl
@[simp] theorem hufExtractBody_faultInfo (s : State) : (hufExtractBody s).faultInfo = s.faultInfo := rfl
@[simp] theorem hufExtractBody_alphaLen (s : State) : (hufExtractBody s).alphaLen = s.alphaLen := rfl
@[simp] theorem hufExtractBody_valid (s : State) : (hufExtractBody s).valid = s.valid.set .huffman true := rfl
@[simp] theorem hufExtractBody_hufState (s : State) : (hufExtractBody s).hufState = .extracted := rfl
@[simp] theorem hufExtractBody_wcnt (s : State) : (hufExtractBody s).wcnt = s.wcnt := rfl
@[simp] theorem hufExtractBody_nodeCnt (s : State) : (hufExtractBody s).nodeCnt = s.nodeCnt := rfl
@[simp] theorem hufExtractBody_hufRoot (s : State) : (hufExtractBody s).hufRoot = s.wqAt 0 := rfl
@[simp] theorem hufExtractBody_encValid (s : State) : (hufExtractBody s).encValid = s.encValid := rfl
@[simp] theorem hufExtractBody_trunc (s : State) : (hufExtractBody s).trunc = s.trunc := rfl
@[simp] theorem hufExtractBody_lastCb (s : State) : (hufExtractBody s).lastCb = s.lastCb := rfl
@[simp] theorem hufExtractBody_encLen (s : State) : (hufExtractBody s).encLen = s.encLen := rfl
@[simp] theorem hufExtractBody_statSumbits (s : State) : (hufExtractBody s).statSumbits = s.statSumbits := rfl
@[simp] theorem hufExtractBody_arg (s : State) : (hufExtractBody s).arg = s.arg := rfl
@[simp] theorem hufExtractBody_result (s : State) : (hufExtractBody s).result = s.result := rfl
@[simp] theorem hufExtractBody_src (s : State) : (hufExtractBody s).src = s.src := rfl
@[simp] theorem hufExtractBody_alpha (s : State) : (hufExtractBody s).alpha = s.alpha := rfl
@[simp] theorem hufExtractBody_node (s : State) : (hufExtractBody s).node = s.node := rfl
@[simp] theorem hufExtractBody_wq (s : State) : (hufExtractBody s).wq = s.wq := rfl
@[simp] theorem hufExtractBody_cb (s : State) : (hufExtractBody s).cb = s.cb.set .huffman (hufWalk s ((s.wqAt 0).toNat + 1) (s.wqAt 0) [] (s.cb.get .huffman)) := rfl
@[simp] theorem hufExtractBody_out (s : State) : (hufExtractBody s).out = s.out := rfl
@[simp] theorem hufExtractBody_hist (s : State) : (hufExtractBody s).hist = s.hist := rfl
@[simp] theorem hufExtractBody_min1 (s : State) : (hufExtractBody s).min1 = s.min1 := rfl
@[simp] theorem hufExtractBody_min2 (s : State) : (hufExtractBody s).min2 = s.min2 := rfl
@[simp] theorem hufExtractBody_params (s : State) : (hufExtractBody s).params = s.params := rfl
@[simp] theorem hufExtractBody_agenda (s : State) : (hufExtractBody s).agenda = s.agenda := rfl
@[simp] theorem hufExtractBody_response (s : State) : (hufExtractBody s).response = s.response := rfl
@[simp] theorem hufExtractBody_draws (s : State) : (hufExtractBody s).draws = s.draws := rfl
@[simp] theorem hufExtractBody_resetHeld (s : State) : (hufExtractBody s).resetHeld = s.resetHeld := rfl
@[simp] theorem hufExtractBody_srcEpoch (s : State) : (hufExtractBody s).srcEpoch = s.srcEpoch := rfl
@[simp] theorem hufExtractBody_tabEpoch (s : State) : (hufExtractBody s).tabEpoch = s.tabEpoch := rfl

/-! ### What a successful ENCODE's assignments (R108) makes of each field -/

@[simp] theorem storeStream_ie (k : Book) (w : Chars) (s : State) : (storeStream k w s).ie = s.ie := rfl
@[simp] theorem storeStream_lastCmd (k : Book) (w : Chars) (s : State) : (storeStream k w s).lastCmd = s.lastCmd := rfl
@[simp] theorem storeStream_curCmd (k : Book) (w : Chars) (s : State) : (storeStream k w s).curCmd = s.curCmd := rfl
@[simp] theorem storeStream_curArg (k : Book) (w : Chars) (s : State) : (storeStream k w s).curArg = s.curArg := rfl
@[simp] theorem storeStream_engState (k : Book) (w : Chars) (s : State) : (storeStream k w s).engState = s.engState := rfl
@[simp] theorem storeStream_done (k : Book) (w : Chars) (s : State) : (storeStream k w s).done = s.done := rfl
@[simp] theorem storeStream_err (k : Book) (w : Chars) (s : State) : (storeStream k w s).err = s.err := rfl
@[simp] theorem storeStream_cmdDropped (k : Book) (w : Chars) (s : State) : (storeStream k w s).cmdDropped = s.cmdDropped := rfl
@[simp] theorem storeStream_wrDropped (k : Book) (w : Chars) (s : State) : (storeStream k w s).wrDropped = s.wrDropped := rfl
@[simp] theorem storeStream_busErr (k : Book) (w : Chars) (s : State) : (storeStream k w s).busErr = s.busErr := rfl
@[simp] theorem storeStream_faultInfo (k : Book) (w : Chars) (s : State) : (storeStream k w s).faultInfo = s.faultInfo := rfl
@[simp] theorem storeStream_alphaLen (k : Book) (w : Chars) (s : State) : (storeStream k w s).alphaLen = s.alphaLen := rfl
@[simp] theorem storeStream_valid (k : Book) (w : Chars) (s : State) : (storeStream k w s).valid = s.valid := rfl
@[simp] theorem storeStream_hufState (k : Book) (w : Chars) (s : State) : (storeStream k w s).hufState = s.hufState := rfl
@[simp] theorem storeStream_wcnt (k : Book) (w : Chars) (s : State) : (storeStream k w s).wcnt = s.wcnt := rfl
@[simp] theorem storeStream_nodeCnt (k : Book) (w : Chars) (s : State) : (storeStream k w s).nodeCnt = s.nodeCnt := rfl
@[simp] theorem storeStream_hufRoot (k : Book) (w : Chars) (s : State) : (storeStream k w s).hufRoot = s.hufRoot := rfl
@[simp] theorem storeStream_encValid (k : Book) (w : Chars) (s : State) : (storeStream k w s).encValid = s.encValid.set k true := rfl
@[simp] theorem storeStream_trunc (k : Book) (w : Chars) (s : State) : (storeStream k w s).trunc = decide (s.params.pOutBits < w.length) := rfl
@[simp] theorem storeStream_lastCb (k : Book) (w : Chars) (s : State) : (storeStream k w s).lastCb = k := rfl
@[simp] theorem storeStream_encLen (k : Book) (w : Chars) (s : State) : (storeStream k w s).encLen = s.encLen.set k (BitVec.ofNat 32 w.length) := rfl
@[simp] theorem storeStream_statSumbits (k : Book) (w : Chars) (s : State) : (storeStream k w s).statSumbits = s.statSumbits := rfl
@[simp] theorem storeStream_arg (k : Book) (w : Chars) (s : State) : (storeStream k w s).arg = s.arg := rfl
@[simp] theorem storeStream_result (k : Book) (w : Chars) (s : State) : (storeStream k w s).result = s.result := rfl
@[simp] theorem storeStream_src (k : Book) (w : Chars) (s : State) : (storeStream k w s).src = s.src := rfl
@[simp] theorem storeStream_alpha (k : Book) (w : Chars) (s : State) : (storeStream k w s).alpha = s.alpha := rfl
@[simp] theorem storeStream_node (k : Book) (w : Chars) (s : State) : (storeStream k w s).node = s.node := rfl
@[simp] theorem storeStream_wq (k : Book) (w : Chars) (s : State) : (storeStream k w s).wq = s.wq := rfl
@[simp] theorem storeStream_cb (k : Book) (w : Chars) (s : State) : (storeStream k w s).cb = s.cb := rfl
@[simp] theorem storeStream_out (k : Book) (w : Chars) (s : State) : (storeStream k w s).out = Store.setFrom s.out 0 (w.take s.params.pOutBits) := rfl
@[simp] theorem storeStream_hist (k : Book) (w : Chars) (s : State) : (storeStream k w s).hist = s.hist := rfl
@[simp] theorem storeStream_min1 (k : Book) (w : Chars) (s : State) : (storeStream k w s).min1 = s.min1 := rfl
@[simp] theorem storeStream_min2 (k : Book) (w : Chars) (s : State) : (storeStream k w s).min2 = s.min2 := rfl
@[simp] theorem storeStream_params (k : Book) (w : Chars) (s : State) : (storeStream k w s).params = s.params := rfl
@[simp] theorem storeStream_agenda (k : Book) (w : Chars) (s : State) : (storeStream k w s).agenda = s.agenda := rfl
@[simp] theorem storeStream_response (k : Book) (w : Chars) (s : State) : (storeStream k w s).response = s.response := rfl
@[simp] theorem storeStream_draws (k : Book) (w : Chars) (s : State) : (storeStream k w s).draws = s.draws := rfl
@[simp] theorem storeStream_resetHeld (k : Book) (w : Chars) (s : State) : (storeStream k w s).resetHeld = s.resetHeld := rfl
@[simp] theorem storeStream_srcEpoch (k : Book) (w : Chars) (s : State) : (storeStream k w s).srcEpoch = s.srcEpoch := rfl
@[simp] theorem storeStream_tabEpoch (k : Book) (w : Chars) (s : State) : (storeStream k w s).tabEpoch = s.tabEpoch := rfl

/-! ### What a bus error (R55) makes of each field -/

@[simp] theorem busError_ie (s : State) : (busError s).ie = s.ie := rfl
@[simp] theorem busError_lastCmd (s : State) : (busError s).lastCmd = s.lastCmd := rfl
@[simp] theorem busError_curCmd (s : State) : (busError s).curCmd = s.curCmd := rfl
@[simp] theorem busError_curArg (s : State) : (busError s).curArg = s.curArg := rfl
@[simp] theorem busError_engState (s : State) : (busError s).engState = s.engState := rfl
@[simp] theorem busError_done (s : State) : (busError s).done = s.done := rfl
@[simp] theorem busError_err (s : State) : (busError s).err = s.err := rfl
@[simp] theorem busError_cmdDropped (s : State) : (busError s).cmdDropped = s.cmdDropped := rfl
@[simp] theorem busError_wrDropped (s : State) : (busError s).wrDropped = s.wrDropped := rfl
@[simp] theorem busError_busErr (s : State) : (busError s).busErr = true := rfl
@[simp] theorem busError_faultInfo (s : State) : (busError s).faultInfo = s.faultInfo := rfl
@[simp] theorem busError_alphaLen (s : State) : (busError s).alphaLen = s.alphaLen := rfl
@[simp] theorem busError_valid (s : State) : (busError s).valid = s.valid := rfl
@[simp] theorem busError_hufState (s : State) : (busError s).hufState = s.hufState := rfl
@[simp] theorem busError_wcnt (s : State) : (busError s).wcnt = s.wcnt := rfl
@[simp] theorem busError_nodeCnt (s : State) : (busError s).nodeCnt = s.nodeCnt := rfl
@[simp] theorem busError_hufRoot (s : State) : (busError s).hufRoot = s.hufRoot := rfl
@[simp] theorem busError_encValid (s : State) : (busError s).encValid = s.encValid := rfl
@[simp] theorem busError_trunc (s : State) : (busError s).trunc = s.trunc := rfl
@[simp] theorem busError_lastCb (s : State) : (busError s).lastCb = s.lastCb := rfl
@[simp] theorem busError_encLen (s : State) : (busError s).encLen = s.encLen := rfl
@[simp] theorem busError_statSumbits (s : State) : (busError s).statSumbits = s.statSumbits := rfl
@[simp] theorem busError_arg (s : State) : (busError s).arg = s.arg := rfl
@[simp] theorem busError_result (s : State) : (busError s).result = s.result := rfl
@[simp] theorem busError_src (s : State) : (busError s).src = s.src := rfl
@[simp] theorem busError_alpha (s : State) : (busError s).alpha = s.alpha := rfl
@[simp] theorem busError_node (s : State) : (busError s).node = s.node := rfl
@[simp] theorem busError_wq (s : State) : (busError s).wq = s.wq := rfl
@[simp] theorem busError_cb (s : State) : (busError s).cb = s.cb := rfl
@[simp] theorem busError_out (s : State) : (busError s).out = s.out := rfl
@[simp] theorem busError_hist (s : State) : (busError s).hist = s.hist := rfl
@[simp] theorem busError_min1 (s : State) : (busError s).min1 = s.min1 := rfl
@[simp] theorem busError_min2 (s : State) : (busError s).min2 = s.min2 := rfl
@[simp] theorem busError_params (s : State) : (busError s).params = s.params := rfl
@[simp] theorem busError_agenda (s : State) : (busError s).agenda = s.agenda := rfl
@[simp] theorem busError_response (s : State) : (busError s).response = some ⟨true, 0⟩ := rfl
@[simp] theorem busError_draws (s : State) : (busError s).draws = s.draws := rfl
@[simp] theorem busError_resetHeld (s : State) : (busError s).resetHeld = s.resetHeld := rfl
@[simp] theorem busError_srcEpoch (s : State) : (busError s).srcEpoch = s.srcEpoch := rfl
@[simp] theorem busError_tabEpoch (s : State) : (busError s).tabEpoch = s.tabEpoch := rfl

end Sys2Proof.Machine
end

