-- ==== Sys2Proof/Laws/Builders.lean ====
section
/-! SUPPORT. The laws of the code builders' operations: the tally, the bisection, the selection scan, the removals of a merge, the
walk and the merge loop: what each does to the entries of its store, and that each keeps the canonical form and the bound. -/

namespace Sys2Proof.Machine

/-! ### The alphabet -/

/-- Every bucket of the tally is listed and holds its count (R86). -/
theorem get?_map_range {α : Type} (g : Nat → α) (n i : Nat) :
    Store.get? ((List.range n).map fun v => (v, g v)) i = if i < n then some (g i) else none := by
  have aux : ∀ (l : List Nat), Store.get? (l.map fun v => (v, g v)) i = if i ∈ l then some (g i) else none := by
    intro l
    induction l with
    | nil => rfl
    | cons a l ih =>
      rw [List.map_cons, Store.get?_cons, ih]
      by_cases h : i = a
      · subst h; simp
      · simp [h]
  rw [aux]; simp

theorem get?_histogram (bytes : List Byte) (v : Nat) :
    Store.get? (histogram bytes) v = if v < 256 then some (BitVec.ofNat 24 (bytes.count (BitVec.ofNat 8 v))) else none :=
  get?_map_range _ 256 v

/-- A store listed in the order of a rising list of indexes is in canonical form. -/
theorem wf_map_range' {α : Type} (g : Nat → α) (n : Nat) : ∀ i, Store.wf ((List.range' i n).map fun v => (v, g v)) = true := by
  induction n with
  | zero => intro i; rfl
  | succ n ih =>
    intro i
    cases n with
    | zero => rfl
    | succ n =>
      have h := ih (i + 1)
      simp only [List.range'_succ, List.map_cons] at h ⊢
      exact (Store.wf_cons_cons _ _ _ _ _).2 ⟨by omega, h⟩

/-- Every bucket of HIST after BUILD_ALPHA's tally (R48, R86). -/
theorem histAt_installAlphabet (bytes : List Byte) (s : State) {v : Nat} (h : v < 256) :
    (installAlphabet (histogram bytes) s).histAt v = BitVec.ofNat 24 (bytes.count (BitVec.ofNat 8 v)) := by
  simp [State.histAt, Store.getD, get?_histogram, h]

theorem wf_histogram (bytes : List Byte) : Store.wf (histogram bytes) = true := by
  unfold histogram; rw [List.range_eq_range']; exact wf_map_range' _ _ _

theorem below_histogram (bytes : List Byte) : Store.below (histogram bytes) 256 = true := by
  simp [Store.below, histogram]

/-- At most 256 entries (R12). -/
theorem alphabetOf_histogram_length (bytes : List Byte) : (alphabetOf (histogram bytes)).length ≤ 256 := by
  have h : (alphabetOf (histogram bytes)).length ≤ (histogram bytes).length := List.length_filterMap_le _ _
  simpa [histogram] using h

/-! ### The bisection -/

/-- Outside its range the bisection writes nothing (R96). -/
theorem get?_shannonSplit_outside (fuel : Nat) : ∀ (l r : Nat) (path : Chars) (m : Store Codeword) (i : Nat), (i < l ∨ r < i) →
    Store.get? (shannonSplit fuel l r path m) i = Store.get? m i := by
  induction fuel with
  | zero => intros; rfl
  | succ fuel ih =>
    intro l r path m i hi
    unfold shannonSplit
    split
    · rfl
    · split
      · next h => exact Store.get?_set_other m _ (by omega)
      · simp only []
        rw [ih _ _ _ _ _ (by omega), ih _ _ _ _ _ (by omega)]

theorem wf_shannonSplit (fuel : Nat) : ∀ (l r : Nat) (path : Chars) (m : Store Codeword), Store.wf m = true →
    Store.wf (shannonSplit fuel l r path m) = true := by
  induction fuel with
  | zero => intro _ _ _ _ h; exact h
  | succ fuel ih =>
    intro l r path m h
    unfold shannonSplit
    split
    · exact h
    · split
      · exact Store.wf_set m _ _ h
      · exact ih _ _ _ _ (ih _ _ _ _ h)

theorem below_shannonSplit (n fuel : Nat) : ∀ (l r : Nat) (path : Chars) (m : Store Codeword), r < n → Store.below m n = true →
    Store.below (shannonSplit fuel l r path m) n = true := by
  induction fuel with
  | zero => intro _ _ _ _ _ h; exact h
  | succ fuel ih =>
    intro l r path m hr h
    unfold shannonSplit
    split
    · exact h
    · split
      · next hlt heq => exact Store.below_set m _ (by omega) h
      · exact ih _ _ _ _ hr (ih _ _ _ _ (by omega) h)

/-! ### The selection scan -/

/-- One turn of the scan at a position beyond both found so far keeps two distinct positions below the next one (R101). -/
theorem scanTurn_bounds (w : Nat → Freq) (ab : Nat × Nat) (k : Nat) (ha : ab.1 < k) (hb : ab.2 < k) (hne : ab.1 ≠ ab.2) :
    (scanTurn w ab k).1 < k + 1 ∧ (scanTurn w ab k).2 < k + 1 ∧ (scanTurn w ab k).1 ≠ (scanTurn w ab k).2 := by
  unfold scanTurn
  split
  · exact ⟨by simp only; omega, by simp only; omega, by simp only; omega⟩
  · split
    · exact ⟨by simp only; omega, by simp only; omega, by simp only; omega⟩
    · exact ⟨by omega, by omega, hne⟩

/-- The scan over a range of positions, by the invariant its turns keep. -/
theorem foldl_scanTurn (w : Nat → Freq) (P : Nat → Nat × Nat → Prop)
    (hturn : ∀ k ab, P k ab → P (k + 1) (scanTurn w ab k)) (n : Nat) :
    ∀ k ab, P k ab → P (k + n) ((List.range' k n).foldl (scanTurn w) ab) := by
  induction n with
  | zero => intro k ab h; exact h
  | succ n ih =>
    intro k ab h
    rw [List.range'_succ, List.foldl_cons, show k + (n + 1) = (k + 1) + n by omega]
    exact ih (k + 1) _ (hturn k ab h)

/-- What holds of (0, 1) at position 2 and is kept by every turn holds of the selected pair (R101). -/
theorem selectScan_induction (w : Nat → Freq) (n : Nat) (hn : 2 ≤ n) (P : Nat → Nat × Nat → Prop) (h0 : P 2 (0, 1))
    (hturn : ∀ k ab, P k ab → P (k + 1) (scanTurn w ab k)) : P n (selectScan w n) := by
  have h := foldl_scanTurn w P hturn (n - 2) 2 (0, 1) h0
  rwa [show 2 + (n - 2) = n by omega] at h

/-! ### The removals of a merge -/

/-- Position by position, a removal moves every later id one place forward and leaves the rest (R102). -/
theorem getD_queueShift (free : Nat → NodeId) (n : Nat) : ∀ (m : Store NodeId) (p q : Nat),
    Store.getD ((List.range' p n).foldl (fun s j => Store.set s j (Store.getD s (j + 1) (free (j + 1)))) m) q (free q) =
      if p ≤ q ∧ q < p + n then Store.getD m (q + 1) (free (q + 1)) else Store.getD m q (free q) := by
  induction n with
  | zero => intro m p q; rw [if_neg (by omega)]; rfl
  | succ n ih =>
    intro m p q
    rw [List.range'_succ, List.foldl_cons, ih]
    by_cases h1 : p + 1 ≤ q ∧ q < p + 1 + n
    · rw [if_pos h1, if_pos (by omega), Store.getD_set, if_neg (by omega)]
    · rw [if_neg h1, Store.getD_set]
      by_cases h2 : q = p
      · subst h2; rw [if_pos rfl, if_pos (by omega)]
      · rw [if_neg h2, if_neg (by omega)]

theorem getD_queueRemove (free : Nat → NodeId) (m : Store NodeId) (cnt p q : Nat) :
    Store.getD (queueRemove free m cnt p) q (free q) =
      if p ≤ q ∧ q < p + (cnt - 1 - p) then Store.getD m (q + 1) (free (q + 1)) else Store.getD m q (free q) :=
  getD_queueShift free (cnt - 1 - p) m p q

/-- A removal writes only positions from p to the end of the queue (R102). -/
theorem get?_queueRemove_outside (free : Nat → NodeId) (m : Store NodeId) (cnt p q : Nat)
    (h : ¬ (p ≤ q ∧ q < p + (cnt - 1 - p))) : Store.get? (queueRemove free m cnt p) q = Store.get? m q := by
  unfold queueRemove
  generalize cnt - 1 - p = n at h ⊢
  induction n generalizing m p with
  | zero => rfl
  | succ n ih =>
    rw [List.range'_succ, List.foldl_cons, ih _ (p + 1) (by omega)]
    exact Store.get?_set_other m _ (by omega)

theorem wf_queueRemove (free : Nat → NodeId) (m : Store NodeId) (cnt p : Nat) (h : Store.wf m = true) :
    Store.wf (queueRemove free m cnt p) = true := by
  unfold queueRemove
  generalize cnt - 1 - p = n
  induction n generalizing m p with
  | zero => exact h
  | succ n ih => rw [List.range'_succ, List.foldl_cons]; exact ih _ _ (Store.wf_set m _ _ h)

theorem below_queueRemove (free : Nat → NodeId) (m : Store NodeId) (cnt p b : Nat) (hb : cnt - 1 ≤ b) (h : Store.below m b = true) :
    Store.below (queueRemove free m cnt p) b = true := by
  unfold queueRemove
  have hn : p + (cnt - 1 - p) ≤ b ∨ cnt - 1 - p = 0 := by omega
  generalize cnt - 1 - p = n at hn ⊢
  induction n generalizing m p with
  | zero => exact h
  | succ n ih =>
    rw [List.range'_succ, List.foldl_cons]
    exact ih _ _ (Store.below_set m _ (by omega) h) (by omega)

/-! ### The walk -/

theorem wf_hufWalk (s : State) (fuel : Nat) : ∀ (n : NodeId) (path : Chars) (m : Store Codeword), Store.wf m = true →
    Store.wf (hufWalk s fuel n path m) = true := by
  induction fuel with
  | zero => intro _ _ _ h; exact h
  | succ fuel ih =>
    intro n path m h
    unfold hufWalk
    cases s.nodeAt n.toNat with
    | leaf w i => exact Store.wf_set m _ _ h
    | internal w l r => exact ih _ _ _ (ih _ _ _ h)

theorem below_hufWalk (s : State) (fuel : Nat) : ∀ (n : NodeId) (path : Chars) (m : Store Codeword), Store.below m 256 = true →
    Store.below (hufWalk s fuel n path m) 256 = true := by
  induction fuel with
  | zero => intro _ _ _ h; exact h
  | succ fuel ih =>
    intro n path m h
    unfold hufWalk
    cases s.nodeAt n.toNat with
    | leaf w i => exact Store.below_set m _ i.isLt h
    | internal w l r => exact ih _ _ _ (ih _ _ _ h)

/-! ### The merge loop -/

/-- The merge loop changes WQ, WCNT, NODE, NODE_CNT and the scan positions, and nothing else (R104). -/
theorem hufMergeAll_frame (fuel : Nat) : ∀ s : State,
    hufMergeAll fuel s = { s with
      wq := (hufMergeAll fuel s).wq, wcnt := (hufMergeAll fuel s).wcnt, node := (hufMergeAll fuel s).node,
      nodeCnt := (hufMergeAll fuel s).nodeCnt, min1 := (hufMergeAll fuel s).min1, min2 := (hufMergeAll fuel s).min2 } := by
  induction fuel with
  | zero => intro s; rfl
  | succ fuel ih =>
    intro s
    unfold hufMergeAll
    split
    · rw [ih]; rfl
    · rfl

/-- What one merge keeps, the loop keeps, as long as there are two roots (R104). -/
theorem hufMergeAll_induction (P : State → Prop) (hstep : ∀ s, P s → 1 < s.wcnt.toNat → P (hufMergeBody s)) (fuel : Nat) :
    ∀ s, P s → P (hufMergeAll fuel s) := by
  induction fuel with
  | zero => intro s h; exact h
  | succ fuel ih =>
    intro s h
    unfold hufMergeAll
    split
    · next h1 => exact ih _ (hstep s h h1)
    · exact h

/-- Each merge lowers WCNT by one (R106). -/
theorem hufMergeBody_wcnt (s : State) (h : 1 < s.wcnt.toNat) : (hufMergeBody s).wcnt.toNat = s.wcnt.toNat - 1 := by
  show (s.wcnt - 1).toNat = _
  have := s.wcnt.isLt
  rw [BitVec.toNat_sub]; simp; omega

/-- The loop ends with one root (R104). -/
theorem hufMergeAll_wcnt (fuel : Nat) : ∀ s : State, 1 ≤ s.wcnt.toNat → s.wcnt.toNat ≤ fuel + 1 →
    (hufMergeAll fuel s).wcnt.toNat = 1 := by
  induction fuel with
  | zero => intro s h1 h2; exact Nat.le_antisymm h2 h1
  | succ fuel ih =>
    intro s h1 h2
    unfold hufMergeAll
    split
    · next h => exact ih _ (by rw [hufMergeBody_wcnt s h]; omega) (by rw [hufMergeBody_wcnt s h]; omega)
    · omega

end Sys2Proof.Machine
end

