-- ==== Sys2Proof/Laws/Exec.lean ====
section
/-! SUPPORT. What the meaning of each command can answer, said once: it completes with its assignments, or it faults on the state it
started from. Provers cite these instead of unfolding a meaning. -/

namespace Sys2Proof.Machine

@[simp] theorem raiseFault_eq_faulted (c : FaultCode) (v : Word) (s : State) : raiseFault c v s = faulted c v s := rfl

/-! ### The accessors after the end of a command -/

@[simp] theorem complete_srcByte (s : State) (j : Nat) : (complete s).srcByte j = s.srcByte j := rfl
@[simp] theorem complete_alphaAt (s : State) (i : Nat) : (complete s).alphaAt i = s.alphaAt i := rfl
@[simp] theorem complete_nodeAt (s : State) (n : Nat) : (complete s).nodeAt n = s.nodeAt n := rfl
@[simp] theorem complete_wqAt (s : State) (p : Nat) : (complete s).wqAt p = s.wqAt p := rfl
@[simp] theorem complete_cbAt (s : State) (k : Book) (i : Nat) : (complete s).cbAt k i = s.cbAt k i := rfl
@[simp] theorem complete_codeword (s : State) (k : Book) (i : Nat) : (complete s).codeword k i = s.codeword k i := rfl
@[simp] theorem complete_outBit (s : State) (j : Nat) : (complete s).outBit j = s.outBit j := rfl
@[simp] theorem complete_weightAt (s : State) (p : Nat) : (complete s).weightAt p = s.weightAt p := rfl
@[simp] theorem complete_queue (s : State) : (complete s).queue = s.queue := rfl
@[simp] theorem complete_srcBytes (s : State) : (complete s).srcBytes = s.srcBytes := rfl

/-! ### The answer of each command -/

theorem exec_buildAlpha (s : State) :
    exec .buildAlpha s = .next (complete (invalidateBuilt (installAlphabet (histogram s.srcBytes) s))) := rfl

theorem exec_mbr (s : State) :
    exec .mbr s = .next (complete { s with result := BitVec.ofNat 32 (mbrOf s.params.mbrMode s.curArg) }) := rfl

theorem exec_stats (s : State) :
    exec .stats s = if s.alphaLen = 0 then .next (raiseFault .emptyAlphabet s.curCmd s)
      else .next (complete { s with statSumbits := BitVec.ofNat 32 (sumBits s.params.mbrMode s.alphaLen.toNat) }) := rfl

theorem exec_buildShannon (s : State) :
    exec .buildShannon s = if s.alphaLen = 0 then .next (raiseFault .emptyAlphabet s.curCmd s)
      else .next (complete
        { s with
          cb := s.cb.set .shannon (shannonSplit s.alphaLen.toNat 0 (s.alphaLen.toNat - 1) [] (s.cb.get .shannon)),
          valid := s.valid.set .shannon true }) := rfl

theorem exec_hufInit (s : State) :
    exec .hufInit s = if s.alphaLen = 0 then .next (raiseFault .emptyAlphabet s.curCmd s)
      else .next (complete (hufInitBody s)) := rfl

theorem exec_hufStep (s : State) :
    exec .hufStep s = if s.hufState = .empty then .next (raiseFault .hufSeq s.curCmd s)
      else if s.wcnt = 1 then .next (complete s) else .next (complete (hufMergeBody s)) := rfl

theorem exec_hufExtract (s : State) :
    exec .hufExtract s = if s.hufState = .empty ∨ s.wcnt ≠ 1 then .next (raiseFault .hufSeq s.curCmd s)
      else .next (complete (hufExtractBody s)) := rfl

theorem exec_buildHuffman (s : State) :
    exec .buildHuffman s = if s.alphaLen = 0 then .next (raiseFault .emptyAlphabet s.curCmd s)
      else .next (complete (hufExtractBody (hufMergeAll s.alphaLen.toNat (hufInitBody s)))) := rfl

theorem exec_encodeCommand (k : Book) (s : State) : exec (encodeCommand k) s = .next (encodeWith k s) := by
  cases k <;> rfl

/-- ENCODE k completes with its stream, or faults for want of a codebook or of a symbol (R108, R113). -/
theorem encodeWith_cases (k : Book) (s : State) :
    (s.valid.get k = false ∧ encodeWith k s = raiseFault .noCodebook s.curCmd s) ∨
    (∃ b j, s.valid.get k = true ∧ s.codeStream k (List.range s.params.pN) = .error (b, j) ∧
      encodeWith k s = raiseFault .symbolAbsent (absentInfo b j) s) ∨
    (∃ w, s.valid.get k = true ∧ s.codeStream k (List.range s.params.pN) = .ok w ∧
      encodeWith k s = complete (storeStream k w s)) := by
  unfold encodeWith
  cases hv : s.valid.get k with
  | false => exact .inl ⟨rfl, by simp⟩
  | true =>
    cases hc : s.codeStream k (List.range s.params.pN) with
    | error e => exact .inr (.inl ⟨e.1, e.2, rfl, rfl, by simp⟩)
    | ok w => exact .inr (.inr ⟨w, rfl, rfl, by simp⟩)

/-- What a command assigns when it completes, apart from DONE and ENG_STATE: one case for each command (R86 to R108). -/
inductive Assigns (s : State) : Instr → State → Prop where
  | buildAlpha : Assigns s .buildAlpha (invalidateBuilt (installAlphabet (histogram s.srcBytes) s))
  | buildFixed : Assigns s .buildFixed
      { s with
        cb := s.cb.set .fixed (Store.setFrom (s.cb.get .fixed) 0 (fixedBook s.params.mbrMode s.alphaLen)),
        valid := s.valid.set .fixed true }
  | buildShannon (h : s.alphaLen ≠ 0) : Assigns s .buildShannon
      { s with
        cb := s.cb.set .shannon (shannonSplit s.alphaLen.toNat 0 (s.alphaLen.toNat - 1) [] (s.cb.get .shannon)),
        valid := s.valid.set .shannon true }
  | buildHuffman (h : s.alphaLen ≠ 0) :
      Assigns s .buildHuffman (hufExtractBody (hufMergeAll s.alphaLen.toNat (hufInitBody s)))
  | encode (k : Book) (w : Chars) (hv : s.valid.get k = true) (hw : s.codeStream k (List.range s.params.pN) = .ok w) :
      Assigns s (encodeCommand k) (storeStream k w s)
  | stats (h : s.alphaLen ≠ 0) : Assigns s .stats
      { s with statSumbits := BitVec.ofNat 32 (sumBits s.params.mbrMode s.alphaLen.toNat) }
  | mbr : Assigns s .mbr { s with result := BitVec.ofNat 32 (mbrOf s.params.mbrMode s.curArg) }
  | hufInit (h : s.alphaLen ≠ 0) : Assigns s .hufInit (hufInitBody s)
  | hufStepDone (h : s.hufState ≠ .empty) (h1 : s.wcnt = 1) : Assigns s .hufStep s
  | hufStepMerge (h : s.hufState ≠ .empty) (h1 : s.wcnt ≠ 1) : Assigns s .hufStep (hufMergeBody s)
  | hufExtract (h : s.hufState ≠ .empty) (h1 : s.wcnt = 1) : Assigns s .hufExtract (hufExtractBody s)

/-- Why a command faults: one case for each row of the table (R112). -/
inductive Faults (s : State) : Instr → FaultCode → Word → Prop where
  | emptyAlphabet (i : Instr) (hi : i = .stats ∨ i = .buildShannon ∨ i = .hufInit ∨ i = .buildHuffman) (h : s.alphaLen = 0) :
      Faults s i .emptyAlphabet s.curCmd
  | noCodebook (k : Book) (h : s.valid.get k = false) : Faults s (encodeCommand k) .noCodebook s.curCmd
  | stepFromEmpty (h : s.hufState = .empty) : Faults s .hufStep .hufSeq s.curCmd
  | extractTooEarly (h : s.hufState = .empty ∨ s.wcnt ≠ 1) : Faults s .hufExtract .hufSeq s.curCmd
  | symbolAbsent (k : Book) (b : Byte) (j : Nat) (hv : s.valid.get k = true)
      (h : s.codeStream k (List.range s.params.pN) = .error (b, j)) :
      Faults s (encodeCommand k) .symbolAbsent (absentInfo b j)

/-- THE inversion of a command's meaning: it completes with its assignments, or it faults and has assigned nothing (R110, R111). -/
theorem exec_cases (i : Instr) (s : State) :
    (∃ u, Assigns s i u ∧ exec i s = .next (complete u)) ∨
    (∃ c v, Faults s i c v ∧ exec i s = .next (raiseFault c v s)) := by
  have henc : ∀ k, (∃ u, Assigns s (encodeCommand k) u ∧ exec (encodeCommand k) s = .next (complete u)) ∨
      (∃ c v, Faults s (encodeCommand k) c v ∧ exec (encodeCommand k) s = .next (raiseFault c v s)) := by
    intro k
    rw [exec_encodeCommand]
    obtain ⟨h, he⟩ | ⟨b, j, hv, hc, he⟩ | ⟨w, hv, hc, he⟩ := encodeWith_cases k s
    · exact .inr ⟨_, _, .noCodebook k h, by rw [he]⟩
    · exact .inr ⟨_, _, .symbolAbsent k b j hv hc, by rw [he]⟩
    · exact .inl ⟨_, .encode k w hv hc, by rw [he]⟩
  cases i with
  | buildAlpha => exact .inl ⟨_, .buildAlpha, rfl⟩
  | buildFixed => exact .inl ⟨_, .buildFixed, rfl⟩
  | mbr => exact .inl ⟨_, .mbr, rfl⟩
  | encodeFixed => exact henc .fixed
  | encodeShannon => exact henc .shannon
  | encodeHuffman => exact henc .huffman
  | buildShannon =>
    by_cases h : s.alphaLen = 0
    · exact .inr ⟨_, _, .emptyAlphabet _ (by simp) h, by rw [exec_buildShannon, if_pos h]⟩
    · exact .inl ⟨_, .buildShannon h, by rw [exec_buildShannon, if_neg h]⟩
  | buildHuffman =>
    by_cases h : s.alphaLen = 0
    · exact .inr ⟨_, _, .emptyAlphabet _ (by simp) h, by rw [exec_buildHuffman, if_pos h]⟩
    · exact .inl ⟨_, .buildHuffman h, by rw [exec_buildHuffman, if_neg h]⟩
  | stats =>
    by_cases h : s.alphaLen = 0
    · exact .inr ⟨_, _, .emptyAlphabet _ (by simp) h, by rw [exec_stats, if_pos h]⟩
    · exact .inl ⟨_, .stats h, by rw [exec_stats, if_neg h]⟩
  | hufInit =>
    by_cases h : s.alphaLen = 0
    · exact .inr ⟨_, _, .emptyAlphabet _ (by simp) h, by rw [exec_hufInit, if_pos h]⟩
    · exact .inl ⟨_, .hufInit h, by rw [exec_hufInit, if_neg h]⟩
  | hufStep =>
    by_cases h : s.hufState = .empty
    · exact .inr ⟨_, _, .stepFromEmpty h, by rw [exec_hufStep, if_pos h]⟩
    · by_cases h1 : s.wcnt = 1
      · exact .inl ⟨_, .hufStepDone h h1, by rw [exec_hufStep, if_neg h, if_pos h1]⟩
      · exact .inl ⟨_, .hufStepMerge h h1, by rw [exec_hufStep, if_neg h, if_neg h1]⟩
  | hufExtract =>
    by_cases h : s.hufState = .empty ∨ s.wcnt ≠ 1
    · exact .inr ⟨_, _, .extractTooEarly h, by rw [exec_hufExtract, if_pos h]⟩
    · have h' : s.hufState ≠ .empty ∧ s.wcnt = 1 := by tauto
      exact .inl ⟨_, .hufExtract h'.1 h'.2, by rw [exec_hufExtract, if_neg h]⟩

end Sys2Proof.Machine
end

