-- ==== Sys2Proof/Laws/Port.lean ====
section
/-! SUPPORT. The laws of the host port: which accesses are accepted, what a host action can do to the state, said once, and that every
write of SRC keeps the memory canonical. -/

namespace Sys2Proof.Machine

theorem accessOk_iff (size : Nat) (a : Addr) : accessOk size a = true ↔ size = 32 ∧ a.extractLsb' 0 2 = 0 := by
  simp [accessOk]

theorem hostAct_read (size : Nat) (a : Addr) (s : State) (h : s.resetHeld = false) :
    hostAct (.read size a) s = if accessOk size a = true then portRead a s else busError s := by
  simp [hostAct, h, transact]

theorem hostAct_write (size : Nat) (a : Addr) (v : Word) (s : State) (h : s.resetHeld = false) :
    hostAct (.write size a v) s = if accessOk size a = true then portWrite a v s else busError s := by
  simp [hostAct, h, transact]

/-- A read changes the port's answer and the count of free draws, and nothing else (R56, R60, R69). -/
theorem portRead_cases (a : Addr) (s : State) :
    (s.engState = .running ∧ (regionOf a).freeWhileRunning = true ∧
      portRead a s = { s with response := some ⟨false, Config.busyRead s.draws⟩, draws := s.draws + 1 }) ∨
    (¬ (s.engState = .running ∧ (regionOf a).freeWhileRunning = true) ∧
      portRead a s = { s with response := some ⟨false, s.readWord a⟩ }) := by
  unfold portRead
  split
  · next h => exact .inl ⟨h.1, h.2, rfl⟩
  · next h => exact .inr ⟨h, rfl⟩

/-- What a write can do to the machine, said once (R57): a soft reset, IE, a submission, the STATUS flags, ARG, the SRC window, or
nothing. -/
inductive Writes (a : Addr) (v : Word) (s : State) : State → Prop where
  | softReset (hr : regionOf a = .reg .ctrl) (hv : v.getLsbD 1 = true) : Writes a v s (softReset s)
  | enable (hr : regionOf a = .reg .ctrl) (hv : v.getLsbD 1 = false) : Writes a v s { s with ie := v.getLsbD 0 }
  | submit (hr : regionOf a = .reg .cmd) : Writes a v s (submitCommand v s)
  | status (hr : regionOf a = .reg .status) : Writes a v s (writeStatus v s)
  | arg (hr : regionOf a = .reg .arg) : Writes a v s { s with arg := v }
  | srcDropped (w : Nat) (hr : regionOf a = .src w) (h : s.engState = .running) : Writes a v s { s with wrDropped := true }
  | src (w : Nat) (hr : regionOf a = .src w) (h : s.engState ≠ .running) :
      Writes a v s { s with src := storeSrcWord s.params.pN s.src w v }
  | ignored : Writes a v s s

theorem writeWord_cases (s : State) (a : Addr) (v : Word) : Writes a v s (s.writeWord a v) := by
  unfold State.writeWord
  cases hr : regionOf a with
  | reg r =>
    cases r with
    | ctrl =>
      simp only [writeReg, writeCtrl]
      split
      · next h => exact .softReset hr h
      · next h => exact .enable hr (by simpa using h)
    | cmd => exact .submit hr
    | status => exact .status hr
    | arg => exact .arg hr
    | _ => exact .ignored
  | src w =>
    simp only [writeSrc]
    split
    · next h => exact .srcDropped w hr h
    · next h => exact .src w hr h
  | _ => exact .ignored

/-- What a host action can do, said once (R53, R55, R126). -/
inductive Acts (s : State) : HostAction → State → Prop where
  | assert : Acts s .assertReset { s with resetHeld := true }
  | release (h : s.resetHeld = true) : Acts s .releaseReset { hardReset s with resetHeld := false }
  | releaseIdle (h : s.resetHeld = false) : Acts s .releaseReset s
  | heldRead (size : Nat) (a : Addr) (h : s.resetHeld = true) : Acts s (.read size a) s
  | heldWrite (size : Nat) (a : Addr) (v : Word) (h : s.resetHeld = true) : Acts s (.write size a v) s
  | badRead (size : Nat) (a : Addr) (h : s.resetHeld = false) (hb : accessOk size a = false) : Acts s (.read size a) (busError s)
  | badWrite (size : Nat) (a : Addr) (v : Word) (h : s.resetHeld = false) (hb : accessOk size a = false) :
      Acts s (.write size a v) (busError s)
  | read (a : Addr) (h : s.resetHeld = false) (hok : accessOk 32 a = true) : Acts s (.read 32 a) (portRead a s)
  | write (a : Addr) (v : Word) (u : State) (h : s.resetHeld = false) (hok : accessOk 32 a = true) (hw : Writes a v s u) :
      Acts s (.write 32 a v) { u with response := some ⟨false, 0⟩ }

theorem hostAct_cases (act : HostAction) (s : State) : Acts s act (hostAct act s) := by
  cases act with
  | assertReset => exact .assert
  | releaseReset =>
    cases h : s.resetHeld with
    | true => simpa [hostAct, h] using Acts.release h
    | false => simpa [hostAct, h] using Acts.releaseIdle h
  | read size a =>
    cases h : s.resetHeld with
    | true => simpa [hostAct, h] using Acts.heldRead size a h
    | false =>
      rw [hostAct_read size a s h]
      cases hok : accessOk size a with
      | false => simpa using Acts.badRead size a h hok
      | true =>
        obtain rfl := ((accessOk_iff size a).1 hok).1
        simpa using Acts.read a h hok
  | write size a v =>
    cases h : s.resetHeld with
    | true => simpa [hostAct, h] using Acts.heldWrite size a v h
    | false =>
      rw [hostAct_write size a v s h]
      cases hok : accessOk size a with
      | false => simpa using Acts.badWrite size a v h hok
      | true =>
        obtain rfl := ((accessOk_iff size a).1 hok).1
        rw [if_pos rfl]
        exact Acts.write a v _ h hok (writeWord_cases s a v)

/-! ### The memory -/

/-- One byte of SRC after one byte is stored (R66). -/
theorem get?_storeSrcByte (n : Nat) (m : Memory) (j : Nat) (v : Byte) (i : Nat) :
    Store.get? (storeSrcByte n m j v) i = if i = j ∧ j < n then some v else Store.get? m i := by
  unfold storeSrcByte
  split
  · next h => rw [Store.get?_set]; simp [h]
  · next h => simp [h]

/-- Every byte of SRC after a word is stored: the four bytes of the word below P_N, and no other (R58, R66). -/
theorem get?_storeSrcWord (n : Nat) (m : Memory) (w : Nat) (v : Word) (i : Nat) :
    Store.get? (storeSrcWord n m w v) i = if i / 4 = w ∧ i < n then some (byteOf v (i % 4)) else Store.get? m i := by
  simp only [storeSrcWord, List.foldl_cons, List.foldl_nil, get?_storeSrcByte]
  by_cases hw : i / 4 = w
  · by_cases hn : i < n
    · conv_rhs => rw [if_pos ⟨hw, hn⟩]
      have h4 : i = 4 * w + 3 ∨ i = 4 * w + 2 ∨ i = 4 * w + 1 ∨ i = 4 * w + 0 := by omega
      rcases h4 with h | h | h | h
      · rw [if_pos (by omega), show i % 4 = 3 by omega]
      · rw [if_neg (by omega), if_pos (by omega), show i % 4 = 2 by omega]
      · rw [if_neg (by omega), if_neg (by omega), if_pos (by omega), show i % 4 = 1 by omega]
      · rw [if_neg (by omega), if_neg (by omega), if_neg (by omega), if_pos (by omega), show i % 4 = 0 by omega]
    · rw [if_neg (by omega), if_neg (by omega), if_neg (by omega), if_neg (by omega), if_neg (by omega)]
  · rw [if_neg (by omega), if_neg (by omega), if_neg (by omega), if_neg (by omega), if_neg (by tauto)]

theorem wf_storeSrcByte (n : Nat) (m : Memory) (j : Nat) (v : Byte) (h : Memory.wf m = true) : Memory.wf (storeSrcByte n m j v) = true := by
  unfold storeSrcByte
  split
  · exact Store.wf_set m j v h
  · exact h

/-- Storing a word keeps the memory canonical. -/
theorem wf_storeSrcWord (n : Nat) (m : Memory) (w : Nat) (v : Word) (h : Memory.wf m = true) : Memory.wf (storeSrcWord n m w v) = true :=
  wf_storeSrcByte n _ _ _ (wf_storeSrcByte n _ _ _ (wf_storeSrcByte n _ _ _ (wf_storeSrcByte n _ _ _ h)))

theorem below_storeSrcByte (n : Nat) (m : Memory) (j : Nat) (v : Byte) (h : Store.below m n = true) :
    Store.below (storeSrcByte n m j v) n = true := by
  unfold storeSrcByte
  split
  · next hj => exact Store.below_set m v hj h
  · exact h

/-- Storing a word lists no byte from P_N on. -/
theorem below_storeSrcWord (n : Nat) (m : Memory) (w : Nat) (v : Word) (h : Store.below m n = true) :
    Store.below (storeSrcWord n m w v) n = true :=
  below_storeSrcByte n _ _ _ (below_storeSrcByte n _ _ _ (below_storeSrcByte n _ _ _ (below_storeSrcByte n _ _ _ h)))

/-- The memory of the state after reset is canonical. -/
theorem reset_memory_wf : Memory.wf State.reset.src = true := rfl

end Sys2Proof.Machine
end

