-- ==== Sys2Proof/Laws/Engine.lean ====
section
/-! SUPPORT. What one step can do, said once: a host action, the end of a command, the fault of an illegal word, or nothing. Every
invariant of the machine is a case analysis over this. -/

namespace Sys2Proof.Machine

@[simp] theorem popTurn_agenda (s : State) : (popTurn s).agenda = s.agenda.tail := rfl
@[simp] theorem popTurn_engState (s : State) : (popTurn s).engState = s.engState := rfl
@[simp] theorem popTurn_resetHeld (s : State) : (popTurn s).resetHeld = s.resetHeld := rfl
@[simp] theorem popTurn_curCmd (s : State) : (popTurn s).curCmd = s.curCmd := rfl

/-- The four things a step can do (R53, R80, R110, R111). -/
inductive Moves (s : State) : State → Prop where
  | host (a : HostAction) (rest : List Turn) (ha : s.agenda = .host a :: rest) : Moves s (hostAct a (popTurn s))
  | rest (he : s.resetHeld = true ∨ s.engState ≠ .running) (ha : s.agenda = [] ∨ ∃ rest, s.agenda = .engine :: rest) :
      Moves s (popTurn s)
  | command (i : Instr) (t : State) (he : EngineMoves s) (hr : s.engState = .running) (hd : decode s.curCmd = .ok i)
      (hx : exec i (popTurn s) = .next t) : Moves s t
  | illegal (e : Illegal) (he : EngineMoves s) (hr : s.engState = .running) (hd : decode s.curCmd = .error e) :
      Moves s (raiseFault .illegalCmd s.curCmd (popTurn s))

/-- Every command answers a next state (R110, R111). -/
theorem exec_next (i : Instr) (s : State) : ∃ t, exec i s = .next t := by
  obtain ⟨u, -, h⟩ | ⟨c, v, -, h⟩ := exec_cases i s <;> exact ⟨_, h⟩

theorem engineTurn_moves (s : State) (ha : s.agenda = [] ∨ ∃ rest, s.agenda = .engine :: rest) :
    ∃ t, engineTurn (popTurn s) = .next t ∧ Moves s t := by
  unfold engineTurn
  cases hh : s.resetHeld with
  | true => exact ⟨popTurn s, by simp [hh], .rest (.inl hh) ha⟩
  | false =>
    cases hr : s.engState with
    | idle => exact ⟨popTurn s, by simp [hh, hr], .rest (.inr (by simp [hr])) ha⟩
    | faulted => exact ⟨popTurn s, by simp [hh, hr], .rest (.inr (by simp [hr])) ha⟩
    | running =>
      simp only [popTurn_resetHeld, hh, popTurn_engState, hr, runCommand, popTurn_curCmd]
      cases hd : decode s.curCmd with
      | ok i =>
        obtain ⟨t, ht⟩ := exec_next i (popTurn s)
        exact ⟨t, by simpa using ht, .command i t ⟨hh, ha⟩ hr hd ht⟩
      | error e => exact ⟨_, by simp, .illegal e ⟨hh, ha⟩ hr hd⟩

/-- THE inversion of a step. -/
theorem step_moves (s : State) : ∃ t, step s = .next t ∧ Moves s t := by
  unfold step nextTurn
  cases ha : s.agenda with
  | nil =>
    have hp : popTurn s = s := by
      cases s; simp only at ha; subst ha; rfl
    have := engineTurn_moves s (.inl ha)
    rw [hp] at this
    exact this
  | cons t rest =>
    cases t with
    | host a =>
      refine ⟨hostAct a (popTurn s), ?_, .host a rest ha⟩
      simp [takeTurn, popTurn, ha]
    | engine =>
      have := engineTurn_moves s (.inr ⟨rest, ha⟩)
      simpa [takeTurn, popTurn, ha] using this

/-- The inversion of a step whose next state is known. -/
theorem moves_of_step {s t : State} (h : step s = .next t) : Moves s t := by
  obtain ⟨t', ht, hm⟩ := step_moves s
  rw [ht] at h
  obtain rfl : t' = t := by simpa using h
  exact hm

end Sys2Proof.Machine
end

