-- ==== Sys2Proof/Laws/Flags.lean ====
section
/-! SUPPORT. The fields of the registers' words (10_state.md R25 to R35): each field of a word is the state it shows. -/

namespace Sys2Proof.Machine
/-- The fields of STATUS (R29). -/
theorem statusWord_bits (s : State) :
    s.statusWord.getLsbD 0 = s.busy ∧ s.statusWord.getLsbD 1 = s.done ∧ s.statusWord.getLsbD 2 = s.faultFlag ∧
    s.statusWord.getLsbD 3 = false ∧ s.statusWord.extractLsb' 4 4 = s.err.code ∧ s.statusWord.getLsbD 8 = s.cmdDropped ∧
    s.statusWord.getLsbD 9 = s.wrDropped ∧ s.statusWord.getLsbD 10 = s.busErr ∧ s.statusWord.extractLsb' 11 21 = 0 := by
  unfold State.statusWord
  generalize s.busy = a; generalize s.done = b; generalize s.faultFlag = c; generalize s.cmdDropped = d
  generalize s.wrDropped = e; generalize s.busErr = f
  cases s.err <;> (revert a b c d e f; decide)

/-- A bit of the low part of a concatenation. -/
theorem getLsbD_low {m n k : Nat} (a : BitVec m) (b : BitVec n) (h : k < n) : (a ++ b).getLsbD k = b.getLsbD k := by
  rw [BitVec.getLsbD_append, if_pos (by simpa using h)]

/-- A bit of the high part of a concatenation. -/
theorem getLsbD_high {m n k : Nat} (a : BitVec m) (b : BitVec n) (h : n ≤ k) : (a ++ b).getLsbD k = a.getLsbD (k - n) := by
  rw [BitVec.getLsbD_append, if_neg (by simpa using h)]

/-- A field inside the low part of a concatenation. -/
theorem extract_low {m n : Nat} (a : BitVec m) (b : BitVec n) (st len : Nat) (h : st + len ≤ n) :
    (a ++ b).extractLsb' st len = b.extractLsb' st len := by
  apply BitVec.eq_of_getLsbD_eq
  intro i hi
  simp only [BitVec.getLsbD_extractLsb', getLsbD_low a b (show st + i < n by omega)]

/-- A field inside the high part of a concatenation. -/
theorem extract_high {m n : Nat} (a : BitVec m) (b : BitVec n) (st len : Nat) (h : n ≤ st) :
    (a ++ b).extractLsb' st len = a.extractLsb' (st - n) len := by
  apply BitVec.eq_of_getLsbD_eq
  intro i hi
  simp only [BitVec.getLsbD_extractLsb', getLsbD_high a b (show n ≤ st + i by omega), show st + i - n = st - n + i by omega]

/-- The field that is the whole vector. -/
theorem extract_all {n : Nat} (a : BitVec n) : a.extractLsb' 0 n = a := by
  apply BitVec.eq_of_getLsbD_eq
  intro i hi
  simp [ hi]

/-- The fields of HUF_STATUS (R33). -/
theorem hufStatusWord_fields (s : State) :
    s.hufStatusWord.extractLsb' 0 2 = s.hufState.code ∧ s.hufStatusWord.extractLsb' 2 2 = 0 ∧ s.hufStatusWord.extractLsb' 4 9 = s.wcnt ∧
    s.hufStatusWord.extractLsb' 13 3 = 0 ∧ s.hufStatusWord.extractLsb' 16 9 = s.nodeCnt ∧ s.hufStatusWord.extractLsb' 25 7 = 0 := by
  unfold State.hufStatusWord
  refine ⟨?_, ?_, ?_, ?_, ?_, ?_⟩
  · exact (extract_low _ _ 0 2 (by decide)).trans (extract_all _)
  · exact (extract_high _ _ 2 2 (by decide)).trans ((extract_low _ _ 0 2 (by decide)).trans (extract_all _))
  · exact (extract_high _ _ 4 9 (by decide)).trans ((extract_high _ _ 2 9 (by decide)).trans ((extract_low _ _ 0 9 (by decide)).trans (extract_all _)))
  · exact (extract_high _ _ 13 3 (by decide)).trans ((extract_high _ _ 11 3 (by decide)).trans ((extract_high _ _ 9 3 (by decide)).trans
      ((extract_low _ _ 0 3 (by decide)).trans (extract_all _))))
  · exact (extract_high _ _ 16 9 (by decide)).trans ((extract_high _ _ 14 9 (by decide)).trans ((extract_high _ _ 12 9 (by decide)).trans
      ((extract_high _ _ 3 9 (by decide)).trans ((extract_low _ _ 0 9 (by decide)).trans (extract_all _)))))
  · exact (extract_high _ _ 25 7 (by decide)).trans ((extract_high _ _ 23 7 (by decide)).trans ((extract_high _ _ 21 7 (by decide)).trans
      ((extract_high _ _ 12 7 (by decide)).trans ((extract_high _ _ 9 7 (by decide)).trans (extract_all _)))))

/-- The fields of PARAM0 (R25). -/
theorem param0Word_fields (p : Params) :
    (param0Word p).extractLsb' 0 24 = BitVec.ofNat 24 p.pN ∧ ((param0Word p).getLsbD 24 = true ↔ p.mbrMode = .ignore) ∧
    (param0Word p).extractLsb' 25 7 = 0 := by
  unfold param0Word
  refine ⟨?_, ?_, ?_⟩
  · exact (extract_low _ _ 0 24 (by decide)).trans (extract_all _)
  · rw [show ((0 : BitVec 7) ++ BitVec.ofBool (p.mbrMode == .ignore) ++ BitVec.ofNat 24 p.pN).getLsbD 24 = _ from
      (getLsbD_high _ _ (k := 24) (by decide)).trans (getLsbD_low _ _ (k := 0) (by decide))]
    cases p.mbrMode <;> decide
  · exact (extract_high _ _ 25 7 (by decide)).trans ((extract_high _ _ 1 7 (by decide)).trans (extract_all _))

/-- The fields of CTRL as it reads (R27). -/
theorem ctrlWord_bits (s : State) : s.ctrlWord.getLsbD 0 = s.ie ∧ s.ctrlWord.extractLsb' 1 31 = 0 := by
  unfold State.ctrlWord
  cases s.ie <;> decide

/-- One bit for each codebook (R32, R35). -/
theorem perBook_bits (p : PerBook Bool) :
    p.bits.getLsbD 0 = p.fixed ∧ p.bits.getLsbD 1 = p.shannon ∧ p.bits.getLsbD 2 = p.huffman := by
  obtain ⟨a, b, c⟩ := p
  revert a b c
  decide

/-- The fields of CB_VALID (R32). -/
theorem cbValidWord_bits (s : State) :
    s.cbValidWord.getLsbD 0 = s.valid.fixed ∧ s.cbValidWord.getLsbD 1 = s.valid.shannon ∧ s.cbValidWord.getLsbD 2 = s.valid.huffman ∧
    s.cbValidWord.extractLsb' 3 29 = 0 := by
  unfold State.cbValidWord
  obtain ⟨a, b, c⟩ := s.valid
  revert a b c
  decide

/-- The fields of ENC_STATUS (R35). -/
theorem encStatusWord_bits (s : State) :
    s.encStatusWord.getLsbD 0 = s.encValid.fixed ∧ s.encStatusWord.getLsbD 1 = s.encValid.shannon ∧
    s.encStatusWord.getLsbD 2 = s.encValid.huffman ∧ s.encStatusWord.getLsbD 3 = false ∧ s.encStatusWord.getLsbD 4 = s.trunc ∧
    s.encStatusWord.extractLsb' 5 3 = 0 ∧ s.encStatusWord.extractLsb' 8 2 = bookCode s.lastCb ∧
    s.encStatusWord.extractLsb' 10 22 = 0 := by
  unfold State.encStatusWord
  obtain ⟨a, b, c⟩ := s.encValid
  cases s.trunc <;> cases s.lastCb <;> (revert a b c; decide)
end Sys2Proof.Machine
end

