-- ==== Sys2Proof/Laws/Map.lean ====
section
/-! SUPPORT. The laws of the address map (20_memory.md R61 to R67): which region each window's addresses stand for, where a read is free
while a command runs (R69), where a write does nothing (R57), what the port answers while it is quiet (R56), and the fields
of the words of a node, of a codebook entry and of OUT (R64, R65, R67). -/

namespace Sys2Proof.Machine

/-- An address written as a number below 2^26 is that number. -/
theorem toNat_addr {n : Nat} (h : n < 2 ^ 26) : (BitVec.ofNat 26 n).toNat = n := by
  rw [BitVec.toNat_ofNat, Nat.mod_eq_of_lt h]

/-- A[1:0] = 0 says that the address is a multiple of 4 (R55). -/
theorem aligned_iff (a : Addr) : a.extractLsb' 0 2 = 0 ↔ a.toNat % 4 = 0 := by
  rw [← BitVec.toNat_inj]
  simp

/-- An address written as a multiple of 4 is aligned. -/
theorem aligned_word {n : Nat} (h : n < 2 ^ 26) (h4 : n % 4 = 0) : (BitVec.ofNat 26 n).extractLsb' 0 2 = 0 := by
  rw [aligned_iff, toNat_addr h, h4]

/-- Past RESULT the control page holds no register (R62). -/
theorem ctrlRegAt_none {n : Nat} (h : 0x48 ≤ n) : ctrlRegAt n = none := by
  unfold ctrlRegAt
  iterate 18 rw [if_neg (by omega)]

/-- The reserved ranges of the map (R61). -/
theorem regionOf_hole {a : Addr}
    (h : (0x048 ≤ a.toNat ∧ a.toNat < 0x1000) ∨ (0x1400 ≤ a.toNat ∧ a.toNat < 0x2000) ∨
      (0x3400 ≤ a.toNat ∧ a.toNat < 0x10000) ∨ (0x1C000 ≤ a.toNat ∧ a.toNat < 0x1000000)) : regionOf a = .reserved := by
  unfold regionOf
  rcases h with h | h | h | h
  · dsimp only
    rw [if_pos (by omega), ctrlRegAt_none h.1]
  all_goals
    dsimp only
    repeat (first | rw [if_pos (by omega)] | rw [if_neg (by omega)])

/-- The ALPHA window (R63). -/
theorem regionOf_alpha {i : Nat} (h : i < 256) : regionOf (BitVec.ofNat 26 (0x1000 + 4 * i)) = .alpha i := by
  unfold regionOf
  rw [toNat_addr (by omega)]
  dsimp only
  rw [if_neg (by omega), if_pos (by omega)]
  congr 1; omega

/-- The SRC window (R66). -/
theorem regionOf_src {w : Nat} (h : w < 2 ^ 22) : regionOf (BitVec.ofNat 26 (0x1000000 + 4 * w)) = .src w := by
  unfold regionOf
  rw [toNat_addr (by omega)]
  dsimp only
  iterate 10 rw [if_neg (by omega)]
  rw [if_pos (by omega)]
  congr 1; omega

/-- The OUT window (R67). -/
theorem regionOf_out {w : Nat} (h : w < 2 ^ 23) : regionOf (BitVec.ofNat 26 (0x2000000 + 4 * w)) = .out w := by
  unfold regionOf
  rw [toNat_addr (by omega)]
  dsimp only
  iterate 11 rw [if_neg (by omega)]
  congr 1; omega

/-- The WQ window (R64). -/
theorem regionOf_wq {p : Nat} (h : p < 256) : regionOf (BitVec.ofNat 26 (0x3000 + 4 * p)) = .wq p := by
  unfold regionOf
  rw [toNat_addr (by omega)]
  dsimp only
  iterate 4 rw [if_neg (by omega)]
  rw [if_pos (by omega)]
  congr 1; omega

/-- Word 0 of a node (R64). -/
theorem regionOf_node0 {n : Nat} (h : n < 512) : regionOf (BitVec.ofNat 26 (0x2000 + 8 * n)) = .node n false := by
  unfold regionOf
  rw [toNat_addr (by omega)]
  dsimp only
  iterate 3 rw [if_neg (by omega)]
  rw [if_pos (by omega), decide_eq_false (by omega), show (0x2000 + 8 * n - 0x2000) / 8 = n by omega]

/-- Word 1 of a node (R64). -/
theorem regionOf_node1 {n : Nat} (h : n < 512) : regionOf (BitVec.ofNat 26 (0x2004 + 8 * n)) = .node n true := by
  unfold regionOf
  rw [toNat_addr (by omega)]
  dsimp only
  iterate 3 rw [if_neg (by omega)]
  rw [if_pos (by omega), decide_eq_true (by omega), show (0x2004 + 8 * n - 0x2000) / 8 = n by omega]

/-- The CB windows (R65). -/
theorem regionOf_cb (k : Book) {i w : Nat} (hi : i < 256) (hw : w < 16) :
    regionOf (BitVec.ofNat 26 (0x10000 + 0x4000 * (bookCode k).toNat + 64 * i + 4 * w)) = .cb k i w := by
  have h0 : (bookCode .fixed).toNat = 0 := rfl
  have h1 : (bookCode .shannon).toNat = 1 := rfl
  have h2 : (bookCode .huffman).toNat = 2 := rfl
  cases k <;>
    · simp only [h0, h1, h2]
      unfold regionOf
      rw [toNat_addr (by omega)]
      dsimp only
      repeat (first | rw [if_pos (by omega)] | rw [if_neg (by omega)])
      unfold cbRegion
      congr 1 <;> omega

/-- Where R69 leaves a read defined it answers the word of the map in every engine state (R56, R69). -/
theorem portAnswer_defined {s : State} {a : Addr} (hr : s.resetHeld = false) (ha : a.extractLsb' 0 2 = 0)
    (hf : (regionOf a).freeWhileRunning = false) : s.portAnswer a = some ⟨false, s.readWord a⟩ := by
  rw [State.portAnswer, hostAct_read 32 a s hr, if_pos ((accessOk_iff 32 a).2 ⟨rfl, ha⟩)]
  rcases portRead_cases a s with ⟨-, h, -⟩ | ⟨-, h⟩
  · rw [hf] at h; exact absurd h (by decide)
  · rw [h]

/-- While the port is quiet an aligned read answers the word the map assigns to the address (R56). -/
theorem portAnswer_quiet {s : State} {a : Addr} (hq : PortQuiet s) (ha : a.extractLsb' 0 2 = 0) :
    s.portAnswer a = some ⟨false, s.readWord a⟩ := by
  obtain ⟨hr, he⟩ := hq
  rw [State.portAnswer, hostAct_read 32 a s hr, if_pos ((accessOk_iff 32 a).2 ⟨rfl, ha⟩)]
  rcases portRead_cases a s with ⟨h, -, -⟩ | ⟨-, h⟩
  · exact absurd h he
  · rw [h]

/-- The words of a leaf (R64). -/
theorem leafWord_fields (w : Freq) (i : BitVec 8) :
    (nodeWord0 (.leaf w i)).extractLsb' 0 24 = w ∧ (nodeWord0 (.leaf w i)).extractLsb' 24 7 = 0 ∧
    (nodeWord0 (.leaf w i)).getLsbD 31 = false ∧
    (nodeWord1 (.leaf w i)).extractLsb' 0 8 = i ∧ (nodeWord1 (.leaf w i)).extractLsb' 8 24 = 0 := by
  refine ⟨?_, ?_, ?_, ?_, ?_⟩
  · apply BitVec.eq_of_getLsbD_eq; intro j hj; simp [nodeWord0, hj]; omega
  · apply BitVec.eq_of_getLsbD_eq; intro j hj; simp [nodeWord0]
  · simp [nodeWord0]
  · apply BitVec.eq_of_getLsbD_eq; intro j hj; simp [nodeWord1, hj]; omega
  · apply BitVec.eq_of_getLsbD_eq; intro j hj; simp [nodeWord1]

/-- The words of an internal node (R64). -/
theorem internalWord_fields (w : Freq) (l r : NodeId) :
    (nodeWord0 (.internal w l r)).extractLsb' 0 24 = w ∧ (nodeWord0 (.internal w l r)).extractLsb' 24 7 = 0 ∧
    (nodeWord0 (.internal w l r)).getLsbD 31 = true ∧
    (nodeWord1 (.internal w l r)).extractLsb' 0 9 = l ∧ (nodeWord1 (.internal w l r)).extractLsb' 9 7 = 0 ∧
    (nodeWord1 (.internal w l r)).extractLsb' 16 9 = r ∧ (nodeWord1 (.internal w l r)).extractLsb' 25 7 = 0 := by
  unfold nodeWord0 nodeWord1
  refine ⟨?_, ?_, ?_, ?_, ?_, ?_, ?_⟩
  · exact (extract_low _ _ 0 24 (by decide)).trans (extract_all _)
  · exact (extract_high _ _ 24 7 (by decide)).trans ((extract_low _ _ 0 7 (by decide)).trans (extract_all _))
  · exact (getLsbD_high _ _ (k := 31) (by decide)).trans (getLsbD_high _ _ (k := 7) (by decide))
  · exact (extract_low _ _ 0 9 (by decide)).trans (extract_all _)
  · exact (extract_high _ _ 9 7 (by decide)).trans ((extract_low _ _ 0 7 (by decide)).trans (extract_all _))
  · exact (extract_high _ _ 16 9 (by decide)).trans ((extract_high _ _ 7 9 (by decide)).trans
      ((extract_low _ _ 0 9 (by decide)).trans (extract_all _)))
  · exact (extract_high _ _ 25 7 (by decide)).trans ((extract_high _ _ 16 7 (by decide)).trans
      ((extract_high _ _ 9 7 (by decide)).trans (extract_all _)))

/-- Bit b of word 1 + u of a codebook entry (R65). -/
theorem codewordWord_bit (c : Codeword) {u b : Nat} (hu : u < 8) (hb : b < 32) :
    (codewordWord c (1 + u)).getLsbD b = c.bits.getLsbD (32 * u + b) := by
  rw [codewordWord, if_neg (by omega), if_pos (by omega), show 1 + u - 1 = u by omega, BitVec.getLsbD_extractLsb']
  simp [hb]

/-- Bit b of word w of the OUT window (R67). -/
theorem outWord_bit (s : State) (w : Nat) {b : Nat} (hb : b < 32) : (s.outWord w).getLsbD b = s.outWindowBit (32 * w + b) := by
  rw [State.outWord, getLsbD_bitsOf]
  simp [hb]

/-- The aligned addresses whose reads are free while RUNNING (R69). -/
theorem freeWhileRunning_iff (a : Addr) (ha : a.extractLsb' 0 2 = 0) :
    (regionOf a).freeWhileRunning = true ↔
      (0x018 ≤ a.toNat ∧ a.toNat < 0x048 ∧ a.toNat ≠ 0x040) ∨ (0x1000 ≤ a.toNat ∧ a.toNat < 0x1400) ∨
      (0x2000 ≤ a.toNat ∧ a.toNat < 0x3400) ∨ (0x10000 ≤ a.toNat ∧ a.toNat < 0x1C000) ∨ 0x2000000 ≤ a.toNat := by
  rw [aligned_iff] at ha
  generalize hn : a.toNat = n at *
  unfold regionOf
  rw [hn]
  dsimp only
  by_cases h0 : n < 0x1000
  · rw [if_pos h0]
    by_cases h1 : n < 0x48
    · have : n ∈ (List.range 18).map (4 * ·) := by
        simp only [List.mem_map, List.mem_range]; exact ⟨n / 4, by omega, by omega⟩
      simp only [List.map, show List.range 18 = [0,1,2,3,4,5,6,7,8,9,10,11,12,13,14,15,16,17] from rfl, List.mem_cons, List.not_mem_nil, or_false] at this
      rcases this with h | h | h | h | h | h | h | h | h | h | h | h | h | h | h | h | h | h <;>
        · subst h; clear hn ha h0 h1; decide
    · rw [ctrlRegAt_none (by omega)]
      constructor
      · intro h; cases h
      · omega
  · rw [if_neg h0]
    by_cases h1 : n < 0x1400
    · rw [if_pos h1]; exact ⟨fun _ => by omega, fun _ => rfl⟩
    rw [if_neg h1]
    by_cases h2 : n < 0x2000
    · rw [if_pos h2]; exact ⟨fun h => Bool.noConfusion h, by omega⟩
    rw [if_neg h2]
    by_cases h3 : n < 0x3000
    · rw [if_pos h3]; exact ⟨fun _ => by omega, fun _ => rfl⟩
    rw [if_neg h3]
    by_cases h4 : n < 0x3400
    · rw [if_pos h4]; exact ⟨fun _ => by omega, fun _ => rfl⟩
    rw [if_neg h4]
    by_cases h5 : n < 0x10000
    · rw [if_pos h5]; exact ⟨fun h => Bool.noConfusion h, by omega⟩
    rw [if_neg h5]
    by_cases h6 : n < 0x14000
    · rw [if_pos h6]; exact ⟨fun _ => by omega, fun _ => rfl⟩
    rw [if_neg h6]
    by_cases h7 : n < 0x18000
    · rw [if_pos h7]; exact ⟨fun _ => by omega, fun _ => rfl⟩
    rw [if_neg h7]
    by_cases h8 : n < 0x1C000
    · rw [if_pos h8]; exact ⟨fun _ => by omega, fun _ => rfl⟩
    rw [if_neg h8]
    by_cases h9 : n < 0x1000000
    · rw [if_pos h9]; exact ⟨fun h => Bool.noConfusion h, by omega⟩
    rw [if_neg h9]
    by_cases h10 : n < 0x2000000
    · rw [if_pos h10]; exact ⟨fun h => Bool.noConfusion h, by omega⟩
    rw [if_neg h10]; exact ⟨fun _ => by omega, fun _ => rfl⟩

/-- A write away from CTRL, CMD, STATUS, ARG and SRC does nothing (R57). -/
theorem writeWord_ignored (s : State) (a : Addr) (v : Word) (ha : a.extractLsb' 0 2 = 0)
    (h : a.toNat ∉ [0x00C, 0x010, 0x014, 0x040]) (hs : ¬ (0x1000000 ≤ a.toNat ∧ a.toNat < 0x2000000)) : s.writeWord a v = s := by
  rw [aligned_iff] at ha
  generalize hn : a.toNat = n at *
  unfold State.writeWord regionOf
  rw [hn]
  dsimp only
  simp only [List.mem_cons, List.not_mem_nil, or_false, not_or] at h
  by_cases h0 : n < 0x1000
  · rw [if_pos h0]
    by_cases h1 : n < 0x48
    · have : n ∈ (List.range 18).map (4 * ·) := by
        simp only [List.mem_map, List.mem_range]; exact ⟨n / 4, by omega, by omega⟩
      simp only [List.map, show List.range 18 = [0,1,2,3,4,5,6,7,8,9,10,11,12,13,14,15,16,17] from rfl, List.mem_cons, List.not_mem_nil, or_false] at this
      rcases this with h | h | h | h | h | h | h | h | h | h | h | h | h | h | h | h | h | h <;>
        first | (subst h; rfl) | omega
    · rw [ctrlRegAt_none (by omega)]
  rw [if_neg h0]
  by_cases h1 : n < 0x1400
  · rw [if_pos h1]
  rw [if_neg h1]
  by_cases h2 : n < 0x2000
  · rw [if_pos h2]
  rw [if_neg h2]
  by_cases h3 : n < 0x3000
  · rw [if_pos h3]
  rw [if_neg h3]
  by_cases h4 : n < 0x3400
  · rw [if_pos h4]
  rw [if_neg h4]
  by_cases h5 : n < 0x10000
  · rw [if_pos h5]
  rw [if_neg h5]
  by_cases h6 : n < 0x14000
  · rw [if_pos h6]; rfl
  rw [if_neg h6]
  by_cases h7 : n < 0x18000
  · rw [if_pos h7]; rfl
  rw [if_neg h7]
  by_cases h8 : n < 0x1C000
  · rw [if_pos h8]; rfl
  rw [if_neg h8]
  by_cases h9 : n < 0x1000000
  · rw [if_pos h9]
  rw [if_neg h9, if_neg (by omega)]
end Sys2Proof.Machine
end

