-- ==== Sys2Proof/Laws/PerInstr.lean ====
section
/-! SUPPORT. Facts about each command as syntax, one lemma per constructor: it is well-formed, its word has the fields R79 gives it, and
the decoder reads the word back. -/

namespace Sys2Proof.Laws.RoundTrip

/-- The command is well-formed, its word's fields are its fields, and its word decodes to it (R77, R79, R80). -/
def Statement (i : Instr) : Prop := i.wf = true ∧ fieldsOf (encode i) = i.fields ∧ decode (encode i) = .ok i

theorem buildAlpha : Statement .buildAlpha := ⟨by decide, by decide, by rfl⟩
theorem buildFixed : Statement .buildFixed := ⟨by decide, by decide, by rfl⟩
theorem buildShannon : Statement .buildShannon := ⟨by decide, by decide, by rfl⟩
theorem buildHuffman : Statement .buildHuffman := ⟨by decide, by decide, by rfl⟩
theorem encodeFixed : Statement .encodeFixed := ⟨by decide, by decide, by rfl⟩
theorem encodeShannon : Statement .encodeShannon := ⟨by decide, by decide, by rfl⟩
theorem encodeHuffman : Statement .encodeHuffman := ⟨by decide, by decide, by rfl⟩
theorem stats : Statement .stats := ⟨by decide, by decide, by rfl⟩
theorem mbr : Statement .mbr := ⟨by decide, by decide, by rfl⟩
theorem hufInit : Statement .hufInit := ⟨by decide, by decide, by rfl⟩
theorem hufStep : Statement .hufStep := ⟨by decide, by decide, by rfl⟩
theorem hufExtract : Statement .hufExtract := ⟨by decide, by decide, by rfl⟩

end Sys2Proof.Laws.RoundTrip
end

