-- ==== Sys2Proof/Tests/Slice0.lean ====
section
/-! SUPPORT. The model's own tests. Every expected value comes from spec/: the opcode map (30_encoding.md R79), the vectors of
95_test_vectors.md (named V-... and S... as there), or a rule named beside the test. The last part shows, for every statement with
hypotheses, states and operands that meet them. -/

namespace Sys2Proof.Tests

set_option Elab.async false

open Sys2Proof Sys2Proof.Machine

/-! ### Decoding: each word of R79, bit by bit: RSV 31:10, CB 9:8, OP 7:0 -/

theorem test_decode_buildAlpha : decode 0b0000000000000000000000_00_00000001#32 = .ok .buildAlpha := rfl
theorem test_decode_buildFixed : decode 0b0000000000000000000000_00_00000010#32 = .ok .buildFixed := rfl
theorem test_decode_buildShannon : decode 0b0000000000000000000000_00_00000011#32 = .ok .buildShannon := rfl
theorem test_decode_buildHuffman : decode 0b0000000000000000000000_00_00000100#32 = .ok .buildHuffman := rfl
theorem test_decode_encodeFixed : decode 0b0000000000000000000000_00_00000101#32 = .ok .encodeFixed := rfl
theorem test_decode_encodeShannon : decode 0b0000000000000000000000_01_00000101#32 = .ok .encodeShannon := rfl
theorem test_decode_encodeHuffman : decode 0b0000000000000000000000_10_00000101#32 = .ok .encodeHuffman := rfl
theorem test_decode_stats : decode 0b0000000000000000000000_00_00000110#32 = .ok .stats := rfl
theorem test_decode_mbr : decode 0b0000000000000000000000_00_00000111#32 = .ok .mbr := rfl
theorem test_decode_hufInit : decode 0b0000000000000000000000_00_00010000#32 = .ok .hufInit := rfl
theorem test_decode_hufStep : decode 0b0000000000000000000000_00_00010001#32 = .ok .hufStep := rfl
theorem test_decode_hufExtract : decode 0b0000000000000000000000_00_00010010#32 = .ok .hufExtract := rfl

/-- V-D1: the illegal words, each for its reason (R82). -/
theorem test_decode_illegal :
    decode 0x00000000#32 = .error .reservedOp ∧ decode 0x00000008#32 = .error .reservedOp ∧
    decode 0x0000000F#32 = .error .reservedOp ∧ decode 0x00000013#32 = .error .reservedOp ∧
    decode 0x000000FF#32 = .error .reservedOp ∧ decode 0x00000305#32 = .error .reservedCodebook ∧
    decode 0x00000102#32 = .error .codebookOnPlainOp ∧ decode 0x00000401#32 = .error .reservedBits ∧
    decode 0x80000001#32 = .error .reservedBits := ⟨rfl, rfl, rfl, rfl, rfl, rfl, rfl, rfl, rfl⟩

/-- The encoder writes the words of the opcode table (R79). -/
theorem test_encode_words :
    [Instr.buildAlpha, .buildFixed, .buildShannon, .buildHuffman, .encodeFixed, .encodeShannon, .encodeHuffman, .stats, .mbr,
      .hufInit, .hufStep, .hufExtract].map encode =
    [0x001, 0x002, 0x003, 0x004, 0x005, 0x105, 0x205, 0x006, 0x007, 0x010, 0x011, 0x012] := by decide

theorem test_decodeTableWord :
    decodeTableWord 32 0x205 = some .encodeHuffman ∧ decodeTableWord 32 0x305 = none ∧ decodeTableWord 32 0x12 = some .hufExtract := by
  decide

/-! ### Well-formedness: for each check an ill-formed term it refuses -/

theorem smoke_rsvZero_refuses : (CmdFields.mk 0x01 0 1).rsvZero = false ∧ (CmdFields.mk 0x01 0 1).wf = false := by decide
theorem smoke_opKnown_refuses : (CmdFields.mk 0x08 0 0).opKnown = false ∧ (CmdFields.mk 0x08 0 0).wf = false := by decide
theorem smoke_cbPlain_refuses : (CmdFields.mk 0x02 1 0).cbPlain = false ∧ (CmdFields.mk 0x02 1 0).wf = false := by decide
theorem smoke_cbKnown_refuses : (CmdFields.mk 0x05 3 0).cbKnown = false ∧ (CmdFields.mk 0x05 3 0).wf = false := by decide
theorem smoke_lengthWf_refuses :
    (Params.mk 0 32 .cap).wf = false ∧ (Params.mk (2 ^ 24) 32 .cap).wf = false ∧ (Params.mk (2 ^ 24 - 1) 32 .cap).wf = true := by decide
theorem smoke_outWf_refuses :
    (Params.mk 1 0 .cap).wf = false ∧ (Params.mk 1 48 .cap).wf = false ∧ (Params.mk 1 (2 ^ 28 + 32) .cap).wf = false ∧
    (Params.mk 1 (2 ^ 28) .cap).wf = true := by decide
theorem smoke_every_instr_wf (i : Instr) : i.wf = true := by cases i <;> decide

/-! ### The states the tests start from -/

/-- SRC holding these bytes. -/
def sourceOf (bytes : List Byte) : Memory := bytes.zipIdx.map fun e => (e.2, e.1)

/-- The machine after reset with SRC written, P_MBR_MODE = CAP. -/
def loaded (out : Nat) (bytes : List Byte) : State :=
  { State.resetWith ⟨bytes.length, out, .cap⟩ with src := sourceOf bytes }

/-- A machine with this alphabet. -/
def withAlphabet (entries : List AlphaEntry) (s : State) : State :=
  { s with alpha := entries.zipIdx.map fun e => (e.2, e.1), alphaLen := BitVec.ofNat 9 entries.length }

/-- What one command leaves. -/
def after (i : Instr) (s : State) : State :=
  match exec i s with
  | .next t    => t
  | .fault _   => s
  | .refused _ => s

/-- What one step leaves. -/
def stepped (s : State) : State :=
  match step s with
  | .next t    => t
  | .fault _   => s
  | .refused _ => s

/-- What a machine shows at an address. -/
def shows (s : State) (a : Addr) : Word := s.readWord a

/-- S6: [0, 0, 0, 1] loaded. -/
def src0001 : State := loaded 256 [0, 0, 0, 1]

/-- S6 after BUILD_ALPHA, by the expected table: (0, 3), (1, 1). -/
def alpha0001 : State := withAlphabet [⟨0, 3⟩, ⟨1, 1⟩] src0001

/-- V-H1's alphabet [4, 2, 1, 1]. -/
def alpha4211 : State := withAlphabet [⟨0, 4⟩, ⟨1, 2⟩, ⟨2, 1⟩, ⟨3, 1⟩] (loaded 256 [0, 0, 0, 0, 1, 1, 2, 3])

/-- V-H1 after HUF_INIT, by the expected table. -/
def init4211 : State :=
  { alpha4211 with
    node := [(0, .leaf 4 0), (1, .leaf 2 1), (2, .leaf 1 2), (3, .leaf 1 3)], wq := [(0, 0), (1, 1), (2, 2), (3, 3)],
    wcnt := 4, nodeCnt := 4, hufState := .active }

/-- V-H1 before HUF_EXTRACT, by the expected table. -/
def merged4211 : State :=
  { init4211 with
    node := init4211.node ++ [(4, .internal 2 3 2), (5, .internal 4 4 1), (6, .internal 8 0 5)], wq := [(0, 6)],
    wcnt := 1, nodeCnt := 7 }

/-- S6 with all three codebooks and the tree built, by the expected tables of V-E1 and P1. -/
def built0001 : State :=
  { alpha0001 with
    valid := ⟨true, true, true⟩,
    cb := ⟨[(0, ⟨2, 0⟩), (1, ⟨2, 2⟩)], [(0, ⟨1, 0⟩), (1, ⟨1, 1⟩)], [(0, ⟨1, 0⟩), (1, ⟨1, 1⟩)]⟩,
    node := [(0, .leaf 3 0), (1, .leaf 1 1), (2, .internal 4 0 1)], wq := [(0, 2)],
    wcnt := 1, nodeCnt := 3, hufState := .active }

/-- V-E5's alphabet and fixed codebook "000".."100", with P_OUT_BITS = 32. -/
def fixed5 : State :=
  { withAlphabet [⟨0, 2⟩, ⟨1, 3⟩, ⟨2, 1⟩, ⟨3, 1⟩, ⟨4, 5⟩] (loaded 32 [0, 0, 1, 1, 1, 2, 3, 4, 4, 4, 4, 4]) with
    valid := ⟨true, false, false⟩, cb := ⟨[(0, ⟨3, 0⟩), (1, ⟨3, 4⟩), (2, ⟨3, 2⟩), (3, ⟨3, 6⟩), (4, ⟨3, 1⟩)], [], []⟩ }

/-! ### One step of each command -/

/-- V-A1, first row. -/
theorem test_buildAlpha_0001 :
    (after .buildAlpha src0001).alphaLen = 2 ∧ shows (after .buildAlpha src0001) 0x1000 = 0x300 ∧
    shows (after .buildAlpha src0001) 0x1004 = 0x101 ∧ shows (after .buildAlpha src0001) 0x1008 = 0 ∧
    shows (after .buildAlpha src0001) 0x14 = 2 := by decide +kernel

/-- V-A2: by symbol, not by first occurrence. -/
theorem test_buildAlpha_order :
    (List.range 3).map (after .buildAlpha (loaded 256 [3, 1, 3, 2])).alphaWord = [0x101, 0x102, 0x203] := by decide +kernel

/-- V-X1, L = 5: entry 4 is "100". -/
theorem test_buildFixed_5 :
    shows (after .buildFixed { src0001 with alphaLen := 5 }) 0x10100 = 3 ∧
    shows (after .buildFixed { src0001 with alphaLen := 5 }) 0x10104 = 1 := by decide +kernel

/-- V-X3: L = 0 completes. -/
theorem test_buildFixed_empty :
    shows (after .buildFixed src0001) 0x14 = 2 ∧ shows (after .buildFixed src0001) 0x20 = 1 := by decide +kernel

/-- V-S1, L = 5. -/
theorem test_buildShannon_5 :
    (List.range 5).map ((after .buildShannon { src0001 with alphaLen := 5 }).codeword .shannon) =
      [[false, false, false], [false, false, true], [false, true], [true, false], [true, true]] := by decide +kernel

/-- V-S3. -/
theorem test_buildShannon_empty :
    shows (after .buildShannon { src0001 with curCmd := 3 }) 0x14 = 0x26 ∧
    shows (after .buildShannon { src0001 with curCmd := 3 }) 0x18 = 3 := by decide +kernel

/-- V-H4: [2, 3, 1, 1, 5], where the scan does not choose two smallest. -/
theorem test_buildHuffman_lost_minimum :
    (List.range 5).map ((after .buildHuffman (withAlphabet [⟨0, 2⟩, ⟨1, 3⟩, ⟨2, 1⟩, ⟨3, 1⟩, ⟨4, 5⟩] src0001)).codeword .huffman) =
      [[true, false], [false, false], [false, true, true], [false, true, false], [true, true]] := by decide +kernel

/-- P1's tree. -/
theorem test_buildHuffman_0001 :
    shows (after .buildHuffman alpha0001) 0x24 = 0x00030012 ∧ shows (after .buildHuffman alpha0001) 0x28 = 2 ∧
    shows (after .buildHuffman alpha0001) 0x2010 = 0x80000004 ∧ shows (after .buildHuffman alpha0001) 0x2014 = 0x00010000 := by
  decide +kernel

/-- V-E1, FIXED. -/
theorem test_encodeFixed_0001 :
    shows (after .encodeFixed built0001) 0x30 = 8 ∧ shows (after .encodeFixed built0001) 0x2000000 = 0x80 ∧
    shows (after .encodeFixed built0001) 0x2C = 1 := by decide +kernel

/-- V-E7: 36 characters into 32 bits. -/
theorem test_encodeFixed_truncates :
    shows (after .encodeFixed fixed5) 0x30 = 36 ∧ shows (after .encodeFixed fixed5) 0x2C = 0x11 ∧
    shows (after .encodeFixed fixed5) 0x2000000 = 0x49394900 ∧ shows (after .encodeFixed fixed5) 0x2000004 = 0 := by decide +kernel

/-- V-E8: SYMBOL_ABSENT at j = 1. -/
theorem test_encodeShannon_absent :
    shows (after .encodeShannon { built0001 with src := sourceOf [0, 2, 0, 1] }) 0x14 = 0x56 ∧
    shows (after .encodeShannon { built0001 with src := sourceOf [0, 2, 0, 1] }) 0x18 = 0x02000001 := by decide +kernel

/-- V-E9: NO_CODEBOOK. -/
theorem test_encodeShannon_noCodebook :
    shows (after .encodeShannon { src0001 with curCmd := 0x105 }) 0x14 = 0x36 ∧
    shows (after .encodeShannon { src0001 with curCmd := 0x105 }) 0x18 = 0x105 := by decide +kernel

/-- P1's stream. -/
theorem test_encodeHuffman_0001 :
    shows (after .encodeHuffman built0001) 0x38 = 4 ∧ shows (after .encodeHuffman built0001) 0x2000000 = 8 ∧
    shows (after .encodeHuffman built0001) 0x2C = 0x204 := by decide +kernel

/-- V-T1, L = 17. -/
theorem test_stats_17 : shows (after .stats { src0001 with alphaLen := 17 }) 0x3C = 55 := by decide +kernel

/-- V-T2. -/
theorem test_stats_empty :
    shows (after .stats { src0001 with curCmd := 6 }) 0x14 = 0x26 ∧ shows (after .stats { src0001 with curCmd := 6 }) 0x18 = 6 := by
  decide +kernel

/-- V-M1, CAP and IGNORE at 0x17F. -/
theorem test_mbr_modes :
    (after .mbr { src0001 with curArg := 0x17F }).result = 8 ∧
    (after .mbr { src0001 with curArg := 0x17F, params := ⟨4, 256, .ignore⟩ }).result = 7 := by decide +kernel

/-- V-M1, S9: 0, and the cap. -/
theorem test_mbr_ends :
    (after .mbr { src0001 with curArg := 0 }).result = 1 ∧ (after .mbr { src0001 with curArg := 0x80 }).result = 8 ∧
    (after .mbr { src0001 with curArg := 0x7F }).result = 7 := by decide +kernel

/-- V-H1, HUF_INIT. -/
theorem test_hufInit_4211 :
    shows (after .hufInit alpha4211) 0x24 = 0x00040041 ∧ shows (after .hufInit alpha4211) 0x2000 = 4 ∧
    shows (after .hufInit alpha4211) 0x2004 = 0 ∧ (after .hufInit alpha4211).queue = [0, 1, 2, 3] := by decide +kernel

/-- V-H1, HUF_STEP 1: (3, 2), node 4 = (2; LEFT 3, RIGHT 2). -/
theorem test_hufStep_4211 :
    shows (after .hufStep init4211) 0x24 = 0x00050031 ∧ (after .hufStep init4211).queue = [0, 1, 4] ∧
    shows (after .hufStep init4211) 0x2020 = 0x80000002 ∧ shows (after .hufStep init4211) 0x2024 = 0x00020003 := by decide +kernel

/-- V-H7: HUF_STEP from reset. -/
theorem test_hufStep_empty :
    shows (after .hufStep { src0001 with curCmd := 0x11 }) 0x14 = 0x46 ∧
    shows (after .hufStep { src0001 with curCmd := 0x11 }) 0x18 = 0x11 := by decide +kernel

/-- V-H1, HUF_EXTRACT: (LEN, BITS word 1) = (1, 0), (2, 3), (3, 5), (3, 1). -/
theorem test_hufExtract_4211 :
    shows (after .hufExtract merged4211) 0x24 = 0x00070012 ∧ shows (after .hufExtract merged4211) 0x28 = 6 ∧
    [0x18000, 0x18004, 0x18040, 0x18044, 0x18080, 0x18084, 0x180C0, 0x180C4].map (shows (after .hufExtract merged4211)) =
      [1, 0, 2, 3, 3, 5, 3, 1] := by decide +kernel

/-- V-H7: HUF_EXTRACT with four roots left. -/
theorem test_hufExtract_early :
    shows (after .hufExtract init4211) 0x14 = 0x46 ∧ shows (after .hufExtract init4211) 0x24 = 0x00040041 := by decide +kernel

/-- V-H0, its rows of three and four weights. -/
theorem test_scan_rows :
    selectScan (fun p => ([4, 2, 1, 1] : List Freq).getD p 0) 4 = (3, 2) ∧
    selectScan (fun p => ([5, 1, 3] : List Freq).getD p 0) 3 = (2, 1) ∧
    selectScan (fun p => ([5, 5, 5, 1] : List Freq).getD p 0) 4 = (1, 3) ∧
    selectScan (fun p => ([1, 5, 3] : List Freq).getD p 0) 3 = (1, 2) ∧
    selectScan (fun p => ([3, 3, 1] : List Freq).getD p 0) 3 = (1, 2) := by decide +kernel

/-! ### The port and the turns -/

/-- V-P1: the two writes while BUSY. -/
theorem test_busy_writes :
    shows (hostAct (.write 32 0x1000000 5) (acceptCommand 1 src0001)) 0x14 = 0x201 ∧
    shows (hostAct (.write 32 0x10 2) (acceptCommand 1 src0001)) 0x14 = 0x101 ∧
    shows (hostAct (.write 32 0x10 2) (acceptCommand 1 src0001)) 0x10 = 1 := by decide +kernel

/-- V-P3: a misaligned, a 16-bit and an 8-bit access. -/
theorem test_bus_errors :
    [hostAct (.read 32 0x16) src0001, hostAct (.read 16 0x14) src0001, hostAct (.read 8 0x14) src0001].map
      (fun s => (s.response, shows s 0x14)) = List.replicate 3 (some ⟨true, 0⟩, 0x400) := by decide +kernel

/-- V-P4: a soft reset while a command is in progress. -/
theorem test_srst_while_busy :
    shows (hostAct (.write 32 0xC 2) (acceptCommand 1 src0001)) 0x14 = 0 ∧
    shows (hostAct (.write 32 0xC 2) (acceptCommand 1 src0001)) 0x10 = 0 ∧
    shows (hostAct (.write 32 0xC 2) (acceptCommand 1 src0001)) 0x1000000 = 0x01000000 := by decide +kernel

/-- P3: SRC word 0 written as 0x01000200 is the bytes 0, 2, 0, 1. -/
theorem test_src_little_endian :
    (hostAct (.write 32 0x1000000 0x01000200) src0001).srcBytes = [0, 2, 0, 1] ∧
    shows (hostAct (.write 32 0x1000000 0x01000200) src0001) 0x1000000 = 0x01000200 := by decide +kernel

/-- V-P6: reserved addresses. -/
theorem test_reserved_reads : [0x48, 0xFFC, 0x1400, 0x1C000, 0x4000].map (shows built0001) = [0, 0, 0, 0, 0] := by decide +kernel

/-- A row's word is the next thing the machine runs: MBR from the state after reset, with ARG = 0 (V-M1). -/
theorem test_withFetchWord_mbr :
    (stepped ((loaded 256 [5]).withFetchWord 32 0x7)).result = 1 ∧
    shows (stepped ((loaded 256 [5]).withFetchWord 32 0x7)) 0x14 = 2 := by decide +kernel

/-- V-D1: an illegal word faults with the word. -/
theorem test_step_illegal :
    shows (stepped ((loaded 256 [5]).withFetchWord 32 0x305)) 0x14 = 0x16 ∧
    shows (stepped ((loaded 256 [5]).withFetchWord 32 0x305)) 0x18 = 0x305 := by decide +kernel

/-- R84, R85: the first lines of P1: LOADSRC 0,0,0,1 and the write that starts BUILD_ALPHA. -/
theorem test_pseudo_expansion :
    (Pseudo.loadSrc [0, 0, 0, 1]).expand 4 = [.wr 0x1000000 0x01000000] ∧ (Pseudo.run .buildAlpha).expand 4 = [.wr 0x10 1, .wait] := by
  decide +kernel

/-- A machine and a script, at the script's first line, the script's turn next. -/
def scripted (s : State) (lines : List ScriptLine) : ScriptRun := ⟨s, lines, 0, [], false, [false]⟩

/-- R84: WAIT reads STATUS into s, and stays where it is while BUSY (V-P1: STATUS = 1). -/
theorem test_wait_binds_s :
    ((scripted src0001 [.wait]).line.names = [("s", 0)] ∧ (scripted src0001 [.wait]).line.pos = 1) ∧
    ((scripted (acceptCommand 1 src0001) [.wait]).line.names = [("s", 1)] ∧
      (scripted (acceptCommand 1 src0001) [.wait]).line.pos = 0) := by decide +kernel

/-- R84, P3: `s[2:2]` of STATUS = 0x36 is FAULT. -/
theorem test_script_field : (HostExpr.field (.name "s") 2 2).eval [("s", 0x36)] = 1 := by decide

/-! ### Witnesses: the hypotheses of every statement that has some, met by a concrete state -/

/-- A command word accepted, the engine's turn next. -/
def running (c : Word) : State := placeCommand c src0001

/-- An address of the port. -/
def at26 (n : Nat) : Addr := BitVec.ofNat 26 n

/-- FAULTED by NO_CODEBOOK (V-E9). -/
def faulted0001 : State := faulted .noCodebook 0x105 src0001

/-- L leaves and nothing else in the machine. -/
def ofLength (n : Count) : State := { src0001 with alphaLen := n }

/-- A hard reset under way. -/
def held : State := { src0001 with resetHeld := true }

/-- Both sides hold of a legal word, and neither of an illegal one. -/
theorem witness_DecodesExactlyTheEncodedWords :
    (decode 0x205#32 = .ok .encodeHuffman ∧ 0x205#32 = encode .encodeHuffman) ∧ 0x305#32 ≠ encode .encodeHuffman := ⟨⟨rfl, rfl⟩, by decide⟩

/-- One word for each clause: the OPs just past 0x07, before 0x10 and past 0x12, the lowest RSV bit, CB on a plain OP, and CB = 3. -/
theorem witness_IllegalWordsFault :
    (EngineMoves (running 0x08) ∧ (running 0x08).engState = .running) ∧
    (∀ c ∈ [0x00, 0x08, 0x0F, 0x13], (running (BitVec.ofNat 32 c)).curCmd.extractLsb' 0 8 ∉
      [(0x01 : BitVec 8), 0x02, 0x03, 0x04, 0x05, 0x06, 0x07, 0x10, 0x11, 0x12]) ∧
    (running 0x401).curCmd.extractLsb' 10 22 ≠ 0 ∧
    ((running 0x102).curCmd.extractLsb' 0 8 ≠ 0x05 ∧ (running 0x102).curCmd.extractLsb' 8 2 ≠ 0) ∧
    ((running 0x305).curCmd.extractLsb' 0 8 = 0x05 ∧ (running 0x305).curCmd.extractLsb' 8 2 = 3) :=
  ⟨⟨⟨rfl, .inr ⟨_, rfl⟩⟩, rfl⟩,
    by decide +kernel,
    by decide, by decide, by decide⟩

theorem witness_StepRunsTheDecodedCommand :
    EngineMoves (running 0x105) ∧ (running 0x105).engState = .running ∧ decode (running 0x105).curCmd = .ok .encodeShannon :=
  ⟨⟨rfl, .inr ⟨_, rfl⟩⟩, rfl, rfl⟩

theorem witness_StepTakesTheOtherTurns :
    ({ src0001 with agenda := [.host (.read 32 0)] } : State).agenda = .host (.read 32 0) :: [] ∧
    (EngineMoves src0001 ∧ src0001.engState ≠ .running) ∧ (EngineMoves faulted0001 ∧ faulted0001.engState ≠ .running) :=
  ⟨rfl, ⟨⟨rfl, .inl rfl⟩, by decide⟩, ⟨rfl, .inl rfl⟩, by decide⟩

theorem witness_CommandAcceptedOnlyWhenIdle :
    (src0001.resetHeld = false ∧ src0001.engState = .idle) ∧ ((running 1).resetHeld = false ∧ (running 1).engState ≠ .idle) ∧
    (faulted0001.resetHeld = false ∧ faulted0001.engState ≠ .idle) := by decide

theorem witness_FaultsDiscardEveryAssignment :
    exec .stats src0001 = .next (after .stats src0001) ∧ (after .stats src0001).engState = .faulted := ⟨rfl, rfl⟩

/-- One fault of each kind a command raises. -/
theorem witness_FaultsAreThoseOfTheTable :
    (exec .hufInit src0001 = .next (after .hufInit src0001) ∧ (after .hufInit src0001).engState = .faulted) ∧
    (exec .encodeFixed src0001 = .next (after .encodeFixed src0001) ∧ (after .encodeFixed src0001).engState = .faulted) ∧
    (exec .hufStep src0001 = .next (after .hufStep src0001) ∧ (after .hufStep src0001).engState = .faulted) ∧
    (exec .hufExtract init4211 = .next (after .hufExtract init4211) ∧ (after .hufExtract init4211).engState = .faulted) ∧
    (exec .encodeShannon { built0001 with src := sourceOf [0, 2, 0, 1] } =
        .next (after .encodeShannon { built0001 with src := sourceOf [0, 2, 0, 1] }) ∧
      (after .encodeShannon { built0001 with src := sourceOf [0, 2, 0, 1] }).engState = .faulted) :=
  ⟨⟨rfl, rfl⟩, ⟨rfl, rfl⟩, ⟨rfl, rfl⟩, ⟨rfl, rfl⟩, rfl, by decide +kernel⟩

theorem witness_PreconditionsFault :
    src0001.alphaLen = 0 ∧ src0001.valid.get .huffman = false ∧ src0001.hufState = .empty ∧
    (init4211.hufState ≠ .empty ∧ init4211.wcnt ≠ 1) := by decide

theorem witness_AbsentSymbolFaultsAtTheLowestPosition :
    let s : State := { built0001 with src := sourceOf [0, 2, 0, 1] }
    s.valid.get .shannon = true ∧ 1 < s.params.pN ∧ s.Absent 1 ∧ ∀ j' < 1, ¬ s.Absent j' := by
  refine ⟨rfl, by decide, ?_, ?_⟩
  · show ∀ i < 2, _
    decide +kernel
  · intro j hj h
    obtain rfl : j = 0 := by omega
    exact h 0 (by decide) (by decide +kernel)

theorem witness_FaultedIsStuckUntilReset :
    let s : State := { faulted0001 with agenda := [.host (.write 32 0x10 1)] }
    s.engState = .faulted ∧ ¬ ResetMoves s ∧ step s = .next (stepped s) := by
  refine ⟨rfl, ?_, rfl⟩
  rintro ⟨rest, h | ⟨v, -, h⟩⟩ <;> simp at h

theorem witness_StepKeepsTheConfiguration : step (running 1) = .next (stepped (running 1)) := rfl

theorem witness_CommandsLeaveTheHostsStateAlone : exec .buildAlpha src0001 = .next (after .buildAlpha src0001) := rfl

/-- Each command does change the results the statement gives to it. -/
theorem witness_EachResultHasItsOwnWriters :
    (after .mbr src0001).result ≠ src0001.result ∧
    (after .stats alpha0001).statSumbits ≠ alpha0001.statSumbits ∧
    (after .buildAlpha src0001).alphaLen ≠ src0001.alphaLen ∧
    (after .buildFixed alpha0001).cb.fixed ≠ alpha0001.cb.fixed ∧
    (after .buildShannon alpha0001).cb.shannon ≠ alpha0001.cb.shannon ∧
    (after .hufExtract merged4211).cb.huffman ≠ merged4211.cb.huffman ∧
    (after .buildFixed alpha0001).valid.fixed ≠ alpha0001.valid.fixed ∧
    (after .hufExtract merged4211).valid.huffman ≠ merged4211.valid.huffman ∧
    ((after .hufInit alpha4211).hufState ≠ alpha4211.hufState ∧ (after .hufInit alpha4211).wcnt ≠ alpha4211.wcnt) ∧
    (after .hufStep init4211).nodeCnt ≠ init4211.nodeCnt ∧
    (after .hufExtract merged4211).hufRoot ≠ merged4211.hufRoot ∧
    (let t := after .encodeShannon built0001
     t.out ≠ built0001.out ∧ t.encLen.get .shannon ≠ built0001.encLen.get .shannon ∧
     t.encValid.get .shannon ≠ built0001.encValid.get .shannon ∧ t.lastCb ≠ built0001.lastCb) ∧
    (after .encodeFixed fixed5).trunc ≠ fixed5.trunc ∧
    (after .hufStep init4211).node ≠ init4211.node := by decide +kernel

/-- Every symbol of a bucket range's ends: a source of 0 and 255. -/
theorem witness_AlphabetIsTheCensusOfTheSource :
    (loaded 32 [0, 255]).params.wf = true ∧ exec .buildAlpha (loaded 32 [0, 255]) = .next (after .buildAlpha (loaded 32 [0, 255])) ∧
    shows (after .buildAlpha (loaded 32 [0, 255])) 0x1004 = 0x1FF := ⟨by decide, rfl, by decide +kernel⟩

theorem witness_BuildAlphaDependsOnTheSourceAlone :
    src0001.srcBytes = faulted0001.srcBytes ∧ src0001 ≠ faulted0001 ∧
    exec .buildAlpha src0001 = .next (after .buildAlpha src0001) ∧
    exec .buildAlpha faulted0001 = .next (after .buildAlpha faulted0001) := 
  ⟨rfl, fun h => EngState.noConfusion (congrArg State.engState h), rfl, rfl⟩

/-- The operands at the ends of the clauses: 0, 1, 127, 128, and 256, which IGNORE reads as 0. -/
theorem witness_MbrGivesTheHighestBitPosition :
    (∀ u ∈ [0, 1, 127, 128], u = if (MbrMode.cap = .cap) then (BitVec.ofNat 32 u).toNat else (BitVec.ofNat 32 u).toNat % 256) ∧
    (0 = if (MbrMode.ignore = .cap) then (256#32).toNat else (256#32).toNat % 256) := by decide +kernel

theorem witness_StatsSumsTheBitScan :
    src0001.alphaLen = 0 ∧ (ofLength 1).alphaLen ≠ 0 ∧ (ofLength 256).alphaLen ≠ 0 ∧ (ofLength 256).alphaLen.toNat ≤ 256 ∧ (ofLength 256).alphaLen = 256 ∧
    (ofLength 511).alphaLen ≠ 0 := by decide

theorem witness_FixedCodebookIsUniformAndPrefixFree :
    ((ofLength 1).alphaLen ≠ 0 ∧ (ofLength 1).alphaLen.toNat ≤ 255) ∧ (ofLength 255).alphaLen.toNat ≤ 255 ∧
    ((ofLength 256).params.mbrMode = .cap ∧ (ofLength 256).alphaLen.toNat = 256) ∧
    exec .buildFixed (ofLength 256) = .next (after .buildFixed (ofLength 256)) := ⟨by decide, by decide, by decide, rfl⟩

theorem witness_BuildShannonCompletes : src0001.alphaLen = 0 ∧ (ofLength 1).alphaLen ≠ 0 ∧ (ofLength 256).alphaLen ≠ 0 := by decide

theorem witness_ShannonCodebookIsPrefixFreeAndBalanced :
    ((ofLength 1).alphaLen ≠ 0 ∧ (ofLength 1).alphaLen.toNat = 2 ^ 0) ∧
    ((ofLength 256).alphaLen ≠ 0 ∧ (ofLength 256).alphaLen.toNat ≤ 256 ∧ (ofLength 256).alphaLen.toNat = 2 ^ 8) ∧
    exec .buildShannon (ofLength 256) = .next (after .buildShannon (ofLength 256)) := ⟨by decide, by decide, rfl⟩

theorem witness_ShannonCodebookDependsOnLengthAlone :
    alpha0001.alphaLen = (ofLength 2).alphaLen ∧ (ofLength 2).alphaLen ≠ 0 ∧
    exec .buildShannon alpha0001 = .next (after .buildShannon alpha0001) ∧
    exec .buildShannon (ofLength 2) = .next (after .buildShannon (ofLength 2)) := ⟨rfl, by decide, rfl, rfl⟩

theorem witness_HufInitCompletes : src0001.alphaLen = 0 ∧ (ofLength 1).alphaLen ≠ 0 ∧ (ofLength 256).alphaLen ≠ 0 := by decide

/-- One queue for each of the three turns: [5, 1] with 0, with 3, and with 7 next (V-H0's [5, 1, 3] is the second). -/
theorem witness_ScanIsTheLiteralOne :
    selectScan (fun p => ([5, 1] : List Freq).getD p 0) 2 = (0, 1) ∧
    ((0 : Freq).toNat < (1 : Freq).toNat) ∧
    (¬ (3 : Freq).toNat < (1 : Freq).toNat ∧ (3 : Freq).toNat < (5 : Freq).toNat) ∧
    (¬ (7 : Freq).toNat < (1 : Freq).toNat ∧ ¬ (7 : Freq).toNat < (5 : Freq).toNat) := by decide +kernel

/-- A queue for each clause: [2, 1]; [2, 3, 1], where position 0 is lost; [1, 2, 3]. -/
theorem witness_ScanSelectsAsCharacterised :
    selectScan (fun p => ([2, 1] : List Freq).getD p 0) 2 = (0, 1) ∧ ((1 : Freq) ≤ 2) ∧
    selectScan (fun p => ([2, 3, 1] : List Freq).getD p 0) 3 = (1, 2) ∧ ((2 : Freq) < 3 ∧ (1 : Freq) < 3) ∧
    selectScan (fun p => ([1, 2, 3] : List Freq).getD p 0) 3 = (0, 1) ∧ ((1 : Freq) < 2 ∧ (2 : Freq) ≤ 3) := by decide +kernel

/-- Four roots, the least number that merges: two; no queue; and one root; a leaf
and an internal node in the queue. -/
theorem witness_HufStepMergesTheSelectedRoots :
    (init4211.hufState ≠ .empty ∧ 2 ≤ init4211.wcnt.toNat ∧ selectScan init4211.weightAt init4211.wcnt.toNat = (3, 2)) ∧
    (let s : State := { init4211 with wcnt := 2 }
     s.hufState ≠ .empty ∧ 2 ≤ s.wcnt.toNat ∧ selectScan s.weightAt s.wcnt.toNat = (0, 1)) ∧
    src0001.hufState = .empty ∧ (merged4211.hufState ≠ .empty ∧ merged4211.wcnt = 1) ∧
    init4211.nodeAt (init4211.wqAt 0).toNat = .leaf 4 0 ∧
    built0001.nodeAt (built0001.wqAt 0).toNat = .internal 4 0 1 := by decide +kernel

/-- The two-leaf tree of S6 meets the invariant of the Huffman registers. -/
theorem built0001_hufInv : HufInv built0001 := ⟨by decide, by decide, by decide, by decide, by decide, by decide, by decide⟩

theorem built0001_node0 : built0001.nodeAt 0 = .leaf 3 0 := rfl
theorem built0001_node1 : built0001.nodeAt 1 = .leaf 1 1 := rfl
theorem built0001_node2 : built0001.nodeAt 2 = .internal 4 0 1 := rfl

/-- In the two-leaf tree only node 2 has children: nodes 0 and 1. -/
theorem built0001_isChild {m n : Nat} (hn : n < 3) : built0001.IsChild m n ↔ n = 2 ∧ m < 2 := by
  obtain rfl | rfl | rfl : n = 0 ∨ n = 1 ∨ n = 2 := by omega
  · simp [State.IsChild, built0001_node0]
  · simp [State.IsChild, built0001_node1]
  · rw [State.IsChild, built0001_node2]
    show (0 = m ∨ 1 = m) ↔ _
    omega

/-- The two-leaf tree of S6 meets the invariant of the arena and the queue. -/
theorem built0001_forestInv : ForestInv built0001 where
  leaves _ := show ∀ n < 2, _ by decide
  internals _ n hn hl := by
    obtain rfl : n = 2 := by have : n < 3 := hn; have : 2 ≤ n := hl; omega
    exact ⟨0, 1, by decide, by decide, by decide, rfl⟩
  queued _ := show ∀ p < 1, _ by decide
  once _ := show ∀ p < 1, ∀ q < 1, _ by decide
  roots _ m hm := by
    have hm : m < 3 := hm
    constructor
    · rintro ⟨p, hp, h⟩ n hn hc
      obtain rfl : p = 0 := by have : p < 1 := hp; omega
      have : 2 = m := h
      have := ((built0001_isChild (show n < 3 from hn)).1 hc).2
      omega
    · intro h
      refine ⟨0, by decide, show 2 = m from ?_⟩
      have : ¬ m < 2 := fun hm2 => h 2 (by decide) ((built0001_isChild (by decide)).2 ⟨rfl, hm2⟩)
      omega
  oneParent _ m _ n hn n' hn' h h' :=
    ((built0001_isChild (show n < 3 from hn)).1 h).1.trans ((built0001_isChild (show n' < 3 from hn')).1 h').1.symm

/-- The alphabet of S6 meets the invariant of the alphabet. -/
theorem built0001_alphaInv : AlphaInv built0001 where
  ascending i hi := by
    obtain rfl : i = 0 := by have : i + 1 < 2 := hi; omega
    decide
  positive := show ∀ i < 2, _ by decide
  total _ := by decide

theorem witness_HufExtractRecordsThePathOfEveryLeaf :
    src0001.hufState = .empty ∧ init4211.wcnt ≠ 1 ∧
    (built0001.hufState ≠ .empty ∧ built0001.wcnt = 1 ∧ HufInv built0001 ∧ ForestInv built0001) :=
  ⟨rfl, by decide, by decide, rfl, built0001_hufInv, built0001_forestInv⟩

theorem witness_BuildHuffmanIsTheStepCommandsInOrder : (ofLength 1).alphaLen ≠ 0 ∧ (ofLength 256).alphaLen ≠ 0 := by decide

theorem witness_BuildHuffmanCompletesWithOneRoot :
    ((ofLength 1).alphaLen ≠ 0 ∧ (ofLength 1).alphaLen.toNat ≤ 256) ∧
    ((ofLength 256).alphaLen ≠ 0 ∧ (ofLength 256).alphaLen.toNat ≤ 256) := by decide

theorem witness_HuffmanCodebookIsPrefixFree :
    alpha4211.alphaLen ≠ 0 ∧ alpha4211.alphaLen.toNat ≤ 256 ∧ exec .buildHuffman alpha4211 = .next (after .buildHuffman alpha4211) :=
  ⟨by decide, by decide, rfl⟩

theorem witness_HuffmanRootWeighsTheSource :
    built0001.params.wf = true ∧ built0001.alphaLen ≠ 0 ∧ built0001.alphaLen.toNat ≤ 256 ∧ AlphaInv built0001 ∧
    exec .buildHuffman built0001 = .next (after .buildHuffman built0001) :=
  ⟨by decide, by decide, by decide, built0001_alphaInv, rfl⟩

/-- The index of each position of S6's source. -/
def index0001 (j : Nat) : Nat := if j = 3 then 1 else 0

theorem witness_EncodeCompletesWithTheStream :
    ((Instr.encodeFixed, Book.fixed) ∈ [(Instr.encodeFixed, Book.fixed), (.encodeShannon, .shannon), (.encodeHuffman, .huffman)] ∧
      (Instr.encodeShannon, Book.shannon) ∈ [(Instr.encodeFixed, Book.fixed), (.encodeShannon, .shannon), (.encodeHuffman, .huffman)] ∧
      (Instr.encodeHuffman, Book.huffman) ∈ [(Instr.encodeFixed, Book.fixed), (.encodeShannon, .shannon), (.encodeHuffman, .huffman)]) ∧
    (∀ k : Book, built0001.valid.get k = true) ∧ built0001.Looks index0001 :=
  ⟨by decide, fun k => by cases k <;> rfl, show ∀ j < 4, _ by decide +kernel⟩

theorem witness_EncodedLengthIsTheWeightedSum :
    built0001.params.wf = true ∧ AlphaInv built0001 ∧ built0001.alphaLen ≠ 0 ∧
    (∀ i < built0001.alphaLen.toNat, (built0001.alphaAt i).freq.toNat = built0001.srcBytes.count (built0001.alphaAt i).sym) ∧
    built0001.valid.get .fixed = true ∧ exec (encodeCommand .fixed) built0001 = .next (after .encodeFixed built0001) :=
  ⟨by decide, built0001_alphaInv, by decide, show ∀ i < 2, _ by decide +kernel, rfl, rfl⟩

/-- The Shannon codebook of S6, "0" and "1", is prefix-free. -/
theorem built0001_prefixFree : PrefixFree (built0001.codeword .shannon) built0001.alphaLen.toNat :=
  show ∀ i < 2, ∀ j < 2, _ by decide +kernel

theorem witness_StreamDeterminesTheSource :
    built0001.params.wf = true ∧ 2 ≤ built0001.alphaLen.toNat ∧ PrefixFree (built0001.codeword .shannon) built0001.alphaLen.toNat ∧
    exec (encodeCommand .shannon) built0001 = .next (after .encodeShannon built0001) ∧
    (after .encodeShannon built0001).engState = .idle ∧ (after .encodeShannon built0001).trunc = false :=
  ⟨by decide, by decide, built0001_prefixFree, rfl, by decide +kernel, by decide +kernel⟩

/-- A size that is not 32, an address that is not aligned, and an accepted access at either end of the space. -/
theorem witness_ReadsAndBadAccessesChangeNoState :
    src0001.resetHeld = false ∧ (8 ≠ 32) ∧ (0x16#26).extractLsb' 0 2 ≠ 0 ∧ (0#26).extractLsb' 0 2 = 0 ∧
    (0x3FFFFFC#26).extractLsb' 0 2 = 0 := by decide

/-- The ends of the clauses' ranges: free reads and reads that stay defined. -/
theorem witness_BusyReadsAreFreeDraws :
    (running 1).resetHeld = false ∧ (running 1).engState = .running ∧
    (∀ n ∈ [0x018, 0x044, 0x1000, 0x13FC, 0x2000, 0x33FC, 0x10000, 0x1BFFC, 0x2000000, 0x3FFFFFC],
      (at26 n).extractLsb' 0 2 = 0 ∧
      ((at26 n).toNat ∈ [0x018, 0x01C, 0x020, 0x024, 0x028, 0x02C, 0x030, 0x034, 0x038, 0x03C, 0x044] ∨
        (0x1000 ≤ (at26 n).toNat ∧ (at26 n).toNat < 0x1400) ∨ (0x2000 ≤ (at26 n).toNat ∧ (at26 n).toNat < 0x3400) ∨
        (0x10000 ≤ (at26 n).toNat ∧ (at26 n).toNat < 0x1C000) ∨ 0x2000000 ≤ (at26 n).toNat)) ∧
    (∀ n ∈ [0x000, 0x040, 0x048, 0xFFC, 0x1400, 0x1FFC, 0x3400, 0xFFFC, 0x1C000, 0x1000000, 0x1FFFFFC],
      (at26 n).extractLsb' 0 2 = 0 ∧
      ((at26 n).toNat ∈ [0x000, 0x004, 0x008, 0x00C, 0x010, 0x014, 0x040] ∨ (0x048 ≤ (at26 n).toNat ∧ (at26 n).toNat < 0x1000) ∨
        (0x1400 ≤ (at26 n).toNat ∧ (at26 n).toNat < 0x2000) ∨ (0x3400 ≤ (at26 n).toNat ∧ (at26 n).toNat < 0x10000) ∨
        (0x1C000 ≤ (at26 n).toNat ∧ (at26 n).toNat < 0x2000000))) := by decide +kernel

/-- No address meets two clauses of `BusyReadsAreFreeDraws`: RESULT (0x044) is free, ARG (0x040) and 0x048 are not. -/
theorem witness_BusyReadsAreFreeDraws_apart (n : Nat)
    (h : n ∈ [0x018, 0x01C, 0x020, 0x024, 0x028, 0x02C, 0x030, 0x034, 0x038, 0x03C, 0x044] ∨ (0x1000 ≤ n ∧ n < 0x1400) ∨
      (0x2000 ≤ n ∧ n < 0x3400) ∨ (0x10000 ≤ n ∧ n < 0x1C000) ∨ 0x2000000 ≤ n) :
    ¬ (n ∈ [0x000, 0x004, 0x008, 0x00C, 0x010, 0x014, 0x040] ∨ (0x048 ≤ n ∧ n < 0x1000) ∨ (0x1400 ≤ n ∧ n < 0x2000) ∨
      (0x3400 ≤ n ∧ n < 0x10000) ∨ (0x1C000 ≤ n ∧ n < 0x2000000)) := by
  simp only [List.mem_cons, List.not_mem_nil, or_false] at h ⊢
  omega

theorem witness_SourceWritesStoreBytesUnlessRunning :
    (src0001.resetHeld = false ∧ 0 < 2 ^ 22 ∧ src0001.engState ≠ .running) ∧ (2 ^ 22 - 1 < 2 ^ 22) ∧
    ((running 1).resetHeld = false ∧ (running 1).engState = .running) ∧ faulted0001.engState ≠ .running := by decide

theorem witness_SourceWindowReadsTheBytes : (running 1).resetHeld = false ∧ src0001.resetHeld = false := by decide

/-- Quiet in IDLE and in FAULTED. -/
theorem src0001_quiet : PortQuiet src0001 ∧ PortQuiet faulted0001 := ⟨⟨rfl, by decide⟩, rfl, by decide⟩

/-- In range and past it, a leaf and an internal node; node 511 is past it in every state. -/
theorem witness_AlphabetAndTreeWindowsRead :
    PortQuiet built0001 ∧ PortQuiet faulted0001 ∧
    (0 < built0001.nodeCnt.toNat ∧ built0001.nodeAt 0 = .leaf 3 0) ∧
    (2 < built0001.nodeCnt.toNat ∧ built0001.nodeAt 2 = .internal 4 0 1) ∧ built0001.nodeCnt.toNat ≤ 3 ∧
    built0001.nodeCnt.toNat ≤ 511 :=
  ⟨⟨rfl, by decide⟩, src0001_quiet.2, ⟨by decide, rfl⟩, ⟨by decide, rfl⟩, by decide, by decide⟩

/-- The three pages; an entry and one past the alphabet; an unbuilt codebook; the one character of a codeword of S6; and OUT_LEN
before and after ENCODE_SHANNON of S6, four characters of the 32 that OUT holds. -/
theorem witness_CodebookAndStreamWindowsRead :
    (PortQuiet built0001 ∧ PortQuiet src0001 ∧ PortQuiet (after .encodeShannon built0001)) ∧
    ((Book.fixed, 0x10000) ∈ [(Book.fixed, 0x10000), (.shannon, 0x14000), (.huffman, 0x18000)] ∧
      (Book.huffman, 0x18000) ∈ [(Book.fixed, 0x10000), (.shannon, 0x14000), (.huffman, 0x18000)]) ∧
    (src0001.valid.get .huffman = false ∧ built0001.alphaLen.toNat ≤ 255) ∧
    (built0001.valid.get .huffman = true ∧ 1 < built0001.alphaLen.toNat ∧ 0 < (built0001.cbAt .huffman 1).len.toNat) ∧
    (src0001.encValid.get src0001.lastCb = false ∧ src0001.outLen = 0) ∧
    (let t := after .encodeShannon built0001
     t.encValid.get t.lastCb = true ∧ min (t.encLen.get t.lastCb).toNat t.params.pOutBits = 4 ∧ t.outLen = 4) :=
  ⟨⟨⟨rfl, by decide⟩, src0001_quiet.1, by decide +kernel, by decide +kernel⟩, by decide, by decide, by decide +kernel, by decide,
    by decide +kernel⟩

/-- Out of reset: RUNNING, IDLE and FAULTED; and the ends of the reserved ranges. -/
theorem witness_ControlPageReads :
    ((running 1).resetHeld = false ∧ (running 1).engState = .running) ∧
    (src0001.resetHeld = false ∧ src0001.engState ≠ .running) ∧ (faulted0001.resetHeld = false ∧ faulted0001.engState = .faulted) ∧
    ∀ n ∈ [0x048, 0xFFC, 0x1400, 0x1FFC, 0x3400, 0xFFFC, 0x1C000, 0xFFFFFC], (at26 n).extractLsb' 0 2 = 0 ∧
      ((0x048 ≤ (at26 n).toNat ∧ (at26 n).toNat < 0x1000) ∨ (0x1400 ≤ (at26 n).toNat ∧ (at26 n).toNat < 0x2000) ∨
        (0x3400 ≤ (at26 n).toNat ∧ (at26 n).toNat < 0x10000) ∨ (0x1C000 ≤ (at26 n).toNat ∧ (at26 n).toNat < 0x1000000)) := by
  decide +kernel

/-- A quiet machine for each number of the coded fields. -/
theorem witness_ControlPageReads_codes (c : FaultCode) (h : HufState) (k : Book) :
    let s : State := { src0001 with err := c, hufState := h, lastCb := k }
    s.resetHeld = false ∧ s.engState ≠ .running ∧ s.err = c ∧ s.hufState = h ∧ s.lastCb = k :=
  ⟨rfl, src0001_quiet.1.2, rfl, rfl, rfl⟩

theorem witness_WritesToReadOnlyPlacesAreIgnored :
    src0001.resetHeld = false ∧
    ∀ n ∈ [0x000, 0x008, 0x018, 0x044, 0x1000, 0xFFFFFC, 0x2000000, 0x3FFFFFC], (at26 n).extractLsb' 0 2 = 0 ∧
      (at26 n).toNat ∉ [0x00C, 0x010, 0x014, 0x040] ∧ ¬ (0x1000000 ≤ (at26 n).toNat ∧ (at26 n).toNat < 0x2000000) := by decide +kernel

theorem witness_StatusArgAndEnableWrites :
    (running 1).resetHeld = false ∧ src0001.resetHeld = false ∧ (0xFFFFFFFD : Word).getLsbD 1 = false := by decide

theorem witness_SoftResetKeepsOnlyTheSource :
    (running 1).resetHeld = false ∧ faulted0001.resetHeld = false ∧ (2 : Word).getLsbD 1 = true ∧ (0xFFFFFFFF : Word).getLsbD 1 = true := by
  decide

theorem witness_HardResetForgetsEverything : held.resetHeld = true := rfl

theorem witness_EveryResultReadsZeroAfterAReset :
    (∀ n ∈ [0x00C, 0x044, 0x1000, 0xFFFFFC, 0x2000000, 0x3FFFFFC], (at26 n).extractLsb' 0 2 = 0 ∧ (at26 n).toNat ∉ [0x000, 0x004, 0x008] ∧
      ¬ (0x1000000 ≤ (at26 n).toNat ∧ (at26 n).toNat < 0x2000000)) ∧
    (built0001.resetHeld = false ∧ (2 : Word).getLsbD 1 = true) ∧ held.resetHeld = true := by decide +kernel

theorem witness_InterruptFollowsDone :
    ((running 1).resetHeld = false ∧ (running 1).engState = .running) ∧ (src0001.resetHeld = false ∧ src0001.engState = .idle) ∧
    (0x702 : Word).getLsbD 1 = true ∧ held.resetHeld = true := by decide

theorem witness_AcceptedCommandEnds :
    (running 1).engState = .running ∧ (running 1).resetHeld = false ∧ Turn.host .assertReset ∉ (running 1).agenda := by decide

theorem witness_LoadSrcLoadsTheBytes :
    src0001.params.wf = true ∧ PortQuiet src0001 ∧ ([1, 2, 3, 4] : List Byte).length = src0001.params.pN :=
  ⟨by decide, src0001_quiet.1, rfl⟩

/-- The parameters at the ends of their ranges. -/
theorem witness_ResetMeetsTheInvariants :
    (Params.mk 1 32 .cap).wf = true ∧ (Params.mk (2 ^ 24 - 1) (2 ^ 28) .ignore).wf = true := by decide

/-- The registers of the engine: idle, running and faulted. -/
theorem witness_StepKeepsEngineInv :
    (EngineInv src0001 ∧ step src0001 = .next (stepped src0001)) ∧ (EngineInv (running 1) ∧ step (running 1) = .next (stepped (running 1))) ∧
    EngineInv faulted0001 :=
  ⟨⟨⟨by decide, by decide, by decide, by decide⟩, rfl⟩, ⟨⟨by decide, by decide, by decide, by decide⟩, rfl⟩,
    by decide, by decide, by decide, by decide⟩

/-- The machine of S6 with a Huffman command accepted. -/
def builtRunning : State := placeCommand 0x12 built0001

theorem builtRunning_hufInv : HufInv builtRunning := ⟨by decide, by decide, by decide, by decide, by decide, by decide, by decide⟩

theorem builtRunning_forestInv : ForestInv builtRunning :=
  ⟨built0001_forestInv.1, built0001_forestInv.2, built0001_forestInv.3, built0001_forestInv.4, built0001_forestInv.5, built0001_forestInv.6⟩

theorem witness_StepKeepsHufInv : HufInv builtRunning ∧ step builtRunning = .next (stepped builtRunning) := ⟨builtRunning_hufInv, rfl⟩

theorem witness_StepKeepsStoreInv : HufInv builtRunning ∧ StoreInv builtRunning ∧ step builtRunning = .next (stepped builtRunning) :=
  ⟨builtRunning_hufInv, ⟨by decide, by decide, by decide, by decide, fun k => by cases k <;> decide, by decide, by decide⟩, rfl⟩

theorem witness_StepKeepsAlphaInv :
    builtRunning.params.wf = true ∧ AlphaInv builtRunning ∧ step builtRunning = .next (stepped builtRunning) :=
  ⟨by decide, ⟨built0001_alphaInv.1, built0001_alphaInv.2, built0001_alphaInv.3⟩, rfl⟩

theorem witness_StepKeepsForestInv : HufInv builtRunning ∧ ForestInv builtRunning ∧ step builtRunning = .next (stepped builtRunning) :=
  ⟨builtRunning_hufInv, builtRunning_forestInv, rfl⟩

/-- A vector below 2^n has nothing from bit n on. -/
theorem clear_above {x : BitVec 256} {n j : Nat} (h : x.toNat < 2 ^ n) (hj : n ≤ j) : x.getLsbD j = false :=
  Nat.testBit_lt_two_pow (lt_of_lt_of_le h (Nat.pow_le_pow_right (by decide) hj))

/-- The codebooks of S6 meet the invariant of the codebooks. -/
theorem built0001_bookInv : BookInv built0001 := by
  intro k _ i hi j hj
  refine clear_above ?_ hj
  obtain rfl | rfl : i = 0 ∨ i = 1 := by have : i < 2 := hi; omega
  all_goals cases k <;> decide +kernel

theorem witness_StepKeepsBookInv :
    HufInv builtRunning ∧ ForestInv builtRunning ∧ BookInv builtRunning ∧ step builtRunning = .next (stepped builtRunning) :=
  ⟨builtRunning_hufInv, builtRunning_forestInv, built0001_bookInv, rfl⟩

end Sys2Proof.Tests
end

section
/-! PROOFS, the state (10_state.md): what a step can do to the tables, said once over an arbitrary predicate, and what a completing command
leaves alone. -/

namespace Sys2Proof.Machine

/-- `t` is `s` but for the registers and stores that none of the invariants of the tables speaks of: those of the port, of the host and of
the engine's control, SRC, the result registers and the two scan positions. -/
def SameTables (s t : State) : Prop :=
  t = { s with
    ie := t.ie, lastCmd := t.lastCmd, curCmd := t.curCmd, curArg := t.curArg, engState := t.engState, done := t.done, err := t.err,
    cmdDropped := t.cmdDropped, wrDropped := t.wrDropped, busErr := t.busErr, faultInfo := t.faultInfo, encValid := t.encValid,
    trunc := t.trunc, lastCb := t.lastCb, encLen := t.encLen, statSumbits := t.statSumbits, arg := t.arg, result := t.result,
    src := t.src, min1 := t.min1, min2 := t.min2, agenda := t.agenda, response := t.response,
    draws := t.draws, resetHeld := t.resetHeld, srcEpoch := t.srcEpoch }

theorem sameTables_portRead (a : Addr) (s : State) : SameTables s (portRead a s) := by
  obtain ⟨-, -, h⟩ | ⟨-, h⟩ := portRead_cases a s <;> (rw [h]; rfl)

theorem sameTables_submitCommand (c : Word) (s : State) : SameTables s (submitCommand c s) := by
  unfold submitCommand
  cases s.engState <;> rfl

/-- A write leaves the tables as they are or resets them (R57, R127). -/
theorem Writes.sameTables {a : Addr} {v : Word} {s u : State} (h : Writes a v s u) :
    SameTables s u ∨ SameTables (clearAll s) u := by
  cases h with
  | softReset => exact .inr rfl
  | submit => exact .inl (sameTables_submitCommand v s)
  | enable | status | arg | srcDropped | src | ignored => exact .inl rfl

/-- A host action leaves the tables as they are or resets them (R57, R126, R127). -/
theorem Acts.sameTables {s t : State} {act : HostAction} (h : Acts s act t) :
    SameTables s t ∨ SameTables (clearAll s) t := by
  cases h with
  | release => exact .inr rfl
  | read a => exact .inl (sameTables_portRead a s)
  | write a v u _ _ hw =>
    rcases hw.sameTables with h | h
    · left; unfold SameTables at h ⊢; rw [h]
    · right; unfold SameTables at h ⊢; rw [h]
  | assert | releaseIdle | heldRead | heldWrite | badRead | badWrite => exact .inl rfl

/-- THE rule of an invariant of the tables: what does not look beyond them, holds after a reset, and is kept by the assignments of every
command that completes, is kept by every step. -/
theorem step_keeps {P : State → Prop} (hsame : ∀ s t, SameTables s t → P s → P t) (hreset : ∀ s, P s → P (clearAll s))
    (hassigns : ∀ s i u, P s → Assigns s i u → P u) {s t : State} (hs : P s) (h : step s = .next t) : P t := by
  have hpop : P (popTurn s) := hsame s _ rfl hs
  cases moves_of_step h with
  | host a rest ha =>
    rcases (hostAct_cases a (popTurn s)).sameTables with h | h
    · exact hsame _ _ h hpop
    · exact hsame _ _ h (hreset _ hpop)
  | rest => exact hpop
  | illegal => exact hsame _ _ rfl hpop
  | command i t he hr hd hx =>
    obtain ⟨u, hu, hx'⟩ | ⟨c, v, -, hx'⟩ := exec_cases i (popTurn s)
    · obtain rfl : complete u = t := by simpa [hx'] using hx
      exact hsame u _ rfl (hassigns _ i u hpop hu)
    · obtain rfl : raiseFault c v (popTurn s) = t := by simpa [hx'] using hx
      exact hsame _ _ rfl hpop

/-- What a host action can do to SRC (R66, R126). -/
theorem Acts.src {s t : State} {act : HostAction} (h : Acts s act t) :
    t.src = s.src ∨ t.src = [] ∨ ∃ w v, t.src = storeSrcWord s.params.pN s.src w v := by
  cases h with
  | release => exact .inr (.inl rfl)
  | read a => left; obtain ⟨-, -, h⟩ | ⟨-, h⟩ := portRead_cases a s <;> rw [h]
  | write a v u _ _ hw =>
    cases hw with
    | src w => exact .inr (.inr ⟨w, v, rfl⟩)
    | submit => left; dsimp only; unfold submitCommand; cases s.engState <;> rfl
    | softReset | enable | status | arg | srcDropped | ignored => exact .inl rfl
  | assert | releaseIdle | heldRead | heldWrite | badRead | badWrite => exact .inl rfl

/-- What a completing command assigns is among the results of the commands: every other field is as it was (R86 to R108). -/
theorem Assigns.frame {s u : State} {i : Instr} (h : Assigns s i u) :
    u = { s with
      alphaLen := u.alphaLen, valid := u.valid, hufState := u.hufState, wcnt := u.wcnt, nodeCnt := u.nodeCnt, hufRoot := u.hufRoot,
      encValid := u.encValid, trunc := u.trunc, lastCb := u.lastCb, encLen := u.encLen, statSumbits := u.statSumbits,
      result := u.result, alpha := u.alpha, node := u.node, wq := u.wq, cb := u.cb, out := u.out, hist := u.hist, min1 := u.min1,
      min2 := u.min2 } := by
  cases h with
  | buildHuffman => rw [hufMergeAll_frame]; rfl
  | buildAlpha | buildFixed | buildShannon | encode | stats | mbr | hufInit | hufStepDone | hufStepMerge | hufExtract => rfl

/-- The end of a command leaves the fields that are no command's result as they were, whether it completes or faults (R110, R111). -/
theorem exec_frame {i : Instr} {s t : State} (h : exec i s = .next t) :
    t = { s with
      engState := t.engState, done := t.done, err := t.err, faultInfo := t.faultInfo,
      alphaLen := t.alphaLen, valid := t.valid, hufState := t.hufState, wcnt := t.wcnt, nodeCnt := t.nodeCnt, hufRoot := t.hufRoot,
      encValid := t.encValid, trunc := t.trunc, lastCb := t.lastCb, encLen := t.encLen, statSumbits := t.statSumbits,
      result := t.result, alpha := t.alpha, node := t.node, wq := t.wq, cb := t.cb, out := t.out, hist := t.hist, min1 := t.min1,
      min2 := t.min2 } := by
  obtain ⟨u, hu, hx⟩ | ⟨c, v, -, hx⟩ := exec_cases i s
  · obtain rfl : complete u = t := by simpa [hx] using h
    rw [hu.frame]
    rfl
  · obtain rfl : raiseFault c v s = t := by simpa [hx] using h
    rfl

/-- What a step can do to SRC: nothing, forget it, or store a word (R66, R126). -/
theorem step_src {s t : State} (h : step s = .next t) :
    t.src = s.src ∨ t.src = [] ∨ ∃ w v, t.src = storeSrcWord s.params.pN s.src w v := by
  cases moves_of_step h with
  | host a => exact (hostAct_cases a (popTurn s)).src
  | rest | illegal => exact .inl rfl
  | command i t he hr hd hx => left; rw [exec_frame hx]; rfl

/-- No step changes the configuration (R21). -/
theorem step_params {s t : State} (h : step s = .next t) : t.params = s.params :=
  step_keeps (P := fun u => u.params = s.params) (fun _ _ hst hu => by rw [hst]; exact hu) (fun _ hu => hu)
    (fun _ _ _ hu ha => by rw [ha.frame]; exact hu) rfl h

end Sys2Proof.Machine
end

section
/-! PROOFS, the registers of the Huffman builder (10_state.md R33, R34). -/

namespace Sys2Proof.Machine

/-- The new L of BUILD_ALPHA is the number of entries (R86). -/
theorem installAlphabet_alphaLen_toNat (bytes : List Byte) (s : State) :
    (installAlphabet (histogram bytes) s).alphaLen.toNat = (alphabetOf (histogram bytes)).length := by
  have h := alphabetOf_histogram_length bytes
  rw [installAlphabet_alphaLen, BitVec.toNat_ofNat]
  omega

/-- The loop of BUILD_HUFFMAN ends with one root (R104). -/
theorem hufMergeAll_hufInitBody_wcnt {s : State} (hl : s.alphaLen ≠ 0) :
    (hufMergeAll s.alphaLen.toNat (hufInitBody s)).wcnt = 1 := by
  have hl' : s.alphaLen.toNat ≠ 0 := fun h0 => hl (BitVec.eq_of_toNat_eq h0)
  exact BitVec.eq_of_toNat_eq (hufMergeAll_wcnt _ _ (by simp; omega) (by simp))

namespace HufInv

variable {s t : State}

theorem congr (hst : SameTables s t) (h : HufInv s) : HufInv t := by
  rw [hst]
  exact ⟨h.len_le, h.empty_iff, h.empty_nodes, h.queue_le, h.node_count, h.extracted_one, h.root_zero⟩

/-- EMPTY is exactly an empty queue, in numbers (R33). -/
theorem empty_iff_toNat (h : HufInv s) : s.hufState = .empty ↔ s.wcnt.toNat = 0 := by
  rw [h.empty_iff, ← BitVec.toNat_inj]; rfl

theorem ne_empty_of_wcnt (h : HufInv s) (h1 : 1 ≤ s.wcnt.toNat) : s.hufState ≠ .empty := by
  rw [ne_eq, h.empty_iff_toNat]; omega

/-- Where HUF_STEP merges there are two roots (R102). -/
theorem one_lt_wcnt (h : HufInv s) (he : s.hufState ≠ .empty) (h1 : s.wcnt ≠ 1) : 1 < s.wcnt.toNat := by
  have h0 : s.wcnt.toNat ≠ 0 := fun h0 => he (h.empty_iff_toNat.2 h0)
  have h1' : s.wcnt.toNat ≠ 1 := fun h1' => h1 (BitVec.eq_of_toNat_eq h1')
  omega

/-- While two roots are left the arena has a free node (R33, R44). -/
theorem nodeCnt_lt (h : HufInv s) (h1 : 1 < s.wcnt.toNat) : s.nodeCnt.toNat < 511 := by
  have := h.node_count (h.ne_empty_of_wcnt (by omega))
  have := h.len_le
  omega

/-- A merge adds one node, and NODE_CNT does not wrap (R102). -/
theorem mergeAt_nodeCnt_toNat (h : HufInv s) (h1 : 1 < s.wcnt.toNat) (a b : Nat) :
    (mergeAt a b s).nodeCnt.toNat = s.nodeCnt.toNat + 1 := by
  have := h.nodeCnt_lt h1
  have h1 : (1 : Count).toNat = 1 := rfl
  rw [mergeAt_nodeCnt, BitVec.toNat_add, h1]
  omega

/-! ### What keeps the invariant -/

theorem after_clearAll (s : State) : HufInv (clearAll s) := by
  constructor <;> simp

/-- BUILD_ALPHA leaves the builder EMPTY (R86, R133). -/
theorem after_buildAlpha (bytes : List Byte) (s : State) : HufInv (invalidateBuilt (installAlphabet (histogram bytes) s)) where
  len_le := by
    rw [invalidateBuilt_alphaLen, installAlphabet_alphaLen_toNat]
    exact alphabetOf_histogram_length bytes
  empty_iff := by simp
  empty_nodes := by simp
  queue_le := by simp
  node_count := by simp
  extracted_one := by simp
  root_zero := by simp

/-- HUF_INIT queues the L leaves (R100). -/
theorem after_hufInitBody (h : HufInv s) (hl : s.alphaLen ≠ 0) : HufInv (hufInitBody s) where
  len_le := h.len_le
  empty_iff := by simpa using hl
  empty_nodes := by simp
  queue_le := le_rfl
  node_count := fun _ => by simp; omega
  extracted_one := by simp
  root_zero := by simp

/-- One merge takes two roots and adds one, whichever positions it merges (R102, R106). -/
theorem after_mergeAt (h : HufInv s) (h1 : 1 < s.wcnt.toNat) (a b : Nat) : HufInv (mergeAt a b s) := by
  have hne := h.ne_empty_of_wcnt (by omega)
  have hw : (mergeAt a b s).wcnt.toNat = s.wcnt.toNat - 1 := hufMergeBody_wcnt s h1
  have hq := h.queue_le
  constructor
  case len_le => exact h.len_le
  case empty_iff =>
    have h0 : (0 : Count).toNat = 0 := rfl
    rw [mergeAt_hufState, ← BitVec.toNat_inj, hw, h0]
    exact iff_of_false hne (by omega)
  case empty_nodes => exact fun he => absurd he hne
  case queue_le => rw [hw, mergeAt_alphaLen]; omega
  case node_count =>
    have := h.node_count hne
    intro _
    rw [h.mergeAt_nodeCnt_toNat h1, hw, mergeAt_alphaLen]
    omega
  case extracted_one =>
    intro hx
    rw [h.extracted_one hx] at h1
    exact absurd h1 (by decide)
  case root_zero => exact h.root_zero

/-- HUF_EXTRACT changes nothing of it but HUF_STATE and HUF_ROOT (R103). -/
theorem after_hufExtractBody (h : HufInv s) (h1 : s.wcnt = 1) : HufInv (hufExtractBody s) where
  len_le := h.len_le
  empty_iff := by simp [h1]
  empty_nodes := by simp
  queue_le := h.queue_le
  node_count := fun _ => h.node_count (h.ne_empty_of_wcnt (by simp [h1]))
  extracted_one := fun _ => h1
  root_zero := by simp

/-- What HUF_INIT establishes and every merge keeps holds when the loop of BUILD_HUFFMAN ends (R104). -/
theorem mergeAll_induction {P : State → Prop} (h : HufInv s) (hl : s.alphaLen ≠ 0) (h0 : P (hufInitBody s))
    (hstep : ∀ u, HufInv u → P u → 1 < u.wcnt.toNat → P (hufMergeBody u)) :
    HufInv (hufMergeAll s.alphaLen.toNat (hufInitBody s)) ∧ P (hufMergeAll s.alphaLen.toNat (hufInitBody s)) :=
  hufMergeAll_induction (fun u => HufInv u ∧ P u) (fun u hu h1 => ⟨hu.1.after_mergeAt h1 _ _, hstep u hu.1 hu.2 h1⟩) _ _
    ⟨h.after_hufInitBody hl, h0⟩

theorem after_mergeAll (h : HufInv s) (hl : s.alphaLen ≠ 0) : HufInv (hufMergeAll s.alphaLen.toNat (hufInitBody s)) :=
  (h.mergeAll_induction (P := fun _ => True) hl trivial fun _ _ _ _ => trivial).1

/-- The assignments of every command keep it (R86 to R108). -/
theorem after_assigns {u : State} {i : Instr} (h : HufInv s) (hu : Assigns s i u) : HufInv u := by
  cases hu with
  | buildAlpha => exact after_buildAlpha _ s
  | hufInit hl => exact h.after_hufInitBody hl
  | hufStepMerge he h1 => exact h.after_mergeAt (h.one_lt_wcnt he h1) _ _
  | hufExtract he h1 => exact h.after_hufExtractBody h1
  | buildHuffman hl => exact (h.after_mergeAll hl).after_hufExtractBody (hufMergeAll_hufInitBody_wcnt hl)
  | stats | mbr | hufStepDone => exact h.congr rfl
  | buildFixed | buildShannon | encode =>
    exact ⟨h.len_le, h.empty_iff, h.empty_nodes, h.queue_le, h.node_count, h.extracted_one, h.root_zero⟩

end HufInv

/-- The rule of an invariant of the tables that rests on the registers of the builder: a command keeps it where they are in order. -/
theorem step_keeps_with_hufInv {P : State → Prop} (hsame : ∀ s t, SameTables s t → P s → P t) (hreset : ∀ s, P (clearAll s))
    (hassigns : ∀ s i u, HufInv s → P s → Assigns s i u → P u) {s t : State} (hinv : HufInv s) (hs : P s)
    (h : step s = .next t) : P t :=
  (step_keeps (P := fun u => HufInv u ∧ P u) (fun _ _ hst hu => ⟨hu.1.congr hst, hsame _ _ hst hu.2⟩)
    (fun u _ => ⟨.after_clearAll u, hreset u⟩) (fun _ _ _ hu ha => ⟨hu.1.after_assigns ha, hassigns _ _ _ hu.1 hu.2 ha⟩)
    ⟨hinv, hs⟩ h).2

/-- Settles O56: the registers of the builder are no concern of the host's, and each command that writes them keeps their relations. -/
theorem stepKeepsHufInv : Obligations.StepKeepsHufInv := fun _ _ hs h =>
  step_keeps (fun _ _ => HufInv.congr) (fun s _ => HufInv.after_clearAll s) (fun _ _ _ => HufInv.after_assigns) hs h

end Sys2Proof.Machine
end

section
/-! PROOFS, the canonical form of the stores (10_state.md R42 to R48). SRC is the host's and the tables are the commands', so that the two
halves of the invariant are kept for two reasons. -/

namespace Sys2Proof.Machine

/-- A store in canonical form that lists no index from `n` on. -/
def Store.Fits {α : Type} (m : Store α) (n : Nat) : Prop := Store.wf m = true ∧ Store.below m n = true

namespace Store.Fits

variable {α : Type} {m : Store α} {n : Nat}

theorem nil (n : Nat) : Store.Fits ([] : Store α) n := ⟨rfl, rfl⟩

theorem set (h : m.Fits n) {i : Nat} (v : α) (hi : i < n) : Store.Fits (Store.set m i v) n :=
  ⟨Store.wf_set m i v h.1, Store.below_set m v hi h.2⟩

theorem setFrom (h : m.Fits n) {vs : List α} (hl : vs.length ≤ n) : Store.Fits (Store.setFrom m 0 vs) n :=
  ⟨Store.wf_setFrom vs m 0 h.1, Store.below_setFrom vs m (by omega) h.2⟩

theorem queueRemove {m : Store NodeId} (h : Store.Fits m n) (free : Nat → NodeId) {cnt : Nat} (p : Nat) (hn : cnt - 1 ≤ n) :
    Store.Fits (queueRemove free m cnt p) n :=
  ⟨wf_queueRemove free m cnt p h.1, below_queueRemove free m cnt p n hn h.2⟩

end Store.Fits

/-- The part of `StoreInv` about the tables, which the commands write (R43 to R48). -/
structure TableInv (s : State) : Prop where
  alpha : Store.Fits s.alpha 256
  node  : Store.Fits s.node 511
  wq    : Store.Fits s.wq 256
  cb    : ∀ k : Book, Store.Fits (s.cb.get k) 256
  out   : Store.Fits s.out s.params.pOutBits
  hist  : Store.Fits s.hist 256

theorem storeInv_iff (s : State) : StoreInv s ↔ Store.Fits s.src s.params.pN ∧ TableInv s :=
  ⟨fun h => ⟨h.src, h.alpha, h.node, h.wq, h.cb, h.out, h.hist⟩,
   fun ⟨hs, h⟩ => ⟨hs, h.alpha, h.node, h.wq, h.cb, h.out, h.hist⟩⟩

namespace TableInv

variable {s t : State}

theorem congr (hst : SameTables s t) (h : TableInv s) : TableInv t := by
  rw [hst]
  exact ⟨h.alpha, h.node, h.wq, h.cb, h.out, h.hist⟩

theorem after_clearAll (s : State) : TableInv (clearAll s) where
  alpha := .nil _
  node := .nil _
  wq := .nil _
  cb := fun k => by rw [clearAll_cb, PerBook.get_all]; exact .nil _
  out := .nil _
  hist := .nil _

/-- Writing one codebook within its 256 entries keeps all three. -/
theorem cb_set (h : TableInv s) (k : Book) {m : Store Codeword} (hm : Store.Fits m 256) (k' : Book) :
    Store.Fits ((s.cb.set k m).get k') 256 := by
  rw [PerBook.get_set]
  split
  · exact hm
  · exact h.cb k'

theorem after_hufInitBody (h : TableInv s) (hlen : s.alphaLen.toNat ≤ 256) : TableInv (hufInitBody s) where
  alpha := h.alpha
  node := h.node.setFrom (by simp [leavesOf]; omega)
  wq := h.wq.setFrom (by simpa using hlen)
  cb := h.cb
  out := h.out
  hist := h.hist

/-- One merge writes the next node and the positions of the queue before its end (R102). -/
theorem after_mergeAt (h : TableInv s) (hinv : HufInv s) (h1 : 1 < s.wcnt.toNat) (a b : Nat) : TableInv (mergeAt a b s) where
  alpha := h.alpha
  node := h.node.set _ (hinv.nodeCnt_lt h1)
  wq := by
    have hlen := hinv.len_le
    have hq := hinv.queue_le
    exact ((h.wq.queueRemove _ _ (by omega)).queueRemove _ _ (by omega)).set _ (by omega)
  cb := h.cb
  out := h.out
  hist := h.hist

theorem after_hufExtractBody (h : TableInv s) : TableInv (hufExtractBody s) where
  alpha := h.alpha
  node := h.node
  wq := h.wq
  cb := h.cb_set .huffman
    ⟨wf_hufWalk s _ _ _ _ (h.cb .huffman).1, below_hufWalk s _ _ _ _ (h.cb .huffman).2⟩
  out := h.out
  hist := h.hist

/-- The assignments of every command keep the tables inside their arrays (R86 to R108). -/
theorem after_assigns {u : State} {i : Instr} (h : TableInv s) (hinv : HufInv s) (hu : Assigns s i u) : TableInv u := by
  have hlen := hinv.len_le
  cases hu with
  | buildAlpha =>
    exact ⟨h.alpha.setFrom (alphabetOf_histogram_length _), h.node, h.wq, h.cb, h.out, wf_histogram _, below_histogram _⟩
  | buildFixed =>
    have hfix := (h.cb .fixed).setFrom (vs := fixedBook s.params.mbrMode s.alphaLen) (by simpa [fixedBook] using hlen)
    exact ⟨h.alpha, h.node, h.wq, h.cb_set .fixed hfix, h.out, h.hist⟩
  | buildShannon =>
    have hsh : Store.Fits (shannonSplit s.alphaLen.toNat 0 (s.alphaLen.toNat - 1) [] (s.cb.get .shannon)) 256 :=
      ⟨wf_shannonSplit _ _ _ _ _ (h.cb .shannon).1, below_shannonSplit 256 _ _ _ _ _ (by omega) (h.cb .shannon).2⟩
    exact ⟨h.alpha, h.node, h.wq, h.cb_set .shannon hsh, h.out, h.hist⟩
  | encode k w =>
    exact ⟨h.alpha, h.node, h.wq, h.cb, h.out.setFrom (List.length_take_le _ _), h.hist⟩
  | hufInit => exact h.after_hufInitBody hlen
  | hufStepMerge he h1 => exact h.after_mergeAt hinv (hinv.one_lt_wcnt he h1) _ _
  | hufExtract => exact h.after_hufExtractBody
  | buildHuffman hl =>
    exact (hinv.mergeAll_induction hl (h.after_hufInitBody hlen) fun u hu h h1 => h.after_mergeAt hu h1 _ _).2.after_hufExtractBody
  | stats | mbr | hufStepDone => exact h.congr rfl

end TableInv

/-- Every step keeps SRC canonical and below P_N (R42, R66, R126). -/
theorem step_keeps_src_fits {s t : State} (hs : Store.Fits s.src s.params.pN) (h : step s = .next t) : Store.Fits t.src t.params.pN := by
  rw [step_params h]
  obtain he | he | ⟨w, v, he⟩ := step_src h <;> rw [he]
  · exact hs
  · exact .nil _
  · exact ⟨wf_storeSrcWord _ _ _ _ hs.1, below_storeSrcWord _ _ _ _ hs.2⟩

/-- Settles O57: SRC by the one word a step can store there, the tables by the bounds HufInv puts on what each command writes. -/
theorem stepKeepsStoreInv : Obligations.StepKeepsStoreInv := by
  intro s t hinv hs h
  obtain ⟨hsrc, htab⟩ := (storeInv_iff s).1 hs
  have htab' : TableInv t := step_keeps_with_hufInv (fun _ _ => TableInv.congr) TableInv.after_clearAll
    (fun _ _ _ hu h ha => h.after_assigns hu ha) hinv htab h
  exact (storeInv_iff t).2 ⟨step_keeps_src_fits hsrc h, htab'⟩

end Sys2Proof.Machine
end

section
/-! PROOFS, the alphabet (10_state.md R43, 40_alphabet.md R86, R87). -/

namespace Sys2Proof.Machine

/-! ### The census -/

/-- The bytes that occur in the source, in ascending order (R86). -/
def usedBytes (bytes : List Byte) : List Nat := (List.range 256).filter fun v => BitVec.ofNat 8 v ∈ bytes

/-- The entry BUILD_ALPHA makes for a byte (R86). -/
def censusEntry (bytes : List Byte) (v : Nat) : AlphaEntry := ⟨BitVec.ofNat 8 v, BitVec.ofNat 24 (bytes.count (BitVec.ofNat 8 v))⟩

/-- The alphabet of a tally is one entry for each byte that occurs, as long as the counters do not wrap (R9, R86). -/
theorem alphabetOf_histogram {bytes : List Byte} (h : bytes.length < 2 ^ 24) :
    alphabetOf (histogram bytes) = (usedBytes bytes).map (censusEntry bytes) := by
  rw [alphabetOf, histogram, List.filterMap_map, usedBytes, ← List.filterMap_eq_map, List.filterMap_filter]
  apply List.filterMap_congr
  intro v _
  have hc : BitVec.ofNat 24 (bytes.count (BitVec.ofNat 8 v)) ≠ 0 ↔ BitVec.ofNat 8 v ∈ bytes := by
    have hle : bytes.count (BitVec.ofNat 8 v) ≤ bytes.length := List.count_le_length
    have h0 : (0 : Freq).toNat = 0 := rfl
    rw [← List.count_pos_iff, ne_eq, ← BitVec.toNat_inj, BitVec.toNat_ofNat, Nat.mod_eq_of_lt (by omega), h0]
    omega
  simp only [Function.comp_apply, hc, decide_eq_true_eq, censusEntry]

theorem usedBytes_lt {bytes : List Byte} {v : Nat} (h : v ∈ usedBytes bytes) : v < 256 := by
  simpa using (List.mem_filter.1 h).1

theorem censusEntry_freq_toNat {bytes : List Byte} (h : bytes.length < 2 ^ 24) (v : Nat) :
    (censusEntry bytes v).freq.toNat = bytes.count (BitVec.ofNat 8 v) := by
  have hle : bytes.count (BitVec.ofNat 8 v) ≤ bytes.length := List.count_le_length
  rw [censusEntry, BitVec.toNat_ofNat, Nat.mod_eq_of_lt (by omega)]

/-- Symbols ascend (R87). -/
theorem pairwise_census (bytes : List Byte) :
    ((usedBytes bytes).map (censusEntry bytes)).Pairwise fun x y => x.sym < y.sym := by
  rw [List.pairwise_map]
  refine (List.pairwise_lt_range.filter _).imp_of_mem fun {v w} hv hw hlt => ?_
  have := usedBytes_lt hv
  have := usedBytes_lt hw
  show (BitVec.ofNat 8 v).toNat < (BitVec.ofNat 8 w).toNat
  rw [BitVec.toNat_ofNat, BitVec.toNat_ofNat]
  omega

/-- The counts of the bytes that occur add up to the length of the source (R87). -/
theorem sum_census (bytes : List Byte) : ((usedBytes bytes).map fun v => bytes.count (BitVec.ofNat 8 v)).sum = bytes.length := by
  have hperm : (usedBytes bytes).map (BitVec.ofNat 8) |>.Perm bytes.dedup := by
    refine (List.perm_ext_iff_of_nodup ?_ bytes.nodup_dedup).2 fun b => ?_
    · refine (List.nodup_range.filter _).map_on fun v hv w hw he => ?_
      have := usedBytes_lt hv
      have := usedBytes_lt hw
      have := congrArg BitVec.toNat he
      rw [BitVec.toNat_ofNat, BitVec.toNat_ofNat] at this
      omega
    · rw [List.mem_dedup, List.mem_map]
      constructor
      · rintro ⟨v, hv, rfl⟩
        simpa using (List.mem_filter.1 hv).2
      · intro hb
        exact ⟨b.toNat, List.mem_filter.2 ⟨List.mem_range.2 b.isLt, by simpa using hb⟩, by simp⟩
  calc ((usedBytes bytes).map fun v => bytes.count (BitVec.ofNat 8 v)).sum
      = (((usedBytes bytes).map (BitVec.ofNat 8)).map bytes.count).sum := by rw [List.map_map]; rfl
    _ = (bytes.dedup.map bytes.count).sum := (hperm.map _).sum_eq
    _ = bytes.length := List.sum_map_count_dedup_eq_length bytes

/-! ### The invariant -/

@[simp] theorem srcBytes_length (s : State) : s.srcBytes.length = s.params.pN := by simp [State.srcBytes]

/-- An entry BUILD_ALPHA has written (R86). -/
theorem alphaAt_installAlphabet (hist : Store Freq) (s : State) {i : Nat} (h : i < (alphabetOf hist).length) :
    (installAlphabet hist s).alphaAt i = (alphabetOf hist)[i] := by
  rw [State.alphaAt, Store.getD, installAlphabet_alpha, Store.get?_setFrom_inside _ _ (Nat.zero_le i) (by simpa using h),
    Nat.sub_zero, List.getElem?_eq_getElem h, Option.getD_some]

/-- Legal parameters give a source whose counts do not wrap (R9). -/
theorem Params.pN_lt {p : Params} (h : p.wf = true) : p.pN < 2 ^ 24 := by
  simp only [Params.wf, Params.lengthWf, Bool.and_eq_true, decide_eq_true_eq] at h
  omega

namespace AlphaInv

variable {s t : State}

theorem congr (hst : SameTables s t) (h : AlphaInv s) : AlphaInv t := by
  rw [hst]
  exact ⟨h.ascending, h.positive, h.total⟩

theorem of_empty (h : s.alphaLen = 0) : AlphaInv s := by
  constructor <;> simp [h]

/-- BUILD_ALPHA leaves the census of the source (R87). -/
theorem after_buildAlpha (s : State) (hp : s.params.pN < 2 ^ 24) :
    AlphaInv (installAlphabet (histogram s.srcBytes) s) := by
  rw [← srcBytes_length] at hp
  have hl := installAlphabet_alphaLen_toNat s.srcBytes s
  have hat := fun i => alphaAt_installAlphabet (histogram s.srcBytes) s (i := i)
  have hpos : ∀ e ∈ alphabetOf (histogram s.srcBytes), 1 ≤ e.freq.toNat := by
    rw [alphabetOf_histogram hp]
    simp only [List.mem_map]
    rintro _ ⟨v, hv, rfl⟩
    rw [censusEntry_freq_toNat hp]
    exact List.count_pos_iff.2 (by simpa using (List.mem_filter.1 hv).2)
  have hasc := pairwise_census s.srcBytes
  rw [← alphabetOf_histogram hp] at hasc
  constructor
  case ascending =>
    intro i hi
    rw [hl] at hi
    rw [hat i (by omega), hat (i + 1) hi]
    exact List.pairwise_iff_getElem.1 hasc _ _ _ _ (Nat.lt_succ_self i)
  case positive =>
    intro i hi
    rw [hl] at hi
    rw [hat i hi]
    exact hpos _ (List.getElem_mem _)
  case total =>
    intro _
    have hmap : ((List.range (alphabetOf (histogram s.srcBytes)).length).map fun i =>
        ((installAlphabet (histogram s.srcBytes) s).alphaAt i).freq.toNat) =
        (alphabetOf (histogram s.srcBytes)).map fun e => e.freq.toNat := by
      apply List.ext_getElem (by simp)
      intro i hi hi'
      simp [hat i (by simpa using hi')]
    rw [hl, hmap, alphabetOf_histogram hp, List.map_map, installAlphabet_params, ← srcBytes_length, ← sum_census]
    congr 2
    funext v
    exact censusEntry_freq_toNat hp v

/-- The assignments of every command keep it: only BUILD_ALPHA writes the alphabet (R86). -/
theorem after_assigns {u : State} {i : Instr} (h : AlphaInv s) (hp : s.params.pN < 2 ^ 24) (hu : Assigns s i u) : AlphaInv u := by
  cases hu with
  | buildAlpha =>
    have h := after_buildAlpha s hp
    exact ⟨h.ascending, h.positive, h.total⟩
  | buildHuffman => rw [hufMergeAll_frame]; exact ⟨h.ascending, h.positive, h.total⟩
  | buildFixed | buildShannon | encode | stats | mbr | hufInit | hufStepDone | hufStepMerge | hufExtract =>
    exact ⟨h.ascending, h.positive, h.total⟩

end AlphaInv

/-- Settles O58: the alphabet is the census of the source when BUILD_ALPHA has run, and nothing else writes it. -/
theorem stepKeepsAlphaInv : Obligations.StepKeepsAlphaInv := fun _ _ hp hs h =>
  (step_keeps (P := fun u => u.params.pN < 2 ^ 24 ∧ AlphaInv u)
    (fun _ _ hst hu => ⟨by rw [hst]; exact hu.1, hu.2.congr hst⟩)
    (fun u hu => ⟨hu.1, .of_empty (clearAll_alphaLen u)⟩)
    (fun _ _ _ hu ha => ⟨by rw [ha.frame]; exact hu.1, hu.2.after_assigns hu.1 ha⟩)
    ⟨Params.pN_lt hp, hs⟩ h).2

end Sys2Proof.Machine
end

section
/-! PROOFS, the Huffman arena (10_state.md R44, R45, 44_huffman.md R100 to R107): the forest HUF_INIT plants, and what one merge makes of
it. -/

namespace Sys2Proof.Machine

/-- The scan selects two distinct positions of the queue (R101). -/
theorem selectScan_bounds (w : Nat → Freq) {n : Nat} (hn : 2 ≤ n) :
    (selectScan w n).1 < n ∧ (selectScan w n).2 < n ∧ (selectScan w n).1 ≠ (selectScan w n).2 :=
  selectScan_induction w n hn (fun k ab => ab.1 < k ∧ ab.2 < k ∧ ab.1 ≠ ab.2) (by decide)
    fun k ab ⟨ha, hb, hne⟩ => scanTurn_bounds w ab k ha hb hne

/-! ### The queue after a merge -/

/-- Where the id at position `p` stood before the positions `lo < hi` were removed (R102). -/
def skipTwo (lo hi p : Nat) : Nat := if p < lo then p else if p + 1 < hi then p + 1 else p + 2

theorem skipTwo_injective {lo hi p q : Nat} (h : skipTwo lo hi p = skipTwo lo hi q) : p = q := by
  unfold skipTwo at h
  grind

/-- The positions that stay are all but the two removed (R102). -/
theorem exists_skipTwo_iff {n a b : Nat} (ha : a < n) (hb : b < n) (hne : a ≠ b) (r : Nat) :
    (∃ p < n - 2, skipTwo (min a b) (max a b) p = r) ↔ r < n ∧ r ≠ a ∧ r ≠ b := by
  unfold skipTwo
  constructor
  · rintro ⟨p, hp, rfl⟩
    grind
  · rintro ⟨hr, hra, hrb⟩
    by_cases h1 : r < min a b
    · exact ⟨r, by omega, by grind⟩
    · by_cases h2 : r < max a b
      · exact ⟨r - 1, by omega, by grind⟩
      · exact ⟨r - 2, by omega, by grind⟩

/-- The queue after a merge: the ids that stay, in order, and then the new node (R102). -/
theorem wqAt_mergeAt {s : State} {a b : Nat} (ha : a < s.wcnt.toNat) (hb : b < s.wcnt.toNat) (hne : a ≠ b) (p : Nat)
    (hp : p < s.wcnt.toNat - 1) :
    (mergeAt a b s).wqAt p =
      if p = s.wcnt.toNat - 2 then s.nodeCnt else s.wqAt (skipTwo (min a b) (max a b) p) := by
  rw [State.wqAt, mergeAt_wq, mergeAt_tabEpoch, Store.getD_set]
  by_cases hlast : p = s.wcnt.toNat - 2
  · rw [if_pos hlast, if_pos hlast]
  · rw [if_neg hlast, if_neg hlast, queueRemoveTwo, getD_queueRemove, getD_queueRemove, getD_queueRemove]
    unfold skipTwo State.wqAt
    grind

/-- The ids queued after a merge (R102). -/
theorem queued_mergeAt {s : State} {a b : Nat} (ha : a < s.wcnt.toNat) (hb : b < s.wcnt.toNat) (hne : a ≠ b) (m : Nat) :
    (∃ p < s.wcnt.toNat - 1, ((mergeAt a b s).wqAt p).toNat = m) ↔
      m = s.nodeCnt.toNat ∨ ∃ p < s.wcnt.toNat, p ≠ a ∧ p ≠ b ∧ (s.wqAt p).toNat = m := by
  constructor
  · rintro ⟨p, hp, rfl⟩
    rw [wqAt_mergeAt ha hb hne p hp]
    split
    · exact .inl rfl
    · obtain ⟨hlt, hna, hnb⟩ := (exists_skipTwo_iff ha hb hne _).1 ⟨p, by omega, rfl⟩
      exact .inr ⟨_, hlt, hna, hnb, rfl⟩
  · rintro (rfl | ⟨r, hr, hra, hrb, rfl⟩)
    · exact ⟨s.wcnt.toNat - 2, by omega, by rw [wqAt_mergeAt ha hb hne _ (by omega), if_pos rfl]⟩
    · obtain ⟨p, hp, he⟩ := (exists_skipTwo_iff ha hb hne r).2 ⟨hr, hra, hrb⟩
      exact ⟨p, by omega, by rw [wqAt_mergeAt ha hb hne p (by omega), if_neg (by omega), he]⟩

/-! ### The nodes after a merge -/

theorem nodeAt_mergeAt_new (a b : Nat) (s : State) :
    (mergeAt a b s).nodeAt s.nodeCnt.toNat = .internal (s.weightAt a + s.weightAt b) (s.wqAt a) (s.wqAt b) := by
  rw [State.nodeAt, mergeAt_node, Store.getD_set, if_pos rfl]

theorem nodeAt_mergeAt_old (a b : Nat) (s : State) {n : Nat} (h : n ≠ s.nodeCnt.toNat) :
    (mergeAt a b s).nodeAt n = s.nodeAt n := by
  rw [State.nodeAt, mergeAt_node, Store.getD_set, if_neg h]; rfl

/-! ### Children -/

namespace State

theorem isChild_of_internal {s : State} {n : Nat} {w : Freq} {l r : NodeId} (h : s.nodeAt n = .internal w l r) (m : Nat) :
    s.IsChild m n ↔ l.toNat = m ∨ r.toNat = m := by
  unfold IsChild; rw [h]

theorem not_isChild_of_leaf {s : State} {n : Nat} {w : Freq} {i : BitVec 8} (h : s.nodeAt n = .leaf w i) (m : Nat) :
    ¬ s.IsChild m n := by
  unfold IsChild; rw [h]; exact id

theorem isChild_congr {s t : State} {n : Nat} (h : s.nodeAt n = t.nodeAt n) (m : Nat) : s.IsChild m n ↔ t.IsChild m n := by
  unfold IsChild; rw [h]

/-- A merge gives the two roots it takes a parent, the new node, and changes no other relation (R102). -/
theorem isChild_mergeAt (a b : Nat) (s : State) (m n : Nat) :
    (mergeAt a b s).IsChild m n ↔
      if n = s.nodeCnt.toNat then (s.wqAt a).toNat = m ∨ (s.wqAt b).toNat = m else s.IsChild m n := by
  split
  · next h => subst h; exact isChild_of_internal (nodeAt_mergeAt_new a b s) m
  · next h => exact isChild_congr (nodeAt_mergeAt_old a b s h) m

end State

namespace ForestInv

variable {s t : State}

/-- A child is older than its parent (R106). -/
theorem lt_of_isChild (h : ForestInv s) (he : s.hufState ≠ .empty) {m n : Nat} (hn : n < s.nodeCnt.toNat) (hc : s.IsChild m n) :
    m < n := by
  by_cases hl : n < s.alphaLen.toNat
  · exact absurd hc (State.not_isChild_of_leaf (h.leaves he n hl) m)
  · obtain ⟨l, r, hln, hrn, -, hnode⟩ := h.internals he n hn (by omega)
    obtain rfl | rfl := (State.isChild_of_internal hnode m).1 hc
    · exact hln
    · exact hrn

theorem congr (hst : SameTables s t) (h : ForestInv s) : ForestInv t := by
  rw [hst]
  exact ⟨h.leaves, h.internals, h.queued, h.once, h.roots, h.oneParent⟩

/-- While the builder is EMPTY nothing is claimed of the arena. -/
theorem of_empty (he : s.hufState = .empty) : ForestInv s := by
  constructor <;> exact fun hne => absurd he hne

/-! ### HUF_INIT plants the leaves -/

theorem nodeAt_hufInitBody (s : State) {n : Nat} (h : n < s.alphaLen.toNat) :
    (hufInitBody s).nodeAt n = .leaf (s.alphaAt n).freq (BitVec.ofNat 8 n) := by
  rw [State.nodeAt, Store.getD, hufInitBody_node,
    Store.get?_setFrom_inside _ _ (Nat.zero_le n) (by simpa [leavesOf] using h)]
  simp [leavesOf, h]

theorem wqAt_hufInitBody (s : State) {p : Nat} (h : p < s.alphaLen.toNat) : (hufInitBody s).wqAt p = BitVec.ofNat 9 p := by
  rw [State.wqAt, Store.getD, hufInitBody_wq, Store.get?_setFrom_inside _ _ (Nat.zero_le p) (by simpa using h)]
  simp [h]

/-- The forest HUF_INIT plants: L leaves, all of them roots (R100). -/
theorem after_hufInitBody (s : State) : ForestInv (hufInitBody s) := by
  have hq : ∀ p < s.alphaLen.toNat, ((hufInitBody s).wqAt p).toNat = p := by
    intro p hp
    have := s.alphaLen.isLt
    rw [wqAt_hufInitBody s hp, BitVec.toNat_ofNat]
    omega
  have hno : ∀ m, ∀ n < s.alphaLen.toNat, ¬ (hufInitBody s).IsChild m n := fun m n hn =>
    State.not_isChild_of_leaf (nodeAt_hufInitBody s hn) m
  constructor
  case leaves => exact fun _ n hn => nodeAt_hufInitBody s hn
  case internals => exact fun _ n hn hl => absurd hn (by simpa using hl)
  case queued => exact fun _ p hp => by rw [hq p hp]; exact hp
  case once => exact fun _ p hp q hq' he => by rw [← hq p hp, ← hq q hq', he]
  case roots => exact fun _ m hm => iff_of_true ⟨m, hm, hq m hm⟩ (hno m)
  case oneParent => exact fun _ m _ n hn _ _ hc => absurd hc (hno m n hn)

/-! ### A merge joins two roots -/

/-- A queued id has no parent (R45, R106). -/
theorem not_isChild_of_queued (h : ForestInv s) (he : s.hufState ≠ .empty) {p : Nat} (hp : p < s.wcnt.toNat) {n : Nat}
    (hn : n < s.nodeCnt.toNat) : ¬ s.IsChild (s.wqAt p).toNat n :=
  (h.roots he _ (h.queued he p hp)).1 ⟨p, hp, rfl⟩ n hn

/-- The queue of a forest after a merge: old ids and the new one, once each (R45, R102). -/
theorem queue_mergeAt (h : ForestInv s) (he : s.hufState ≠ .empty) {a b : Nat} (ha : a < s.wcnt.toNat) (hb : b < s.wcnt.toNat)
    (hne : a ≠ b) :
    (∀ p < s.wcnt.toNat - 1, ((mergeAt a b s).wqAt p).toNat < s.nodeCnt.toNat + 1) ∧
    ∀ p < s.wcnt.toNat - 1, ∀ q < s.wcnt.toNat - 1, (mergeAt a b s).wqAt p = (mergeAt a b s).wqAt q → p = q := by
  have hskip : ∀ p < s.wcnt.toNat - 1, p ≠ s.wcnt.toNat - 2 → skipTwo (min a b) (max a b) p < s.wcnt.toNat := fun p hp hlast =>
    ((exists_skipTwo_iff ha hb hne _).1 ⟨p, by omega, rfl⟩).1
  have hold : ∀ p < s.wcnt.toNat - 1, p ≠ s.wcnt.toNat - 2 →
      (s.wqAt (skipTwo (min a b) (max a b) p)).toNat < s.nodeCnt.toNat := fun p hp hlast => h.queued he _ (hskip p hp hlast)
  constructor
  · intro p hp
    rw [wqAt_mergeAt ha hb hne p hp]
    split
    · exact Nat.lt_succ_self _
    · next hlast => exact Nat.lt_succ_of_lt (hold p hp hlast)
  · intro p hp q hq heq
    rw [wqAt_mergeAt ha hb hne p hp, wqAt_mergeAt ha hb hne q hq] at heq
    split at heq <;> split at heq
    · omega
    · next hlast => have := hold q hq hlast; rw [← heq] at this; omega
    · next hlast _ => have := hold p hp hlast; rw [heq] at this; omega
    · next hp' hq' => exact skipTwo_injective (h.once he _ (hskip p hp hp') _ (hskip q hq hq') heq)

/-- After a merge the queued ids are still exactly the nodes without a parent: the two roots that left the queue have the new node as
theirs (R45, R106). -/
theorem roots_mergeAt (h : ForestInv s) (he : s.hufState ≠ .empty) {a b : Nat} (ha : a < s.wcnt.toNat) (hb : b < s.wcnt.toNat)
    (hne : a ≠ b) {m : Nat} (hm : m < s.nodeCnt.toNat + 1) :
    (∃ p < s.wcnt.toNat - 1, ((mergeAt a b s).wqAt p).toNat = m) ↔
      ∀ n < s.nodeCnt.toNat + 1, ¬ (mergeAt a b s).IsChild m n := by
  have hqa := h.queued he a ha
  have hqb := h.queued he b hb
  rw [queued_mergeAt ha hb hne]
  simp only [State.isChild_mergeAt]
  constructor
  · rintro (rfl | ⟨p, hp, hpa, hpb, rfl⟩) n hn
    · split
      · omega
      · next hn' => exact fun hc => absurd (h.lt_of_isChild he (by omega) hc) (by omega)
    · split
      · rintro (hc | hc)
        · exact hpa (h.once he p hp a ha (BitVec.eq_of_toNat_eq hc.symm))
        · exact hpb (h.once he p hp b hb (BitVec.eq_of_toNat_eq hc.symm))
      · exact h.not_isChild_of_queued he hp (by omega)
  · intro hno
    by_cases hm' : m = s.nodeCnt.toNat
    · exact .inl hm'
    · have hnew := hno s.nodeCnt.toNat (Nat.lt_succ_self _)
      rw [if_pos rfl, not_or] at hnew
      obtain ⟨p, hp, rfl⟩ := (h.roots he m (by omega)).2 fun n hn => by
        have := hno n (by omega)
        rwa [if_neg (by omega)] at this
      exact .inr ⟨p, hp, by rintro rfl; exact hnew.1 rfl, by rintro rfl; exact hnew.2 rfl, rfl⟩

/-- A merge of two distinct positions keeps the forest: its new node is the only parent of the two roots it takes from the queue, and
stands there in their place (R102, R106). -/
theorem after_mergeAt (h : ForestInv s) (hinv : HufInv s) {a b : Nat} (ha : a < s.wcnt.toNat) (hb : b < s.wcnt.toNat) (hne : a ≠ b) :
    ForestInv (mergeAt a b s) := by
  have h1 : 1 < s.wcnt.toNat := by omega
  have he := hinv.ne_empty_of_wcnt (by omega : 1 ≤ s.wcnt.toNat)
  have hcnt := hinv.mergeAt_nodeCnt_toNat h1 a b
  have hw : (mergeAt a b s).wcnt.toNat = s.wcnt.toNat - 1 := hufMergeBody_wcnt s h1
  have hqa := h.queued he a ha
  have hqb := h.queued he b hb
  have hnode : ∀ n < s.nodeCnt.toNat, (mergeAt a b s).nodeAt n = s.nodeAt n := fun n hn =>
    nodeAt_mergeAt_old a b s (by omega)
  have hqueue := h.queue_mergeAt he ha hb hne
  constructor
  case leaves =>
    intro _ n hn
    have := hinv.node_count he
    have := hinv.queue_le
    rw [mergeAt_alphaLen] at hn
    rw [hnode n (by omega)]
    exact h.leaves he n hn
  case internals =>
    intro _ n hn hl
    rw [hcnt] at hn
    by_cases hn' : n = s.nodeCnt.toNat
    · subst hn'
      refine ⟨s.wqAt a, s.wqAt b, hqa, hqb, fun heq => hne (h.once he a ha b hb heq), ?_⟩
      rw [nodeAt_mergeAt_new, hnode _ hqa, hnode _ hqb]
      rfl
    · obtain ⟨l, r, hln, hrn, hlr, hint⟩ := h.internals he n (by omega) hl
      exact ⟨l, r, hln, hrn, hlr, by rw [hnode n (by omega), hnode _ (by omega), hnode _ (by omega), hint]⟩
  case queued => rw [hw, hcnt]; exact fun _ => hqueue.1
  case once => rw [hw]; exact fun _ => hqueue.2
  case roots => rw [hw, hcnt]; exact fun _ m hm => h.roots_mergeAt he ha hb hne hm
  case oneParent =>
    rw [hcnt]
    intro _ m hm n hn n' hn' hc hc'
    have hqueued : ∀ k < s.nodeCnt.toNat, s.IsChild m k → ¬ ((s.wqAt a).toNat = m ∨ (s.wqAt b).toNat = m) := by
      rintro k hk hck (rfl | rfl)
      · exact h.not_isChild_of_queued he ha hk hck
      · exact h.not_isChild_of_queued he hb hk hck
    rw [State.isChild_mergeAt] at hc hc'
    split at hc <;> split at hc'
    · omega
    · exact absurd hc (hqueued n' (by omega) hc')
    · exact absurd hc' (hqueued n (by omega) hc)
    · have := h.lt_of_isChild he (by omega) hc
      exact h.oneParent he m (by omega) n (by omega) n' (by omega) hc hc'

/-- HUF_STEP's merge keeps the forest (R101, R102). -/
theorem after_hufMergeBody (h : ForestInv s) (hinv : HufInv s) (h1 : 1 < s.wcnt.toNat) : ForestInv (hufMergeBody s) := by
  obtain ⟨ha, hb, hne⟩ := selectScan_bounds s.weightAt h1
  exact h.after_mergeAt hinv ha hb hne

/-- BUILD_HUFFMAN's loop builds a forest on the leaves (R104). -/
theorem after_mergeAll (hinv : HufInv s) (hl : s.alphaLen ≠ 0) :
    ForestInv (hufMergeAll s.alphaLen.toNat (hufInitBody s)) :=
  (hinv.mergeAll_induction hl (after_hufInitBody s) fun _ hu h h1 => h.after_hufMergeBody hu h1).2

/-- HUF_EXTRACT reads the arena and does not write it (R103). -/
theorem after_hufExtractBody (h : ForestInv s) (he : s.hufState ≠ .empty) : ForestInv (hufExtractBody s) :=
  ⟨fun _ => h.leaves he, fun _ => h.internals he, fun _ => h.queued he, fun _ => h.once he, fun _ => h.roots he,
    fun _ => h.oneParent he⟩

/-- The assignments of every command keep it (R86 to R108). -/
theorem after_assigns {u : State} {i : Instr} (h : ForestInv s) (hinv : HufInv s) (hu : Assigns s i u) : ForestInv u := by
  cases hu with
  | buildAlpha => exact of_empty rfl
  | hufInit => exact after_hufInitBody s
  | hufStepMerge he h1 => exact h.after_hufMergeBody hinv (hinv.one_lt_wcnt he h1)
  | hufExtract he => exact h.after_hufExtractBody he
  | buildHuffman hl =>
    refine (after_mergeAll hinv hl).after_hufExtractBody ((hinv.after_mergeAll hl).ne_empty_of_wcnt ?_)
    rw [hufMergeAll_hufInitBody_wcnt hl]
    decide
  | buildFixed | buildShannon | encode | stats | mbr | hufStepDone =>
    exact ⟨h.leaves, h.internals, h.queued, h.once, h.roots, h.oneParent⟩

end ForestInv

/-- Settles O59: HUF_INIT plants a forest of leaves, each merge joins two of its roots, and no other command writes the arena. -/
theorem stepKeepsForestInv : Obligations.StepKeepsForestInv := fun _ _ hinv hs h =>
  step_keeps_with_hufInv (fun _ _ => ForestInv.congr) (fun _ => ForestInv.of_empty rfl) (fun _ _ _ hu h ha => h.after_assigns hu ha)
    hinv hs h

end Sys2Proof.Machine
end

section
/-! PROOFS, the codebooks (10_state.md R46): each builder gives every entry below L a codeword of at most 255 characters, by the numeral
(R94), the bisection (R96) or the walk (R103). -/

namespace Sys2Proof.Machine

/-! ### The bisection -/

/-- The bisection of n indices needs fewer than n characters (R97). -/
theorem bisect_length_le (fuel : Nat) : ∀ l r i : Nat, (bisect fuel l r i).length ≤ r - l := by
  induction fuel with
  | zero => intro l r i; exact Nat.zero_le _
  | succ fuel ih =>
    intro l r i
    unfold bisect
    split
    · exact Nat.zero_le _
    · split
      · have := ih l ((l + r) / 2) i
        rw [List.length_cons]; omega
      · have := ih ((l + r) / 2 + 1) r i
        rw [List.length_cons]; omega

/-- Inside its range the bisection gives every index its path (R96). -/
theorem get?_shannonSplit_inside (fuel : Nat) : ∀ (l r : Nat) (path : Chars) (m : Store Codeword) (i : Nat), l ≤ i → i ≤ r →
    r < l + fuel → Store.get? (shannonSplit fuel l r path m) i = some (codewordOf (path ++ bisect fuel l r i)) := by
  induction fuel with
  | zero => intro l r path m i hl hr hf; omega
  | succ fuel ih =>
    intro l r path m i hl hr hf
    unfold shannonSplit bisect
    rw [if_neg (by omega)]
    by_cases heq : l = r
    · obtain rfl : i = l := by omega
      rw [if_pos heq, if_pos (by omega), Store.get?_set_same, List.append_nil]
    · rw [if_neg heq, if_neg (by omega)]
      dsimp only
      by_cases hmid : i ≤ (l + r) / 2
      · rw [if_pos hmid, get?_shannonSplit_outside _ _ _ _ _ _ (by omega), ih _ _ _ _ _ hl hmid (by omega),
          List.append_assoc, List.singleton_append]
      · rw [if_neg hmid, ih _ _ _ _ _ (by omega) hr (by omega), List.append_assoc, List.singleton_append]

/-! ### Paths in the arena -/

namespace State

/-- A leaf leads nowhere but to itself. -/
theorem path_leaf_iff {s : State} {n m : Nat} {wt : Freq} {i : BitVec 8} {w : Chars} (h : s.nodeAt n = .leaf wt i) :
    s.Path n w m ↔ w = [] ∧ m = n := by
  constructor
  · intro hp
    cases hp with
    | here => exact ⟨rfl, rfl⟩
    | left hi => rw [h] at hi; cases hi
    | right hi => rw [h] at hi; cases hi
  · rintro ⟨rfl, rfl⟩; exact .here m

/-- An internal node leads to itself, and where its children lead. -/
theorem path_internal_iff {s : State} {n m : Nat} {wt : Freq} {l r : NodeId} {w : Chars} (h : s.nodeAt n = .internal wt l r) :
    s.Path n w m ↔ (w = [] ∧ m = n) ∨ (∃ v, w = false :: v ∧ s.Path l.toNat v m) ∨
      (∃ v, w = true :: v ∧ s.Path r.toNat v m) := by
  constructor
  · intro hp
    cases hp with
    | here => exact .inl ⟨rfl, rfl⟩
    | left hi hp => rw [h] at hi; cases hi; exact .inr (.inl ⟨_, rfl, hp⟩)
    | right hi hp => rw [h] at hi; cases hi; exact .inr (.inr ⟨_, rfl, hp⟩)
  · rintro (⟨rfl, rfl⟩ | ⟨v, rfl, hp⟩ | ⟨v, rfl, hp⟩)
    · exact .here m
    · exact .left h hp
    · exact .right h hp

/-- A path to a node goes on to the node's children. -/
theorem Path.to_child {s : State} {k n m : Nat} {w : Chars} (h : s.Path k w n) (hc : s.IsChild m n) : ∃ v, s.Path k v m := by
  induction h with
  | here n =>
    cases hn : s.nodeAt n with
    | leaf => exact absurd hc (not_isChild_of_leaf hn m)
    | internal wt l r =>
      obtain rfl | rfl := (isChild_of_internal hn m).1 hc
      · exact ⟨_, .left hn (.here _)⟩
      · exact ⟨_, .right hn (.here _)⟩
  | left hn _ ih => obtain ⟨v, hv⟩ := ih hc; exact ⟨_, .left hn hv⟩
  | right hn _ ih => obtain ⟨v, hv⟩ := ih hc; exact ⟨_, .right hn hv⟩

end State

namespace ForestInv

variable {s : State}

/-- A path from node n passes at most the internal nodes up to n (R106, R107). -/
theorem length_le_of_path (h : ForestInv s) (he : s.hufState ≠ .empty) {n m : Nat} {w : Chars} (hp : s.Path n w m)
    (hn : n < s.nodeCnt.toNat) : w.length ≤ n + 1 - s.alphaLen.toNat := by
  have hchild : ∀ {n : Nat} {wt : Freq} {l r : NodeId}, n < s.nodeCnt.toNat → s.nodeAt n = .internal wt l r →
      s.alphaLen.toNat ≤ n ∧ l.toNat < n ∧ r.toNat < n := by
    intro n wt l r hn hint
    have hc := State.isChild_of_internal hint
    refine ⟨?_, h.lt_of_isChild he hn ((hc _).2 (.inl rfl)), h.lt_of_isChild he hn ((hc _).2 (.inr rfl))⟩
    by_contra hl
    rw [h.leaves he n (by omega)] at hint
    cases hint
  induction hp with
  | here => exact Nat.zero_le _
  | left hint _ ih =>
    obtain ⟨hl, hlt, -⟩ := hchild hn hint
    have := ih (by omega)
    rw [List.length_cons]; omega
  | right hint _ ih =>
    obtain ⟨hl, -, hlt⟩ := hchild hn hint
    have := ih (by omega)
    rw [List.length_cons]; omega

/-- With one root left every node is reached from it (R107). -/
theorem path_from_root (h : ForestInv s) (he : s.hufState ≠ .empty) (h1 : s.wcnt = 1) (m : Nat) (hm : m < s.nodeCnt.toNat) :
    ∃ w, s.Path (s.wqAt 0).toNat w m := by
  by_cases hroot : ∃ p < s.wcnt.toNat, (s.wqAt p).toNat = m
  · obtain ⟨p, hp, rfl⟩ := hroot
    obtain rfl : p = 0 := by rw [h1] at hp; simpa using hp
    exact ⟨[], .here _⟩
  · rw [h.roots he m hm] at hroot
    push Not at hroot
    obtain ⟨n, hn, hc⟩ := hroot
    have hlt := h.lt_of_isChild he hn hc
    obtain ⟨w, hw⟩ := h.path_from_root he h1 n hn
    exact hw.to_child hc
termination_by s.nodeCnt.toNat - m

/-- What the walk from node n makes of entry i: the codeword of a path from n to leaf i where there is one, and nothing where there is
none (R103). -/
theorem get?_hufWalk (h : ForestInv s) (he : s.hufState ≠ .empty) (hlen : s.alphaLen.toNat ≤ 256) {i : Nat}
    (hi : i < s.alphaLen.toNat) (fuel : Nat) : ∀ (n : NodeId) (path : Chars) (m : Store Codeword), n.toNat < fuel →
    n.toNat < s.nodeCnt.toNat →
    (∃ w, s.Path n.toNat w i ∧ Store.get? (hufWalk s fuel n path m) i = some (codewordOf (path ++ w))) ∨
    ((∀ w, ¬ s.Path n.toNat w i) ∧ Store.get? (hufWalk s fuel n path m) i = Store.get? m i) := by
  induction fuel with
  | zero => intro n path m hf; omega
  | succ fuel ih =>
    intro n path m hf hn
    by_cases hl : n.toNat < s.alphaLen.toNat
    · have hleaf := h.leaves he _ hl
      have hidx : (BitVec.ofNat 8 n.toNat).toNat = n.toNat := by rw [BitVec.toNat_ofNat]; omega
      simp only [hufWalk, hleaf, hidx, State.path_leaf_iff hleaf]
      by_cases hni : i = n.toNat
      · exact .inl ⟨[], ⟨rfl, hni⟩, by rw [hni, Store.get?_set_same, List.append_nil]⟩
      · exact .inr ⟨fun _ hp => hni hp.2, Store.get?_set_other m _ hni⟩
    · obtain ⟨l, r, hln, hrn, -, hint⟩ := h.internals he _ hn (by omega)
      simp only [hufWalk, hint, State.path_internal_iff hint]
      obtain ⟨w, hp, hw⟩ | ⟨hr, hsame⟩ := ih r (path ++ [true]) (hufWalk s fuel l (path ++ [false]) m) (by omega) (by omega)
      · exact .inl ⟨true :: w, .inr (.inr ⟨w, rfl, hp⟩), by rw [hw, List.append_assoc, List.singleton_append]⟩
      · rw [hsame]
        obtain ⟨w, hp, hw⟩ | ⟨hl', hsame'⟩ := ih l (path ++ [false]) m (by omega) (by omega)
        · exact .inl ⟨false :: w, .inr (.inl ⟨w, rfl, hp⟩), by rw [hw, List.append_assoc, List.singleton_append]⟩
        · refine .inr ⟨?_, hsame'⟩
          rintro w (⟨-, hin⟩ | ⟨v, -, hv⟩ | ⟨v, -, hv⟩)
          · omega
          · exact hl' v hv
          · exact hr v hv

/-- HUF_EXTRACT gives every symbol the codeword of its path from the root (R103, R107). -/
theorem get?_hufExtractBody (h : ForestInv s) (hinv : HufInv s) (h1 : s.wcnt = 1) {i : Nat} (hi : i < s.alphaLen.toNat) :
    ∃ w, s.Path (s.wqAt 0).toNat w i ∧ w.length ≤ 255 ∧
      Store.get? (hufWalk s ((s.wqAt 0).toNat + 1) (s.wqAt 0) [] (s.cb.get .huffman)) i = some (codewordOf w) := by
  have he := hinv.ne_empty_of_wcnt (s := s) (by simp [h1])
  have hq : (s.wqAt 0).toNat < s.nodeCnt.toNat := h.queued he 0 (by simp [h1])
  have hlen := hinv.len_le
  have hcnt := hinv.node_count he
  have hone : s.wcnt.toNat = 1 := by simp [h1]
  obtain ⟨w, hp, hw⟩ | ⟨hno, -⟩ :=
    h.get?_hufWalk he hlen hi _ (s.wqAt 0) [] (s.cb.get .huffman) (Nat.lt_succ_self _) hq
  · have := h.length_le_of_path he hp hq
    exact ⟨w, hp, by omega, hw⟩
  · obtain ⟨w, hp⟩ := h.path_from_root he h1 i (by omega)
    exact absurd hp (hno w)

end ForestInv

/-! ### The invariant -/

theorem fixedChars_length_le (m : MbrMode) (len : Count) {i : Nat} (hi : i < 256) : (fixedChars m len i).length ≤ 8 := by
  have hb : bitlen i ≤ 8 := (bitlen_le_iff i 8).2 hi
  have := (mbrOf_bounds m (len.setWidth 32)).2
  rw [fixedChars, padLeft_length, bin_length]
  omega

namespace BookInv

variable {s t u : State}

theorem congr (hst : SameTables s t) (h : BookInv s) : BookInv t := by
  rw [hst]
  exact h

theorem of_invalid (hv : s.valid = PerBook.all false) : BookInv s := by
  intro k hk
  rw [hv, PerBook.get_all] at hk
  exact absurd hk (by decide)

/-- A codebook whose entries below L have just been written with short codewords joins the valid ones (R46). -/
theorem of_set (h : BookInv s) (k : Book) {m : Store Codeword} (hlen : u.alphaLen = s.alphaLen) (htab : u.tabEpoch = s.tabEpoch)
    (hcb : u.cb = s.cb.set k m) (hvalid : u.valid = s.valid.set k true)
    (hm : ∀ i < s.alphaLen.toNat, ∃ w : Chars, w.length ≤ 255 ∧ Store.get? m i = some (codewordOf w)) : BookInv u := by
  intro k' hk' i hi j hj
  rw [hlen] at hi
  rw [hvalid, PerBook.get_set] at hk'
  unfold State.cbAt at hj ⊢
  rw [hcb, htab, PerBook.get_set] at hj ⊢
  split at hk'
  · next hkk =>
    obtain ⟨w, hw, hget⟩ := hm i hi
    rw [if_pos hkk, Store.getD, hget, Option.getD_some] at hj ⊢
    exact codewordOf_clean w hw j hj
  · next hkk =>
    rw [if_neg hkk] at hj ⊢
    exact h k' hk' i hi j hj

theorem after_hufExtractBody (h : BookInv s) (hf : ForestInv s) (hinv : HufInv s) (h1 : s.wcnt = 1) : BookInv (hufExtractBody s) :=
  h.of_set .huffman rfl rfl rfl rfl fun i hi => by
    obtain ⟨w, -, hw, hget⟩ := hf.get?_hufExtractBody hinv h1 hi
    exact ⟨w, hw, hget⟩

/-- The assignments of every command keep it (R86 to R108). -/
theorem after_assigns {i : Instr} (h : BookInv s) (hf : ForestInv s) (hinv : HufInv s) (hu : Assigns s i u) : BookInv u := by
  have hlen := hinv.len_le
  cases hu with
  | buildAlpha => exact of_invalid rfl
  | buildFixed =>
    refine h.of_set .fixed rfl rfl rfl rfl fun i hi => ⟨fixedChars s.params.mbrMode s.alphaLen i, ?_, ?_⟩
    · have := fixedChars_length_le s.params.mbrMode s.alphaLen (i := i) (by omega)
      omega
    · rw [Store.get?_setFrom_inside _ _ (Nat.zero_le i) (by simpa [fixedBook] using hi)]
      simp [fixedBook, hi]
  | buildShannon =>
    refine h.of_set .shannon rfl rfl rfl rfl fun i hi => ⟨bisect s.alphaLen.toNat 0 (s.alphaLen.toNat - 1) i, ?_, ?_⟩
    · have := bisect_length_le s.alphaLen.toNat 0 (s.alphaLen.toNat - 1) i
      omega
    · exact get?_shannonSplit_inside _ _ _ _ _ _ (Nat.zero_le i) (by omega) (by omega)
  | hufExtract he h1 => exact h.after_hufExtractBody hf hinv h1
  | buildHuffman hl =>
    have hloop : BookInv (hufMergeAll s.alphaLen.toNat (hufInitBody s)) := by rw [hufMergeAll_frame]; exact h
    exact hloop.after_hufExtractBody (.after_mergeAll hinv hl) (hinv.after_mergeAll hl) (hufMergeAll_hufInitBody_wcnt hl)
  | encode | stats | mbr | hufInit | hufStepDone | hufStepMerge => exact h

end BookInv

/-- Settles O60: each builder writes every entry of the codebook it makes valid, with a codeword short enough to be stored whole. -/
theorem stepKeepsBookInv : Obligations.StepKeepsBookInv := fun _ _ hinv hf hs h =>
  (step_keeps_with_hufInv (P := fun u => ForestInv u ∧ BookInv u) (fun _ _ hst hu => ⟨hu.1.congr hst, hu.2.congr hst⟩)
    (fun _ => ⟨.of_empty rfl, .of_invalid rfl⟩)
    (fun _ _ _ hu h ha => ⟨h.1.after_assigns hu ha, h.2.after_assigns h.1 hu ha⟩) hinv ⟨hf, hs⟩ h).2

end Sys2Proof.Machine
end

section
/-! PROOFS, who writes what (10_state.md R21 to R50): the configuration, the host's fields, the result registers, and the registers of the
engine. -/

namespace Sys2Proof.Machine

/-- Settles O14: PARAM0 and PARAM1 are computed from the parameters alone, which no step changes. -/
theorem stepKeepsTheConfiguration : Obligations.StepKeepsTheConfiguration := by
  intro s t h
  have hp := step_params h
  refine ⟨hp, rfl, ?_, ?_⟩
  · show param0Word t.params = param0Word s.params
    rw [hp]
  · show param1Word t.params = param1Word s.params
    rw [hp]

/-- Settles O15: the fields named are outside the frame of every command. -/
theorem commandsLeaveTheHostsStateAlone : Obligations.CommandsLeaveTheHostsStateAlone := by
  intro i s t h
  rw [exec_frame h]
  exact ⟨rfl, fun _ => rfl, rfl, rfl, rfl, rfl, rfl, rfl, rfl, rfl, rfl, rfl, rfl, rfl, rfl, rfl⟩

/-- Settles O16: of each command, the fields its assignments leave alone; a fault changes none of them. -/
theorem eachResultHasItsOwnWriters : Obligations.EachResultHasItsOwnWriters := by
  intro i s t h
  obtain ⟨u, hu, hx⟩ | ⟨c, v, -, hx⟩ := exec_cases i s
  · obtain rfl : complete u = t := by simpa [hx] using h
    cases hu with
    | buildAlpha | stats | mbr | hufInit | hufStepDone => simp
    | hufStepMerge => simp [hufMergeBody]
    | buildFixed | buildShannon | hufExtract => simp [PerBook.set]
    | buildHuffman => rw [hufMergeAll_frame]; simp [PerBook.set]
    | encode => simp +contextual [PerBook.get_set]
  · obtain rfl : raiseFault c v s = t := by simpa [hx] using h
    simp [faulted]

/-! ### The registers of the engine -/

/-- A fault has a code (R112). -/
theorem Faults.code_ne_none {s : State} {i : Instr} {c : FaultCode} {v : Word} (h : Faults s i c v) : c ≠ .none := by
  cases h <;> decide

namespace EngineInv

variable {s t u : State}

theorem err_none (h : EngineInv s) (hf : s.engState ≠ .faulted) : s.err = .none :=
  not_not.1 (mt h.err_iff_faulted.1 hf)

/-- A state that is `s` in the registers of the engine. -/
theorem congr (h : EngineInv s) (hst : t.engState = s.engState) (hdone : t.done = s.done) (hcur : t.curCmd = s.curCmd)
    (hlast : t.lastCmd = s.lastCmd) (herr : t.err = s.err) (hinfo : t.faultInfo = s.faultInfo) : EngineInv t := by
  obtain ⟨h1, h2, h3, h4⟩ := h
  constructor
  · rwa [hst, hdone]
  · rwa [hst, hcur, hlast]
  · rwa [hst, herr]
  · rwa [hst, hinfo]

theorem after_clearAll (s : State) : EngineInv (clearAll s) := by
  constructor <;> simp

/-- An accepted command clears DONE, and LAST_CMD and CUR_CMD both take its word (R81). -/
theorem after_acceptCommand (h : EngineInv s) (hi : s.engState = .idle) (c : Word) : EngineInv (acceptCommand c s) := by
  have hne : s.engState ≠ .faulted := by rw [hi]; decide
  constructor
  case running_not_done => exact fun _ => rfl
  case running_cmd => exact fun _ => rfl
  case err_iff_faulted => simp [h.err_none hne]
  case info_zero => exact fun _ => h.info_zero hne

theorem after_submitCommand (h : EngineInv s) (c : Word) : EngineInv (submitCommand c s) := by
  unfold submitCommand
  cases he : s.engState with
  | idle => exact h.after_acceptCommand he c
  | running | faulted => exact h.congr rfl rfl rfl rfl rfl rfl

theorem after_write (h : EngineInv s) {a : Addr} {v : Word} (hw : Writes a v s u) : EngineInv u := by
  cases hw with
  | softReset => exact after_clearAll s
  | submit => exact h.after_submitCommand v
  | status =>
    exact ⟨fun hr => by simp [writeStatus, h.running_not_done hr], h.running_cmd, h.err_iff_faulted, h.info_zero⟩
  | enable | arg | srcDropped | src | ignored => exact h.congr rfl rfl rfl rfl rfl rfl

theorem after_hostAct (h : EngineInv s) {a : HostAction} (ha : Acts s a t) : EngineInv t := by
  cases ha with
  | release => exact (after_clearAll s).congr rfl rfl rfl rfl rfl rfl
  | read a =>
    obtain ⟨-, -, hr⟩ | ⟨-, hr⟩ := portRead_cases a s <;> (rw [hr]; exact h.congr rfl rfl rfl rfl rfl rfl)
  | write a v u _ _ hw => exact (h.after_write hw).congr rfl rfl rfl rfl rfl rfl
  | assert | releaseIdle | heldRead | heldWrite | badRead | badWrite => exact h.congr rfl rfl rfl rfl rfl rfl

/-- Completion returns to IDLE, with no fault latched (R110). -/
theorem after_complete (hinfo : s.faultInfo = 0) (herr : s.err = .none) : EngineInv (complete s) := by
  constructor <;> simp [hinfo, herr]

/-- A fault latches its code and its information (R111). -/
theorem after_raiseFault {c : FaultCode} (hc : c ≠ .none) (v : Word) (s : State) : EngineInv (raiseFault c v s) := by
  constructor <;> simp [faulted, hc]

/-- A command that starts from RUNNING, where no fault is latched, ends in order (R110, R111). -/
theorem after_exec (h : EngineInv s) (hr : s.engState = .running) {i : Instr} (hx : exec i s = .next t) : EngineInv t := by
  have hne : s.engState ≠ .faulted := by rw [hr]; decide
  obtain ⟨u, hu, hx'⟩ | ⟨c, v, hf, hx'⟩ := exec_cases i s
  · obtain rfl : complete u = t := by simpa [hx'] using hx
    rw [hu.frame]
    exact after_complete (h.info_zero hne) (h.err_none hne)
  · obtain rfl : raiseFault c v s = t := by simpa [hx'] using hx
    exact after_raiseFault hf.code_ne_none v s

end EngineInv

/-- Settles O55: the engine's registers change at a submission, at the end of a command, at a W1C write and at a reset. -/
theorem stepKeepsEngineInv : Obligations.StepKeepsEngineInv := by
  intro s t hs h
  have hpop : EngineInv (popTurn s) := hs.congr rfl rfl rfl rfl rfl rfl
  cases moves_of_step h with
  | host a => exact hpop.after_hostAct (hostAct_cases a _)
  | rest => exact hpop
  | command i t _ hr _ hx => exact hpop.after_exec hr hx
  | illegal => exact EngineInv.after_raiseFault (by decide) _ _

end Sys2Proof.Machine
end

section
/-! PROOFS, the registers and windows as the host reads and writes them (10_state.md R24 to R47, 20_memory.md R56 to R70). -/

namespace Sys2Proof.Machine

/-! ### Writes -/

/-- An aligned 32-bit write takes place while the hard-reset input is not asserted (R54, R57). -/
theorem hostAct_write_aligned {s : State} {a : Addr} (v : Word) (hr : s.resetHeld = false) (ha : a.extractLsb' 0 2 = 0) :
    hostAct (.write 32 a v) s = { s.writeWord a v with response := some ⟨false, 0⟩ } := by
  rw [hostAct_write 32 a v s hr, if_pos ((accessOk_iff 32 a).2 ⟨rfl, ha⟩)]; rfl

/-- Settles O46: at every other address the map has something that ignores writes. -/
theorem writesToReadOnlyPlacesAreIgnored : Obligations.WritesToReadOnlyPlacesAreIgnored := by
  intro s a v hr ha hreg hsrc
  rw [hostAct_write_aligned v hr ha, writeWord_ignored s a v ha hreg hsrc]

/-- STATUS after a write of v (R29): the four flags lose their bits where v has a 1, and no other bit changes. -/
theorem statusWord_writeStatus (v : Word) (s : State) : (writeStatus v s).statusWord = s.statusWord &&& ~~~(v &&& 0x702) := by
  have hmask : ∀ i < 32, (0x702 : Word).getLsbD i = (i == 1 || i == 8 || i == 9 || i == 10) := by decide
  apply BitVec.eq_of_getLsbD_eq
  intro i hi
  rw [BitVec.getLsbD_and, BitVec.getLsbD_not, BitVec.getLsbD_and, hmask i hi]
  simp only [State.statusWord, BitVec.getLsbD_append]
  interval_cases i <;> simp [writeStatus, State.busy, State.faultFlag]

/-- A write to CTRL is a soft reset where bit 1 is 1 (R27, R127). -/
theorem hostAct_write_ctrl_reset {s : State} {v : Word} (hr : s.resetHeld = false) (hv : v.getLsbD 1 = true) :
    hostAct (.write 32 0x00C v) s = { softReset s with response := some ⟨false, 0⟩ } := by
  have hw : s.writeWord 0x00C v = writeCtrl v s := rfl
  rw [hostAct_write_aligned v hr (by decide), hw, writeCtrl, if_pos hv]

/-- A write to CTRL takes IE from bit 0 where bit 1 is 0 (R27). -/
theorem hostAct_write_ctrl_enable {s : State} {v : Word} (hr : s.resetHeld = false) (hv : v.getLsbD 1 = false) :
    hostAct (.write 32 0x00C v) s = { s with ie := v.getLsbD 0, response := some ⟨false, 0⟩ } := by
  have hw : s.writeWord 0x00C v = writeCtrl v s := rfl
  rw [hostAct_write_aligned v hr (by decide), hw, writeCtrl, if_neg (by rw [hv]; decide)]

/-- Settles O47: three writes of the control page, at their offsets. -/
theorem statusArgAndEnableWrites : Obligations.StatusArgAndEnableWrites := by
  intro s v hr
  exact ⟨⟨_, hostAct_write_aligned v hr (by decide), rfl, rfl, rfl, rfl, rfl, statusWord_writeStatus v s⟩,
    hostAct_write_aligned v hr (by decide), hostAct_write_ctrl_enable hr⟩

/-- Settles O48: the write is a soft reset, whatever bit 0 holds, and a soft reset does not touch SRC. -/
theorem softResetKeepsOnlyTheSource : Obligations.SoftResetKeepsOnlyTheSource := by
  intro s v hr hv
  refine ⟨_, hostAct_write_ctrl_reset hr hv, ?_, fun _ => rfl⟩
  simp [softReset, clearAll, State.resetWith, hr, PerBook.all]

/-- Settles O49: every action is shut out while the input is held, and its release is the hard reset. -/
theorem hardResetForgetsEverything : Obligations.HardResetForgetsEverything := by
  intro s hr
  exact ⟨fun size a v => ⟨by simp [hostAct, hr], by simp [hostAct, hr]⟩, by simp [engineTurn, hr],
    { hardReset s with resetHeld := false }, by simp [hostAct, hr], rfl, fun _ => rfl⟩

/-! ### Reset -/

/-- The parameters at reset are legal (R9, R10). -/
theorem config_params_wf : Config.params.wf = true := by
  have hlen : Config.params.lengthWf = true := decide_eq_true (by simp only [Config.params]; omega)
  have hout : Config.params.outWf = true := decide_eq_true (by simp only [Config.params]; omega)
  rw [Params.wf, hlen, hout]; rfl

theorem storeInv_resetWith (p : Params) : StoreInv (State.resetWith p) := by
  have hnil : ∀ {α : Type} (n : Nat), Store.Fits ([] : Store α) n := Store.Fits.nil
  exact ⟨hnil _, hnil _, hnil _, hnil _, fun k => by cases k <;> exact hnil _, hnil _, hnil _⟩

/-- Settles O54: after reset the registers are R52's, the stores list nothing, L is 0 and the builder is EMPTY. -/
theorem resetMeetsTheInvariants : Obligations.ResetMeetsTheInvariants := by
  refine ⟨config_params_wf, fun p => ⟨_, rfl, rfl, rfl, rfl, rfl, rfl, rfl, rfl, rfl, rfl, rfl, rfl, rfl, rfl, rfl, rfl, rfl, rfl,
    rfl, rfl, rfl, rfl, rfl, rfl, rfl, rfl⟩, fun p _ => ⟨?_, ?_, storeInv_resetWith p, .of_empty rfl, .of_empty rfl, .of_invalid rfl⟩⟩
  · constructor <;> simp [State.resetWith]
  · constructor <;> simp [State.resetWith]

/-! ### Reads -/

/-- Word w of a codebook entry spells its codeword: character j in bit j mod 32 of word 1 + j / 32 (R46, R65). -/
theorem codewordWord_char (c : Codeword) {j : Nat} (hj : j < c.len.toNat) :
    (charsOf c)[j]? = some ((codewordWord c (1 + j / 32)).getLsbD (j % 32)) := by
  have := c.len.isLt
  rw [codewordWord_bit c (by omega) (by omega), charsOf_getElem? c hj, show 32 * (j / 32) + j % 32 = j by omega]

/-- The CB windows (R46, R65, R68). -/
theorem cbWindow_reads {s : State} (hq : PortQuiet s) (k : Book) {i w : Nat} (hi : i < 256) (hw : w < 16) :
    s.portAnswer (BitVec.ofNat 26 (0x10000 + 0x4000 * (bookCode k).toNat + 64 * i + 4 * w)) = some ⟨false, s.cbWord k i w⟩ := by
  have hk := (bookCode k).isLt
  rw [portAnswer_quiet hq (aligned_word (by omega) (by omega)), State.readWord, regionOf_cb k hi hw]

/-- Settles O44: entry and bit by bit, through the region each window's addresses stand for. -/
theorem codebookAndStreamWindowsRead : Obligations.CodebookAndStreamWindowsRead := by
  intro s hq
  refine ⟨fun k base i w hbase hi hw => ⟨s.cbWord k i w, ?_, fun hout => ?_, fun hv hlt => ?_⟩, fun outLen hvalid hinvalid => ?_⟩
  · have hb : base = 0x10000 + 0x4000 * (bookCode k).toNat := by
      simp only [List.mem_cons, Prod.mk.injEq, List.not_mem_nil, or_false] at hbase
      rcases hbase with ⟨rfl, rfl⟩ | ⟨rfl, rfl⟩ | ⟨rfl, rfl⟩ <;> rfl
    rw [hb]
    exact cbWindow_reads hq k hi hw
  · rw [State.cbWord, if_neg]
    rintro ⟨hv, hlt⟩
    rcases hout with h | h
    · rw [hv] at h; cases h
    · omega
  · rw [State.cbWord, if_pos ⟨hv, hlt⟩]
    refine ⟨?_, ?_, ?_, ?_⟩
    · rintro rfl
      refine ⟨rfl, ?_⟩
      have := (s.cbAt k i).len.isLt
      rw [State.codeword, charsOf_length, codewordWord, if_pos rfl, BitVec.toNat_setWidth]
      omega
    · rintro u hu rfl b hb
      exact codewordWord_bit _ hu hb
    · rintro j hj rfl
      exact codewordWord_char _ hj
    · intro h9
      rw [codewordWord, if_neg (by omega), if_neg (by omega)]
  · have hlen : s.outLen = outLen := by
      rw [State.outLen]
      split
      · next h => exact (hvalid h).symm
      · next h => exact (hinvalid (by simpa using h)).symm
    refine ⟨hlen, fun w hw => ⟨s.outWord w, ?_, fun b hb => ?_⟩⟩
    · rw [portAnswer_quiet hq (aligned_word (by omega) (by omega)), State.readWord, regionOf_out hw]
    · rw [outWord_bit s w hb, State.outWindowBit, hlen]

/-- The numbers of the fault codes, as R112 lists them. -/
theorem code_of_faultCode_table {c : FaultCode} {x : BitVec 4}
    (h : (c, x) ∈ [(FaultCode.none, (0 : BitVec 4)), (.illegalCmd, 1), (.emptyAlphabet, 2), (.noCodebook, 3), (.hufSeq, 4),
      (.symbolAbsent, 5)]) : c.code = x := by
  simp only [List.mem_cons, Prod.mk.injEq, List.not_mem_nil, or_false] at h
  rcases h with ⟨rfl, rfl⟩ | ⟨rfl, rfl⟩ | ⟨rfl, rfl⟩ | ⟨rfl, rfl⟩ | ⟨rfl, rfl⟩ | ⟨rfl, rfl⟩ <;> rfl

/-- The numbers of HUF_STATE, as R33 lists them. -/
theorem code_of_hufState_table {c : HufState} {x : BitVec 2}
    (h : (c, x) ∈ [(HufState.empty, (0 : BitVec 2)), (.active, 1), (.extracted, 2)]) : c.code = x := by
  simp only [List.mem_cons, Prod.mk.injEq, List.not_mem_nil, or_false] at h
  rcases h with ⟨rfl, rfl⟩ | ⟨rfl, rfl⟩ | ⟨rfl, rfl⟩ <;> rfl

/-- The numbers of the codebooks, as R78 lists them. -/
theorem bookCode_of_table {k : Book} {x : BitVec 2}
    (h : (k, x) ∈ [(Book.fixed, (0 : BitVec 2)), (.shannon, 1), (.huffman, 2)]) : bookCode k = x := by
  simp only [List.mem_cons, Prod.mk.injEq, List.not_mem_nil, or_false] at h
  rcases h with ⟨rfl, rfl⟩ | ⟨rfl, rfl⟩ | ⟨rfl, rfl⟩ <;> rfl

/-- Settles O45: each address is aligned and stands for its register, whose word has the fields said of it. -/
theorem controlPageReads : Obligations.ControlPageReads := by
  intro s hr
  have hdef : ∀ (a : Addr) (v : Word), a.extractLsb' 0 2 = 0 → (regionOf a).freeWhileRunning = false → s.readWord a = v →
      s.portAnswer a = some ⟨false, v⟩ := fun a v ha hf hv => by rw [portAnswer_defined hr ha hf, hv]
  refine ⟨⟨hdef _ _ (by decide) rfl rfl, hdef _ _ (by decide) rfl rfl, hdef _ _ (by decide) rfl rfl, hdef _ _ (by decide) rfl rfl,
    ⟨_, hdef _ _ (by decide) rfl rfl, param0Word_fields s.params⟩, ⟨_, hdef _ _ (by decide) rfl rfl, ctrlWord_bits s⟩,
    ⟨_, hdef _ _ (by decide) rfl rfl, ?status⟩, ?reserved⟩, fun he => ?quiet⟩
  case status =>
    obtain ⟨h0, h1, h2, h3, h4, h8, h9, h10, h11⟩ := statusWord_bits s
    refine ⟨?_, h1, ?_, h3, fun c x hc hs => ?_, h8, h9, h10, h11⟩
    · exact (Bool.eq_iff_iff.1 h0).trans beq_iff_eq
    · exact (Bool.eq_iff_iff.1 h2).trans beq_iff_eq
    · rw [← code_of_faultCode_table hc, ← hs]
      exact h4
  case reserved =>
    intro a ha hhole
    have hreg := regionOf_hole hhole
    exact hdef a 0 ha (by rw [hreg]; rfl) (by rw [State.readWord, hreg])
  case quiet =>
    have hq : ∀ (a : Addr) (v : Word), a.extractLsb' 0 2 = 0 → s.readWord a = v → s.portAnswer a = some ⟨false, v⟩ :=
      fun a v ha hv => by rw [portAnswer_quiet ⟨hr, he⟩ ha, hv]
    obtain ⟨h0, h2, h4, h13, h16, h25⟩ := hufStatusWord_fields s
    obtain ⟨e0, e1, e2, e3, e4, e5, e8, e10⟩ := encStatusWord_bits s
    exact ⟨hq _ _ (by decide) rfl, hq _ _ (by decide) rfl, hq _ _ (by decide) rfl, hq _ _ (by decide) rfl, hq _ _ (by decide) rfl,
      hq _ _ (by decide) rfl, hq _ _ (by decide) rfl, ⟨_, hq _ _ (by decide) rfl, cbValidWord_bits s⟩,
      ⟨_, hq _ _ (by decide) rfl, fun h x hx hs => h0.trans (by rw [hs, code_of_hufState_table hx]), h2, h4, h13, h16, h25⟩,
      hq _ _ (by decide) rfl,
      ⟨_, hq _ _ (by decide) rfl, e0, e1, e2, e3, e4, e5, fun k x hx hs => e8.trans (by rw [hs, bookCode_of_table hx]), e10⟩⟩

end Sys2Proof.Machine
end

section
/-! PROOFS, whose turn it is (20_memory.md R53): the step of each agent. -/

namespace Sys2Proof.Machine

theorem popTurn_of_agenda_nil {s : State} (ha : s.agenda = []) : popTurn s = s := by
  cases s; simp only at ha; subst ha; rfl

theorem step_of_host {s : State} {a : HostAction} {rest : List Turn} (ha : s.agenda = .host a :: rest) :
    step s = .next (hostAct a (popTurn s)) := by
  simp [step, nextTurn, takeTurn, popTurn, ha]

theorem step_of_engineMoves {s : State} (h : EngineMoves s) : step s = engineTurn (popTurn s) := by
  obtain ⟨-, ha | ⟨rest, ha⟩⟩ := h
  · rw [popTurn_of_agenda_nil ha]; simp [step, nextTurn, ha]
  · simp [step, nextTurn, takeTurn, popTurn, ha]

theorem engineTurn_of_running {s : State} {i : Instr} (hr : s.resetHeld = false) (he : s.engState = .running)
    (hd : decode s.curCmd = .ok i) : engineTurn s = exec i s := by
  simp [engineTurn, runCommand, hr, he, hd]

theorem engineTurn_of_not_running {s : State} (he : s.engState ≠ .running) : engineTurn s = .next s := by
  unfold engineTurn
  cases h : s.engState with
  | running => exact absurd h he
  | idle | faulted => simp

/-- Settles O4: the turn is the engine's, and taking it off the agenda leaves CUR_CMD and ENG_STATE as they are. -/
theorem stepRunsTheDecodedCommand : Obligations.StepRunsTheDecodedCommand := fun _ _ hm he hd =>
  (step_of_engineMoves hm).trans (engineTurn_of_running hm.1 he hd)

/-- Settles O5: a host turn whatever the engine does, an engine turn where the engine has no step. -/
theorem stepTakesTheOtherTurns : Obligations.StepTakesTheOtherTurns := fun _ =>
  ⟨fun _ _ ha => step_of_host ha, fun hm he => (step_of_engineMoves hm).trans (engineTurn_of_not_running he)⟩

end Sys2Proof.Machine
end

section
/-! PROOFS, the host port (20_memory.md R55 to R70): which accesses take place, what reads answer in every engine state, and the windows. -/

namespace Sys2Proof.Machine

/-! ### Accesses -/

theorem accessOk_eq_false {size : Nat} {a : Addr} (h : size ≠ 32 ∨ a.extractLsb' 0 2 ≠ 0) : accessOk size a = false := by
  rw [Bool.eq_false_iff, ne_eq, accessOk_iff]
  tauto

/-- An aligned 32-bit read takes place while the hard-reset input is not asserted (R54, R56). -/
theorem hostAct_read_aligned {s : State} {a : Addr} (hr : s.resetHeld = false) (ha : a.extractLsb' 0 2 = 0) :
    hostAct (.read 32 a) s = portRead a s := by
  rw [hostAct_read 32 a s hr, if_pos ((accessOk_iff 32 a).2 ⟨rfl, ha⟩)]

/-- Settles O39: a bad access is a bus error, and each of the two kinds of accepted read touches only the answer and the draws. -/
theorem readsAndBadAccessesChangeNoState : Obligations.ReadsAndBadAccessesChangeNoState := by
  intro s size a v hr
  refine ⟨fun hbad => ?_, fun ha => ⟨_, hostAct_read_aligned hr ha, ?_⟩⟩
  · rw [hostAct_read size a s hr, hostAct_write size a v s hr, accessOk_eq_false hbad]
    exact ⟨rfl, rfl⟩
  · obtain ⟨-, -, h⟩ | ⟨-, h⟩ := portRead_cases a s <;> (rw [h]; exact ⟨rfl, _, rfl⟩)

/-- Settles O40: the listed addresses are those of the regions whose reads are free, and the others are not. -/
theorem busyReadsAreFreeDraws : Obligations.BusyReadsAreFreeDraws := by
  intro s a hr he ha
  have hmod := (aligned_iff a).1 ha
  have hfree := freeWhileRunning_iff a ha
  simp only [List.mem_cons, List.not_mem_nil, or_false]
  rw [hostAct_read_aligned hr ha]
  obtain ⟨-, hf, h⟩ | ⟨hnot, h⟩ := portRead_cases a s
  · have := hfree.1 hf
    exact ⟨fun _ => h, fun hdef => by omega⟩
  · have := mt hfree.2 fun hf => hnot ⟨he, hf⟩
    exact ⟨fun hlist => by omega, fun _ => h⟩

/-! ### The SRC window -/

/-- Byte b of four bytes packed little-endian (R58). -/
theorem extract_fourBytes (c : Nat → Byte) {b : Nat} (hb : b < 4) :
    (c 3 ++ c 2 ++ c 1 ++ c 0).extractLsb' (8 * b) 8 = c b := by
  interval_cases b
  · exact (extract_low _ _ 0 8 (by decide)).trans (extract_all _)
  · exact (extract_high _ _ 8 8 (by decide)).trans ((extract_low _ _ 0 8 (by decide)).trans (extract_all _))
  · exact (extract_high _ _ 16 8 (by decide)).trans ((extract_high _ _ 8 8 (by decide)).trans
      ((extract_low _ _ 0 8 (by decide)).trans (extract_all _)))
  · exact (extract_high _ _ 24 8 (by decide)).trans ((extract_high _ _ 16 8 (by decide)).trans
      ((extract_high _ _ 8 8 (by decide)).trans (extract_all _)))

theorem aligned_src {w : Nat} (hw : w < 2 ^ 22) : (BitVec.ofNat 26 (0x1000000 + 4 * w)).extractLsb' 0 2 = 0 :=
  aligned_word (by omega) (by omega)

/-- A write of the SRC window (R57, R66). -/
theorem hostAct_write_src {s : State} {w : Nat} (v : Word) (hr : s.resetHeld = false) (hw : w < 2 ^ 22) :
    hostAct (.write 32 (BitVec.ofNat 26 (0x1000000 + 4 * w)) v) s = { writeSrc w v s with response := some ⟨false, 0⟩ } := by
  rw [hostAct_write_aligned v hr (aligned_src hw), State.writeWord, regionOf_src hw]

/-- A write of the SRC window while no command runs (R66, R70). -/
theorem hostAct_write_src_quiet {s : State} {w : Nat} (v : Word) (hq : PortQuiet s) (hw : w < 2 ^ 22) :
    hostAct (.write 32 (BitVec.ofNat 26 (0x1000000 + 4 * w)) v) s =
      { s with src := storeSrcWord s.params.pN s.src w v, response := some ⟨false, 0⟩ } := by
  obtain ⟨hr, he⟩ := hq
  rw [hostAct_write_src v hr hw, writeSrc, if_neg he]

/-- The bytes of SRC after a write of its window while no command runs (R58, R66). -/
theorem srcByte_write_src_quiet {s : State} {w : Nat} (v : Word) (hq : PortQuiet s) (hw : w < 2 ^ 22) (j : Nat) :
    (hostAct (.write 32 (BitVec.ofNat 26 (0x1000000 + 4 * w)) v) s).srcByte j =
      if j / 4 = w ∧ j < s.params.pN then byteOf v (j % 4) else s.srcByte j := by
  rw [hostAct_write_src_quiet v hq hw]
  simp only [State.srcByte, Store.getD, get?_storeSrcWord]
  split <;> rfl

/-- Settles O41: while RUNNING the write is dropped, else it stores the bytes of its word below P_N. -/
theorem sourceWritesStoreBytesUnlessRunning : Obligations.SourceWritesStoreBytesUnlessRunning := by
  intro s w v hr hw
  refine ⟨fun he => ?_, fun he => ⟨_, rfl, ?_, srcByte_write_src_quiet v ⟨hr, he⟩ hw⟩⟩
  · rw [hostAct_write_src v hr hw, writeSrc, if_pos he]
  · rw [hostAct_write_src_quiet v ⟨hr, he⟩ hw]

/-- Settles O42: no command makes a read of SRC free, and the word is the packed bytes. -/
theorem sourceWindowReadsTheBytes : Obligations.SourceWindowReadsTheBytes := by
  intro s w hr hw
  refine ⟨s.srcWord w, ?_, fun b hb => extract_fourBytes (fun b => s.srcWindowByte (4 * w + b)) hb⟩
  rw [portAnswer_defined hr (aligned_src hw) (by rw [regionOf_src hw]; rfl), State.readWord, regionOf_src hw]

/-! ### The ALPHA, NODE and WQ windows -/

theorem nodeWord_in_range {s : State} {n : Nat} (h : n < s.nodeCnt.toNat) :
    s.nodeWord n false = nodeWord0 (s.nodeAt n) ∧ s.nodeWord n true = nodeWord1 (s.nodeAt n) := by
  simp [State.nodeWord, h]

theorem nodeWord_out_of_range {s : State} {n : Nat} (h : s.nodeCnt.toNat ≤ n) (second : Bool) : s.nodeWord n second = 0 := by
  rw [State.nodeWord, if_neg (by omega)]

/-- Settles O43: each window's addresses stand for its entries, whose words have the fields R64 gives them; NODE_CNT is at most 511. -/
theorem alphabetAndTreeWindowsRead : Obligations.AlphabetAndTreeWindowsRead := by
  intro s hq
  have hread : ∀ n < 2 ^ 26, n % 4 = 0 → s.portAnswer (BitVec.ofNat 26 n) = some ⟨false, s.readWord (BitVec.ofNat 26 n)⟩ :=
    fun n hn h4 => portAnswer_quiet hq (aligned_word hn h4)
  refine ⟨fun i hi => ?alpha, fun n hn => ⟨s.nodeWord n false, s.nodeWord n true, ?word0, ?word1, ?out, ?last, ?leaf, ?internal⟩,
    fun p hp => ?wq⟩
  case alpha => rw [hread _ (by omega) (by omega), State.readWord, regionOf_alpha hi]; rfl
  case wq => rw [hread _ (by omega) (by omega), State.readWord, regionOf_wq hp]; rfl
  case word0 => rw [hread _ (by omega) (by omega), State.readWord, regionOf_node0 hn]
  case word1 => rw [hread _ (by omega) (by omega), State.readWord, regionOf_node1 hn]
  case out => exact fun h => ⟨nodeWord_out_of_range h _, nodeWord_out_of_range h _⟩
  case last =>
    intro h
    have := s.nodeCnt.isLt
    exact ⟨nodeWord_out_of_range (by omega) _, nodeWord_out_of_range (by omega) _⟩
  case leaf =>
    intro w i hlt hnode
    obtain ⟨h0, h1⟩ := nodeWord_in_range hlt
    rw [h0, h1, hnode]
    exact leafWord_fields w i
  case internal =>
    intro w l r hlt hnode
    obtain ⟨h0, h1⟩ := nodeWord_in_range hlt
    rw [h0, h1, hnode]
    exact internalWord_fields w l r

/-! ### LOADSRC -/

/-- Byte b of word w of a list of bytes, little-endian (R85). -/
theorem byteOf_packedWord (bytes : List Byte) (w : Nat) {b : Nat} (hb : b < 4) :
    byteOf (packedWord bytes w) b = bytes.getD (4 * w + b) 0 :=
  extract_fourBytes (fun b => bytes.getD (4 * w + b) 0) hb

/-- What writes of SRC words leave in SRC, when each word is always written with the same value: the bytes of the words written, and the
rest as it was (R66, R84). -/
theorem runWrites_src (f : Nat → Word) (ws : List Nat) : ∀ s : State, PortQuiet s → (∀ w ∈ ws, w < 2 ^ 22) →
    (runWrites (ws.map fun w => .wr (srcAddr w) (f w)) s).params = s.params ∧
    ∀ j < s.params.pN, (runWrites (ws.map fun w => .wr (srcAddr w) (f w)) s).srcByte j =
      if j / 4 ∈ ws then byteOf (f (j / 4)) (j % 4) else s.srcByte j := by
  induction ws with
  | nil => exact fun s _ _ => ⟨rfl, fun j _ => by simp [runWrites]⟩
  | cons w ws ih =>
    intro s hq hws
    obtain ⟨hw, hws⟩ := List.forall_mem_cons.1 hws
    have hstep := hostAct_write_src_quiet (f w) hq hw
    have hbyte := srcByte_write_src_quiet (f w) hq hw
    have hq' : PortQuiet (hostAct (.write 32 (srcAddr w) (f w)) s) := by rw [srcAddr, hstep]; exact hq
    have hp' : (hostAct (.write 32 (srcAddr w) (f w)) s).params = s.params := by rw [srcAddr, hstep]
    obtain ⟨hp, hb⟩ := ih _ hq' hws
    rw [hp'] at hp hb
    refine ⟨hp, fun j hj => (hb j hj).trans ?_⟩
    rw [srcAddr, hbyte j]
    by_cases h : j / 4 = w <;> simp [h, hj]

theorem getElem_srcBytes (s : State) {j : Nat} (h : j < s.srcBytes.length) : s.srcBytes[j] = s.srcByte j := by
  simp [State.srcBytes]

/-- Settles O53: every index below P_N lies in a word LOADSRC writes, whose byte there is the list's. -/
theorem loadSrcLoadsTheBytes : Obligations.LoadSrcLoadsTheBytes := by
  intro s bytes hp hq hlen
  have hpN := Params.pN_lt hp
  obtain ⟨hparams, hbyte⟩ := runWrites_src (packedWord bytes) (List.range ((s.params.pN + 3) / 4)) s hq
    fun w hw => by rw [List.mem_range] at hw; omega
  apply List.ext_getElem
  · rw [srcBytes_length, Pseudo.expand, hparams, hlen]
  · intro j _ hj
    have hword : j / 4 ∈ List.range ((s.params.pN + 3) / 4) := List.mem_range.2 (by omega)
    rw [getElem_srcBytes, Pseudo.expand, hbyte j (by omega), if_pos hword,
      byteOf_packedWord bytes _ (by omega), show 4 * (j / 4) + j % 4 = j by omega, List.getD_eq_getElem _ _ hj]

end Sys2Proof.Machine
end

section
/-! PROOFS, the command words (30_encoding.md R77 to R82): a word is its three fields, a word that decodes has its command's fields, and
what makes a word illegal makes its fields ill-formed. -/

namespace Sys2Proof

/-! ### Words and their fields -/

/-- The three fields cover the word (R77). -/
theorem wordOfFields_fieldsOf (c : Word) : wordOfFields (fieldsOf c) = c := by
  simp only [wordOfFields, fieldsOf, BitVec.extractLsb'_append_extractLsb'_eq_extractLsb', BitVec.extractLsb'_eq_self]

/-- The round trip of the commands, all twelve (R79). -/
theorem Laws.RoundTrip.statement_all (i : Instr) : Statement i := by
  cases i with
  | buildAlpha => exact buildAlpha
  | buildFixed => exact buildFixed
  | buildShannon => exact buildShannon
  | buildHuffman => exact buildHuffman
  | encodeFixed => exact encodeFixed
  | encodeShannon => exact encodeShannon
  | encodeHuffman => exact encodeHuffman
  | stats => exact stats
  | mbr => exact mbr
  | hufInit => exact hufInit
  | hufStep => exact hufStep
  | hufExtract => exact hufExtract

theorem decode_encode (i : Instr) : decode (encode i) = .ok i := (Laws.RoundTrip.statement_all i).2.2

/-! ### Words that decode -/

/-- A CB field that selects a codebook is that of its ENCODE command (R78, R79). -/
theorem fields_encodeCommand {cb : BitVec 2} {k : Book} (h : bookOfField cb = some k) :
    (encodeCommand k).fields = ⟨encodeOp, cb, 0⟩ := by
  unfold bookOfField at h
  split_ifs at h with h0 h1 h2 <;> (cases h; subst cb; rfl)

/-- An operation code other than ENCODE's stands for the command whose fields are that code and zeros (R77, R79). -/
theorem fields_plainCommand {op : BitVec 8} {i : Instr} (h : plainCommand op = some i) : i.fields = ⟨op, 0, 0⟩ := by
  unfold plainCommand at h
  split_ifs at h <;> (cases h; subst op; rfl)

/-- Fields that decode are those of their command: no bit is ignored (R80). -/
theorem eq_fields_of_decodeFields {f : CmdFields} {i : Instr} (h : decodeFields f = .ok i) : f = i.fields := by
  obtain ⟨op, cb, rsv⟩ := f
  unfold decodeFields at h
  split_ifs at h with hrsv hop hcb <;> obtain rfl : rsv = 0 := not_not.1 hrsv
  · obtain rfl : op = encodeOp := hop
    split at h
    · next k hk => cases h; exact (fields_encodeCommand hk).symm
    · cases h
  · obtain rfl : cb = 0 := hcb
    split at h
    · next j hj => cases h; exact (fields_plainCommand hj).symm
    · cases h
  · split at h <;> cases h

theorem fieldsOf_eq_of_decode {c : Word} {i : Instr} (h : decode c = .ok i) : fieldsOf c = i.fields := eq_fields_of_decodeFields h

/-- A command has one word (R79). -/
theorem decode_eq_ok_iff (c : Word) (i : Instr) : decode c = .ok i ↔ c = encode i := by
  constructor
  · intro h
    rw [← wordOfFields_fieldsOf c, fieldsOf_eq_of_decode h, encode]
  · rintro rfl
    exact decode_encode i

/-- Settles O2: a command has one word, and each row of the table holds the word of its command. -/
theorem decodesExactlyTheEncodedWords : Obligations.DecodesExactlyTheEncodedWords := by
  intro c i
  refine ⟨decode_eq_ok_iff c i, (decode_eq_ok_iff c i).trans ⟨?row, ?word⟩⟩
  case row =>
    rintro rfl
    cases i <;> decide
  case word =>
    intro h
    simp only [List.mem_cons, Prod.mk.injEq, List.not_mem_nil, or_false] at h
    rcases h with ⟨rfl, rfl⟩ | ⟨rfl, rfl⟩ | ⟨rfl, rfl⟩ | ⟨rfl, rfl⟩ | ⟨rfl, rfl⟩ | ⟨rfl, rfl⟩ | ⟨rfl, rfl⟩ | ⟨rfl, rfl⟩ |
      ⟨rfl, rfl⟩ | ⟨rfl, rfl⟩ | ⟨rfl, rfl⟩ | ⟨rfl, rfl⟩ <;> rfl

/-- Settles O1: each number is what the encoder writes for its command. -/
theorem decodesTheTwelveWords : Obligations.DecodesTheTwelveWords :=
  ⟨decode_encode .buildAlpha, decode_encode .buildFixed, decode_encode .buildShannon, decode_encode .buildHuffman,
    decode_encode .encodeFixed, decode_encode .encodeShannon, decode_encode .encodeHuffman, decode_encode .stats, decode_encode .mbr,
    decode_encode .hufInit, decode_encode .hufStep, decode_encode .hufExtract⟩

/-! ### Words that do not -/

/-- A word that decodes has well-formed fields (R80). -/
theorem wf_of_decode {c : Word} {i : Instr} (h : decode c = .ok i) : (fieldsOf c).wf = true := by
  rw [fieldsOf_eq_of_decode h]
  exact (Laws.RoundTrip.statement_all i).1

/-- Each of the four kinds of illegal word fails one of the checks of its fields (R82). -/
theorem CmdFields.not_wf_of_illegal {f : CmdFields}
    (h : f.op ∉ [(0x01 : BitVec 8), 0x02, 0x03, 0x04, 0x05, 0x06, 0x07, 0x10, 0x11, 0x12] ∨ f.rsv ≠ 0
      ∨ (f.op ≠ 0x05 ∧ f.cb ≠ 0) ∨ (f.op = 0x05 ∧ f.cb = 3)) : ¬ f.wf = true := by
  simp only [CmdFields.wf, Bool.and_eq_true]
  rintro ⟨⟨⟨hrsv, hop⟩, hplain⟩, hknown⟩
  rcases h with h | h | ⟨hne, hcb⟩ | ⟨-, hcb⟩
  · simp only [CmdFields.opKnown, plainOps, encodeOp, Bool.or_eq_true, beq_iff_eq, List.contains_iff_mem, List.mem_cons,
      List.not_mem_nil, or_false] at hop h
    tauto
  · exact h (by simpa [CmdFields.rsvZero] using hrsv)
  · simp only [CmdFields.cbPlain, Bool.or_eq_true, beq_iff_eq] at hplain
    exact hplain.elim hne hcb
  · simp [CmdFields.cbKnown, hcb] at hknown

end Sys2Proof

namespace Sys2Proof.Machine

/-- The engine's step for a word that does not decode (R80, R111). -/
theorem engineTurn_of_illegal {s : State} {e : Illegal} (hr : s.resetHeld = false) (he : s.engState = .running)
    (hd : decode s.curCmd = .error e) : engineTurn s = .next (faulted .illegalCmd s.curCmd s) := by
  simp [engineTurn, runCommand, hr, he, hd]

/-- Settles O3: a word that decodes has well-formed fields, so the engine's step for an illegal one is its fault. -/
theorem illegalWordsFault : Obligations.IllegalWordsFault := by
  intro s hm he hillegal
  cases hd : decode s.curCmd with
  | ok i => exact absurd (wf_of_decode hd) (CmdFields.not_wf_of_illegal hillegal)
  | error e => exact (step_of_engineMoves hm).trans (engineTurn_of_illegal hm.1 he hd)

end Sys2Proof.Machine
end

section
/-! PROOFS, the submission of a command (30_encoding.md R81, 60_exceptions.md R115). -/

namespace Sys2Proof.Machine

theorem submitCommand_of_idle {s : State} (c : Word) (he : s.engState = .idle) : submitCommand c s = acceptCommand c s := by
  simp [submitCommand, he]

theorem submitCommand_of_not_idle {s : State} (c : Word) (he : s.engState ≠ .idle) : submitCommand c s = dropCommand s := by
  unfold submitCommand
  cases h : s.engState with
  | idle => exact absurd h he
  | running | faulted => rfl

/-- A write to CMD is a submission (R57, R81). -/
theorem hostAct_write_cmd {s : State} (c : Word) (hr : s.resetHeld = false) :
    hostAct (.write 32 0x010 c) s = { submitCommand c s with response := some ⟨false, 0⟩ } :=
  hostAct_write_aligned c hr (by decide)

/-- Settles O6: a submission is accepted in IDLE, whatever the word, and dropped in the other two states. -/
theorem commandAcceptedOnlyWhenIdle : Obligations.CommandAcceptedOnlyWhenIdle := by
  intro s c hr
  constructor
  · intro he
    rw [hostAct_write_cmd c hr, submitCommand_of_idle c he]; rfl
  · intro he
    rw [hostAct_write_cmd c hr, submitCommand_of_not_idle c he]; rfl

end Sys2Proof.Machine
end

section
/-! PROOFS, BUILD_ALPHA (40_alphabet.md R86 to R88): its end state, the census it leaves, and that SRC alone decides it. -/

namespace Sys2Proof.Machine

/-- An answer of BUILD_ALPHA is its one end state (R86). -/
theorem eq_of_exec_buildAlpha {s t : State} (h : exec .buildAlpha s = .next t) :
    t = complete (invalidateBuilt (installAlphabet (histogram s.srcBytes) s)) := by
  rw [exec_buildAlpha] at h
  cases h
  rfl

/-- Past the new L, ALPHA holds what it held (R86). -/
theorem get?_installAlphabet_alpha_stale (bytes : List Byte) (s : State) {i : Nat}
    (h : (installAlphabet (histogram bytes) s).alphaLen.toNat ≤ i) :
    Store.get? (installAlphabet (histogram bytes) s).alpha i = Store.get? s.alpha i := by
  rw [installAlphabet_alphaLen_toNat] at h
  exact Store.get?_setFrom_outside _ _ (by omega)

/-- Settles O17: the end state written out, with the reads of its two new stores. -/
theorem buildAlphaCompletes : Obligations.BuildAlphaCompletes := by
  refine fun s => ⟨_, exec_buildAlpha s, rfl, fun v hv => ⟨?_, histAt_installAlphabet s.srcBytes s hv⟩,
    fun i => get?_installAlphabet_alpha_stale s.srcBytes s⟩
  exact (get?_histogram _ v).trans (if_pos hv)

/-! ### The census -/

theorem mem_usedBytes {bytes : List Byte} {v : Nat} : v ∈ usedBytes bytes ↔ v < 256 ∧ BitVec.ofNat 8 v ∈ bytes := by
  simp [usedBytes]

/-- Each entry of the alphabet of a tally is a byte that occurs, with its count (R86, R87). -/
theorem census_of_mem_alphabetOf_histogram {bytes : List Byte} (h : bytes.length < 2 ^ 24) {e : AlphaEntry}
    (he : e ∈ alphabetOf (histogram bytes)) : e.sym ∈ bytes ∧ e.freq.toNat = bytes.count e.sym := by
  rw [alphabetOf_histogram h, List.mem_map] at he
  obtain ⟨v, hv, rfl⟩ := he
  exact ⟨(mem_usedBytes.1 hv).2, censusEntry_freq_toNat h v⟩

/-- The entries below the new L are those of the alphabet of the tally (R86). -/
theorem mem_alphabetOf_iff_alphaAt (bytes : List Byte) (s : State) (e : AlphaEntry) :
    e ∈ alphabetOf (histogram bytes) ↔
      ∃ i < (installAlphabet (histogram bytes) s).alphaLen.toNat, (installAlphabet (histogram bytes) s).alphaAt i = e := by
  rw [installAlphabet_alphaLen_toNat, List.mem_iff_getElem]
  constructor
  · rintro ⟨i, hi, rfl⟩
    exact ⟨i, hi, alphaAt_installAlphabet _ s hi⟩
  · rintro ⟨i, hi, rfl⟩
    exact ⟨i, hi, (alphaAt_installAlphabet _ s hi).symm⟩

/-- Each entry below the new L is a byte that occurs, with its count (R87). -/
theorem alphaAt_installAlphabet_census {s : State} (hp : s.params.pN < 2 ^ 24) {i : Nat}
    (hi : i < (installAlphabet (histogram s.srcBytes) s).alphaLen.toNat) :
    ((installAlphabet (histogram s.srcBytes) s).alphaAt i).sym ∈ s.srcBytes ∧
      ((installAlphabet (histogram s.srcBytes) s).alphaAt i).freq.toNat =
        s.srcBytes.count ((installAlphabet (histogram s.srcBytes) s).alphaAt i).sym :=
  census_of_mem_alphabetOf_histogram (by simpa using hp) ((mem_alphabetOf_iff_alphaAt _ s _).2 ⟨i, hi, rfl⟩)

/-- A byte occurs exactly when an entry below the new L has it as its symbol (R87). -/
theorem mem_srcBytes_iff_alphaAt {s : State} (hp : s.params.pN < 2 ^ 24) (b : Byte) :
    b ∈ s.srcBytes ↔ ∃ i < (installAlphabet (histogram s.srcBytes) s).alphaLen.toNat,
      ((installAlphabet (histogram s.srcBytes) s).alphaAt i).sym = b := by
  constructor
  · intro hb
    have hmem : censusEntry s.srcBytes b.toNat ∈ alphabetOf (histogram s.srcBytes) := by
      rw [alphabetOf_histogram (by simpa using hp)]
      exact List.mem_map_of_mem (mem_usedBytes.2 ⟨b.isLt, by simpa using hb⟩)
    obtain ⟨i, hi, he⟩ := (mem_alphabetOf_iff_alphaAt _ s _).1 hmem
    exact ⟨i, hi, by simp [he, censusEntry]⟩
  · rintro ⟨i, hi, rfl⟩
    exact (alphaAt_installAlphabet_census hp hi).1

/-- A source has a byte (R9), which has an entry. -/
theorem one_le_installAlphabet_alphaLen {s : State} (hp : s.params.wf = true) :
    1 ≤ (installAlphabet (histogram s.srcBytes) s).alphaLen.toNat := by
  have hlen : 0 < s.srcBytes.length := by
    simp only [Params.wf, Params.lengthWf, Bool.and_eq_true, decide_eq_true_eq] at hp
    rw [srcBytes_length]
    omega
  obtain ⟨i, hi, -⟩ := (mem_srcBytes_iff_alphaAt (Params.pN_lt hp) _).1 (List.getElem_mem hlen)
  omega

/-- Settles O18: the entries are the bytes that occur with their counts, and the invariant of R43 holds of them. -/
theorem alphabetIsTheCensusOfTheSource : Obligations.AlphabetIsTheCensusOfTheSource := by
  intro s t hwf h
  have hp := Params.pN_lt hwf
  have hinv := AlphaInv.after_buildAlpha s hp
  have hle := alphabetOf_histogram_length s.srcBytes
  rw [← installAlphabet_alphaLen_toNat _ s] at hle
  rw [eq_of_exec_buildAlpha h]
  exact ⟨one_le_installAlphabet_alphaLen hwf, hle, ⟨hinv.ascending, hinv.positive, hinv.total⟩, mem_srcBytes_iff_alphaAt hp,
    fun i hi => (alphaAt_installAlphabet_census hp hi).2⟩

/-! ### Determinism -/

/-- The entries below the new L do not depend on the state the alphabet is installed in (R88). -/
theorem alphaAt_installAlphabet_congr (bytes : List Byte) (s u : State) {i : Nat}
    (hi : i < (installAlphabet (histogram bytes) s).alphaLen.toNat) :
    (installAlphabet (histogram bytes) s).alphaAt i = (installAlphabet (histogram bytes) u).alphaAt i := by
  rw [installAlphabet_alphaLen_toNat] at hi
  rw [alphaAt_installAlphabet _ s hi, alphaAt_installAlphabet _ u hi]

/-- Settles O19: L and the entries below it are functions of the source bytes. -/
theorem buildAlphaDependsOnTheSourceAlone : Obligations.BuildAlphaDependsOnTheSourceAlone := by
  intro s t u v hsrc ht hv
  rw [eq_of_exec_buildAlpha ht, eq_of_exec_buildAlpha hv, ← hsrc]
  exact ⟨rfl, fun i hi => alphaAt_installAlphabet_congr s.srcBytes s u hi⟩

end Sys2Proof.Machine
end

section
/-! PROOFS, the statistics unit (41_statistics.md R89 to R91): the bit scan as the position of the highest set bit, and its sum over the
indices of an alphabet. -/

namespace Sys2Proof.Machine

/-! ### MBR -/

/-- The argument of the bit scan under either reading of P_MBR_MODE (R89). -/
theorem mbrArgument_eq_ite (m : MbrMode) (v : Word) :
    mbrArgument m v = if m = .cap then v.toNat else v.toNat % 256 := by
  cases m with
  | cap => exact mbrArgument_cap v
  | ignore => exact mbrArgument_ignore v

/-- An argument below 256 has at most 8 bits, so the cap does not cut its bit length. -/
theorem mbrOf_eq_max_bitlen {m : MbrMode} {v : Word} (h : mbrArgument m v < 256) :
    mbrOf m v = max 1 (bitlen (mbrArgument m v)) := by
  rw [mbrOf, Nat.min_eq_right ((bitlen_le_iff _ 8).2 h)]

/-- From 128 on the bit length is at least 8, the cap. -/
theorem mbrOf_eq_eight {m : MbrMode} {v : Word} (h : 128 ≤ mbrArgument m v) : mbrOf m v = 8 := by
  have hgt : ¬ bitlen (mbrArgument m v) ≤ 7 := fun hle => absurd ((bitlen_le_iff _ 7).1 hle) (by omega)
  simp only [mbrOf]
  omega

/-- Settles O20: by the three cases of the argument, 0, below the cap and from 128 on. -/
theorem mbrGivesTheHighestBitPosition : Obligations.MbrGivesTheHighestBitPosition := by
  intro s
  refine ⟨mbrOf s.params.mbrMode s.curArg, exec_mbr s, rfl, fun u hu => ?_⟩
  rw [← mbrArgument_eq_ite] at hu
  subst hu
  refine ⟨fun h0 => ?_, fun h0 hlt => ?_, mbrOf_eq_eight⟩
  · rw [mbrOf_eq_max_bitlen (by omega), h0]
    rfl
  · have hspec := bitlen_spec _ h0
    rwa [mbrOf_eq_max_bitlen (by omega), Nat.max_eq_right hspec.2.2]

/-! ### STATS -/

theorem sumBits_eq_sum (m : MbrMode) (len : Nat) :
    sumBits m len = ∑ i ∈ Finset.range len, mbrOf m (BitVec.ofNat 32 i) := rfl

/-- On the indices below 256 the two readings agree, and the scan is the bit length, 1 for 0 (R89). -/
theorem mbrOf_of_lt (m : MbrMode) {i : Nat} (hi : i < 256) : mbrOf m (BitVec.ofNat 32 i) = max 1 (bitlen i) := by
  have hv : (BitVec.ofNat 32 i).toNat = i := Nat.mod_eq_of_lt (by omega)
  have harg : mbrArgument m (BitVec.ofNat 32 i) = i := (mbrArgument_of_lt m _ (by omega)).trans hv
  rw [mbrOf_eq_max_bitlen (by omega), harg]

/-- The numbers from 2^n to 2^(n+1) - 1 are those of n + 1 bits. -/
theorem bitlen_two_pow_add {n x : Nat} (hx : x < 2 ^ n) : bitlen (2 ^ n + x) = n + 1 := by
  have hle : bitlen (2 ^ n + x) ≤ n + 1 := (bitlen_le_iff _ _).2 (by omega)
  have hgt : ¬ bitlen (2 ^ n + x) ≤ n := by
    rw [bitlen_le_iff]
    omega
  omega

/-- The sum of the bit lengths below 2^n, with 1 for 0: each doubling of the range adds 2^n numbers of n + 1 bits. -/
theorem sum_bitlen_range_two_pow (n : Nat) :
    (∑ i ∈ Finset.range (2 ^ n), max 1 (bitlen i)) + 2 ^ n = n * 2 ^ n + 2 := by
  induction n with
  | zero => rfl
  | succ n ih =>
    have hupper : ∑ x ∈ Finset.range (2 ^ n), max 1 (bitlen (2 ^ n + x)) = 2 ^ n * (n + 1) := by
      rw [Finset.sum_const_nat (m := n + 1), Finset.card_range]
      intro x hx
      rw [bitlen_two_pow_add (Finset.mem_range.1 hx)]
      omega
    rw [pow_succ, Nat.mul_two, Finset.sum_range_add, hupper]
    linarith only [ih]

theorem sum_bitlen_range_256 : ∑ i ∈ Finset.range 256, max 1 (bitlen i) = 1794 :=
  Nat.eq_sub_of_add_eq (sum_bitlen_range_two_pow 8)

/-- Settles O21: below 256 each term is the bit length, and the sum grows with the range up to its value at 256. -/
theorem statsSumsTheBitScan : Obligations.StatsSumsTheBitScan := by
  intro s
  refine ⟨fun h0 => ?_, fun h0 => ⟨?_, fun hle => ⟨?_, ?_, fun h256 => ?_⟩⟩⟩
  · rw [exec_stats, if_pos h0, raiseFault_eq_faulted]
  · rw [exec_stats, if_neg h0, sumBits_eq_sum]
    rfl
  · exact Finset.sum_congr rfl fun i hi => mbrOf_of_lt _ ((Finset.mem_range.1 hi).trans_le hle)
  · rw [← sum_bitlen_range_256]
    exact Finset.sum_le_sum_of_subset (Finset.range_mono hle)
  · rw [h256]
    exact sum_bitlen_range_256

end Sys2Proof.Machine
end

section
/-! PROOFS, BUILD_FIXED (42_fixed.md R94, R95): the digits of its codewords, its end state, and where its codewords have one length
and none begins another. -/

namespace Sys2Proof.Machine

/-! ### The codewords -/

theorem fixedChars_length (m : MbrMode) (len : Count) (i : Nat) :
    (fixedChars m len i).length = max (mbrOf m (len.setWidth 32)) (max 1 (bitlen i)) := by
  rw [fixedChars, padLeft_length, bin_length]

/-- Padding does not move the digits: character c keeps the weight 2^(length - 1 - c), and the digits above the numeral are 0 (R94). -/
theorem padLeft_bin_getElem? (n i : Nat) {c : Nat} (hc : c < (padLeft n (bin i)).length) :
    (padLeft n (bin i))[c]? = some (i.testBit ((padLeft n (bin i)).length - 1 - c)) := by
  have hlen := padLeft_length n (bin i)
  by_cases hpad : c < n - (bin i).length
  · have hhigh : i < 2 ^ ((padLeft n (bin i)).length - 1 - c) :=
      (bitlen_le_iff _ _).1 (by have := bin_length i; omega)
    rw [Nat.testBit_eq_false_of_lt hhigh, padLeft, List.getElem?_append_left (by simpa using hpad), List.getElem?_replicate,
      if_pos hpad]
  · rw [padLeft, List.getElem?_append_right (by simpa using hpad), List.length_replicate,
      List.getElem?_eq_getElem (by omega), bin_getElem]
    congr 2
    rw [← padLeft]
    omega

/-- Character c of the fixed codeword of i is the digit of i of weight 2^(length - 1 - c) (R94). -/
theorem fixedChars_getElem? (m : MbrMode) (len : Count) (i : Nat) {c : Nat} (hc : c < (fixedChars m len i).length) :
    (fixedChars m len i)[c]? = some (i.testBit ((fixedChars m len i).length - 1 - c)) :=
  padLeft_bin_getElem? _ i hc

theorem lt_two_pow_fixedChars_length (m : MbrMode) (len : Count) (i : Nat) : i < 2 ^ (fixedChars m len i).length :=
  (bitlen_le_iff _ _).1 (by rw [fixedChars_length]; omega)

/-- A fixed codeword shows every digit of its index, so it determines the index. -/
theorem fixedChars_injective (m : MbrMode) (len : Count) : Function.Injective (fixedChars m len) := by
  intro i j h
  have hi := lt_two_pow_fixedChars_length m len i
  have hj := lt_two_pow_fixedChars_length m len j
  rw [← h] at hj
  refine Nat.eq_of_testBit_eq fun b => ?_
  by_cases hb : b < (fixedChars m len i).length
  · have hdigit := fixedChars_getElem? m len i (c := (fixedChars m len i).length - 1 - b) (by omega)
    rw [h, fixedChars_getElem? m len j (by rw [← h]; omega), ← h, Option.some_inj,
      show (fixedChars m len i).length - 1 - ((fixedChars m len i).length - 1 - b) = b by omega] at hdigit
    exact hdigit.symm
  · have hpow : 2 ^ (fixedChars m len i).length ≤ 2 ^ b := Nat.pow_le_pow_right (by decide) (Nat.le_of_not_lt hb)
    rw [Nat.testBit_eq_false_of_lt (hi.trans_le hpow), Nat.testBit_eq_false_of_lt (hj.trans_le hpow)]

/-! ### The end state -/

/-- The assignments of BUILD_FIXED (R94). -/
def buildFixedBody (s : State) : State :=
  { s with
    cb := s.cb.set .fixed (Store.setFrom (s.cb.get .fixed) 0 (fixedBook s.params.mbrMode s.alphaLen)),
    valid := s.valid.set .fixed true }

theorem exec_buildFixed (s : State) : exec .buildFixed s = .next (complete (buildFixedBody s)) := rfl

theorem fixedBook_length (m : MbrMode) (len : Count) : (fixedBook m len).length = len.toNat := by simp [fixedBook]

/-- Below L, BUILD_FIXED has written the codeword of the index (R94). -/
theorem get?_buildFixedBody_inside (s : State) {i : Nat} (hi : i < s.alphaLen.toNat) :
    Store.get? (buildFixedBody s).cb.fixed i = some (codewordOf (fixedChars s.params.mbrMode s.alphaLen i)) := by
  refine (Store.get?_setFrom_inside _ _ (Nat.zero_le i) (by rw [fixedBook_length]; omega)).trans ?_
  simp [fixedBook, hi]

/-- From L on, the codebook holds what it held (R94). -/
theorem get?_buildFixedBody_outside (s : State) {i : Nat} (hi : s.alphaLen.toNat ≤ i) :
    Store.get? (buildFixedBody s).cb.fixed i = Store.get? s.cb.fixed i :=
  Store.get?_setFrom_outside _ _ (by rw [fixedBook_length]; omega)

/-- The codeword of an index below L is stored whole, so it reads back as it was emitted (R46, R94). -/
theorem codeword_buildFixedBody (s : State) {i : Nat} (hi : i < s.alphaLen.toNat) :
    (buildFixedBody s).codeword .fixed i = fixedChars s.params.mbrMode s.alphaLen i := by
  have hlen : (fixedChars s.params.mbrMode s.alphaLen i).length ≤ 255 := by
    have hb : bitlen i ≤ 9 := (bitlen_le_iff _ _).2 (hi.trans s.alphaLen.isLt)
    have hm := (mbrOf_bounds s.params.mbrMode (s.alphaLen.setWidth 32)).2
    rw [fixedChars_length]
    omega
  rw [State.codeword, State.cbAt, PerBook.get, Store.getD, get?_buildFixedBody_inside s hi, Option.getD_some,
    charsOf_codewordOf _ hlen]

/-- Settles O22: each entry is the padded numeral of its index, whose digits padding does not move. -/
theorem buildFixedCompletes : Obligations.BuildFixedCompletes := fun s =>
  ⟨_, exec_buildFixed s, rfl,
    fun i hi => ⟨fixedChars s.params.mbrMode s.alphaLen i, rfl, fixedChars_length _ _ i,
      fun _ => fixedChars_getElem? _ _ i, get?_buildFixedBody_inside s hi, codeword_buildFixedBody s hi⟩,
    fun _ => get?_buildFixedBody_outside s⟩

/-! ### One length, and no codeword begins another -/

/-- Where R95 holds, mbr(L) is wide enough for the numeral of every index below L; for L = 256 it is the cap, 8, that suffices. -/
theorem max_bitlen_le_mbrOf {m : MbrMode} {len : Count} (hlen : len.toNat ≤ 255 ∨ (m = .cap ∧ len.toNat = 256)) {i : Nat}
    (hi : i < len.toNat) : max 1 (bitlen i) ≤ mbrOf m (len.setWidth 32) := by
  have hv : (len.setWidth 32).toNat = len.toNat := BitVec.toNat_setWidth_of_le (by decide)
  rcases hlen with hle | ⟨rfl, heq⟩
  · have harg := mbrArgument_of_lt m (len.setWidth 32) (by omega)
    rw [mbrOf_eq_max_bitlen (by omega), harg, hv]
    exact max_le_max le_rfl (bitlen_mono hi.le)
  · rw [mbrOf_eq_eight (by rw [mbrArgument_cap]; omega)]
    have hb : bitlen i ≤ 8 := (bitlen_le_iff i 8).2 (by omega)
    omega

/-- Settles O23: no numeral is longer than mbr(L), so all codewords have that length, and codewords of one length that begin one another
are equal, as are then their indices. -/
theorem fixedCodebookIsUniformAndPrefixFree : Obligations.FixedCodebookIsUniformAndPrefixFree := by
  intro s t _ hlen h
  rw [exec_buildFixed] at h
  cases h
  have hword := fun i (hi : i < s.alphaLen.toNat) =>
    (complete_codeword (buildFixedBody s) .fixed i).trans (codeword_buildFixedBody s hi)
  have huniform : ∀ i < s.alphaLen.toNat,
      (fixedChars s.params.mbrMode s.alphaLen i).length = mbrOf s.params.mbrMode (s.alphaLen.setWidth 32) := fun i hi => by
    rw [fixedChars_length, max_eq_left (max_bitlen_le_mbrOf hlen hi)]
  refine ⟨_, rfl, fun i hi => ?_, fun i hi j hj hpre => ?_⟩
  · rw [hword i hi, ← huniform i hi]
    exact ⟨rfl, fun _ => fixedChars_getElem? _ _ i⟩
  · rw [hword i hi, hword j hj] at hpre
    exact fixedChars_injective _ _ (hpre.eq_of_length ((huniform i hi).trans (huniform j hj).symm))

end Sys2Proof.Machine
end

section
/-! PROOFS, BUILD_SHANNON (43_shannon.md R96 to R98): the code of the bisection, which depends on L alone, and the end state that holds
it. -/

namespace Sys2Proof.Machine

/-! ### The bisection as a code -/

/-- A range of one index, or of none, has the empty path (R96). -/
theorem bisect_of_le (fuel : Nat) {l r : Nat} (i : Nat) (h : r ≤ l) : bisect fuel l r i = [] := by
  cases fuel with
  | zero => rfl
  | succ fuel => rw [bisect, if_pos h]

/-- A longer range splits at the floor of its midpoint (R96). -/
theorem bisect_succ_of_lt (fuel : Nat) {l r : Nat} (i : Nat) (h : l < r) :
    bisect (fuel + 1) l r i =
      if i ≤ (l + r) / 2 then false :: bisect fuel l ((l + r) / 2) i else true :: bisect fuel ((l + r) / 2 + 1) r i := by
  rw [bisect, if_neg (Nat.not_le_of_lt h)]

/-- At most 2^k indices need at most k characters: the larger half has half of them, rounded up (R97). -/
theorem bisect_length_le_of_lt (k : Nat) : ∀ {fuel l r i : Nat}, r < l + 2 ^ k → (bisect fuel l r i).length ≤ k := by
  induction k with
  | zero =>
    intro fuel l r i hr
    rw [bisect_of_le fuel i (by omega)]
    exact le_rfl
  | succ k ih =>
    intro fuel l r i hr
    by_cases hle : r ≤ l
    · rw [bisect_of_le fuel i hle]
      exact Nat.zero_le _
    cases fuel with
    | zero => exact Nat.zero_le _
    | succ fuel =>
      rw [bisect_succ_of_lt fuel i (by omega)]
      split <;> exact Nat.succ_le_succ (ih (by omega))

/-- At least 2^k indices need at least k characters each: the smaller half has half of them, rounded down (R97). -/
theorem le_bisect_length_of_le (k : Nat) : ∀ {fuel l r i : Nat}, l + 2 ^ k ≤ r + 1 → r < l + fuel →
    k ≤ (bisect fuel l r i).length := by
  induction k with
  | zero => intro fuel l r i _ _; exact Nat.zero_le _
  | succ k ih =>
    intro fuel l r i hr hf
    have hpos := Nat.two_pow_pos k
    cases fuel with
    | zero => omega
    | succ fuel =>
      rw [bisect_succ_of_lt fuel i (by omega)]
      split <;> exact Nat.succ_le_succ (ih (by omega) (by omega))

/-- A path that begins another has taken the same halves to the end, so both have the same index (R97). -/
theorem eq_of_bisect_isPrefix (fuel : Nat) : ∀ {l r i j : Nat}, l ≤ i → i ≤ r → l ≤ j → j ≤ r → r < l + fuel →
    bisect fuel l r i <+: bisect fuel l r j → i = j := by
  induction fuel with
  | zero => intro l r i j _ _ _ _ hf; omega
  | succ fuel ih =>
    intro l r i j hli hir hlj hjr hf hpre
    by_cases hle : r ≤ l
    · omega
    rw [bisect_succ_of_lt fuel i (by omega), bisect_succ_of_lt fuel j (by omega)] at hpre
    by_cases hi : i ≤ (l + r) / 2 <;> by_cases hj : j ≤ (l + r) / 2
    · rw [if_pos hi, if_pos hj, List.prefix_cons_inj] at hpre
      exact ih hli hi hlj hj (by omega) hpre
    · rw [if_pos hi, if_neg hj, List.cons_prefix_cons] at hpre
      nomatch hpre.1
    · rw [if_neg hi, if_pos hj, List.cons_prefix_cons] at hpre
      nomatch hpre.1
    · rw [if_neg hi, if_neg hj, List.prefix_cons_inj] at hpre
      exact ih (by omega) hir (by omega) hjr (by omega) hpre

/-- A range of 2^e indices halves evenly: each split decides one digit of an index's position in it, the highest first (R97). -/
theorem bisect_two_pow (e : Nat) : ∀ {fuel l r x : Nat}, r + 1 = l + 2 ^ e → r < l + fuel → x < 2 ^ e →
    bisect fuel l r (l + x) = (List.range e).reverse.map x.testBit := by
  induction e with
  | zero => intro fuel l r x hr _ _; exact bisect_of_le fuel _ (by omega)
  | succ e ih =>
    intro fuel l r x hr hf hx
    have hpos := Nat.two_pow_pos e
    cases fuel with
    | zero => omega
    | succ fuel =>
      rw [bisect_succ_of_lt fuel _ (by omega), List.range_succ, List.reverse_concat, List.map_cons]
      by_cases hlow : x < 2 ^ e
      · rw [if_pos (by omega), Nat.testBit_lt_two_pow hlow, ih (by omega) (by omega) hlow]
      · obtain ⟨y, rfl⟩ := Nat.exists_eq_add_of_le (Nat.le_of_not_lt hlow)
        have hmid : l + (2 ^ e + y) = (l + r) / 2 + 1 + y := by omega
        have hy : y < 2 ^ e := by omega
        rw [if_neg (by omega), hmid, ih (by omega) (by omega) hy, Nat.testBit_two_pow_add_eq, Nat.testBit_lt_two_pow hy]
        refine congrArg _ (List.map_congr_left fun b hb => ?_)
        rw [List.mem_reverse, List.mem_range] at hb
        exact (Nat.testBit_two_pow_add_gt hb y).symm

/-- The path of index i in the bisection of the n indices from 0 (R96). -/
def shannonChars (n i : Nat) : Chars := bisect n 0 (n - 1) i

theorem shannonChars_length_le_clog (n i : Nat) : (shannonChars n i).length ≤ Nat.clog 2 n := by
  have hle := Nat.le_pow_clog (b := 2) (by decide) n
  have hpos := Nat.two_pow_pos (Nat.clog 2 n)
  exact bisect_length_le_of_lt _ (by omega)

theorem log_le_shannonChars_length {n : Nat} (i : Nat) (h : n ≠ 0) : Nat.log 2 n ≤ (shannonChars n i).length := by
  have hle := Nat.pow_log_le_self 2 h
  exact le_bisect_length_of_le _ (by omega) (by omega)

theorem clog_two_le_log_two_succ (n : Nat) : Nat.clog 2 n ≤ Nat.log 2 n + 1 :=
  Nat.clog_le_of_le_pow (Nat.lt_pow_succ_log_self (by decide) n).le

/-! ### The end state -/

/-- The assignments of BUILD_SHANNON (R96). -/
def buildShannonBody (s : State) : State :=
  { s with
    cb := s.cb.set .shannon (shannonSplit s.alphaLen.toNat 0 (s.alphaLen.toNat - 1) [] (s.cb.get .shannon)),
    valid := s.valid.set .shannon true }

theorem exec_buildShannon_of_ne_zero {s : State} (h0 : s.alphaLen ≠ 0) :
    exec .buildShannon s = .next (complete (buildShannonBody s)) :=
  (exec_buildShannon s).trans (if_neg h0)

/-- Below L, BUILD_SHANNON has written the path of the index (R96). -/
theorem get?_buildShannonBody_inside (s : State) {i : Nat} (hi : i < s.alphaLen.toNat) :
    Store.get? (buildShannonBody s).cb.shannon i = some (codewordOf (shannonChars s.alphaLen.toNat i)) :=
  get?_shannonSplit_inside _ _ _ _ _ _ (Nat.zero_le i) (by omega) (by omega)

/-- From L on, the codebook holds what it held (R96). -/
theorem get?_buildShannonBody_outside {s : State} (h0 : s.alphaLen ≠ 0) {i : Nat} (hi : s.alphaLen.toNat ≤ i) :
    Store.get? (buildShannonBody s).cb.shannon i = Store.get? s.cb.shannon i := by
  have hpos : 0 < s.alphaLen.toNat := by bv_omega
  exact get?_shannonSplit_outside _ _ _ _ _ _ (by omega)

/-- L has 9 bits, so a path has at most 9 characters, and it reads back as it was emitted (R46, R96). -/
theorem codeword_buildShannonBody (s : State) {i : Nat} (hi : i < s.alphaLen.toNat) :
    (buildShannonBody s).codeword .shannon i = shannonChars s.alphaLen.toNat i := by
  have hlen : (shannonChars s.alphaLen.toNat i).length ≤ 9 :=
    (shannonChars_length_le_clog _ _).trans (Nat.clog_le_of_le_pow s.alphaLen.isLt.le)
  rw [State.codeword, State.cbAt, PerBook.get, Store.getD, get?_buildShannonBody_inside s hi, Option.getD_some,
    charsOf_codewordOf _ (by omega)]

/-- The codewords BUILD_SHANNON leaves are functions of L and the index (R98). -/
theorem codeword_of_exec_buildShannon {s t : State} (h0 : s.alphaLen ≠ 0) (h : exec .buildShannon s = .next t) {i : Nat}
    (hi : i < s.alphaLen.toNat) : t.codeword .shannon i = shannonChars s.alphaLen.toNat i := by
  rw [exec_buildShannon_of_ne_zero h0] at h
  cases h
  exact codeword_buildShannonBody s hi

/-- Settles O24: each entry below L is the path of its index, which is short enough to be stored whole. -/
theorem buildShannonCompletes : Obligations.BuildShannonCompletes := by
  refine fun s => ⟨fun h0 => ?_, fun h0 => ⟨_, exec_buildShannon_of_ne_zero h0, rfl, fun i hi => ?_, fun i hi => ?_⟩⟩
  · rw [exec_buildShannon, if_pos h0, raiseFault_eq_faulted]
  · exact ⟨_, rfl, get?_buildShannonBody_inside s hi, codeword_buildShannonBody s hi⟩
  · exact get?_buildShannonBody_outside h0 hi

/-- Settles O25: the paths part where the bisection does, their lengths lie between the floor and the ceiling of log2 L, and an even
bisection decides the digits of the index. -/
theorem shannonCodebookIsPrefixFreeAndBalanced : Obligations.ShannonCodebookIsPrefixFreeAndBalanced := by
  intro s t h0 _ h
  have hpos : s.alphaLen.toNat ≠ 0 := by bv_omega
  refine ⟨fun i hi j hj hpre => ?_, fun i hi => ?_, fun e he i hi => ?_⟩
  · rw [codeword_of_exec_buildShannon h0 h hi, codeword_of_exec_buildShannon h0 h hj] at hpre
    exact eq_of_bisect_isPrefix _ (Nat.zero_le i) (by omega) (Nat.zero_le j) (by omega) (by omega) hpre
  · have hlow := log_le_shannonChars_length i hpos
    have hhigh := shannonChars_length_le_clog s.alphaLen.toNat i
    have hgap := clog_two_le_log_two_succ s.alphaLen.toNat
    rw [codeword_of_exec_buildShannon h0 h hi]
    omega
  · rw [codeword_of_exec_buildShannon h0 h hi, shannonChars, ← bisect_two_pow e (fuel := s.alphaLen.toNat) (l := 0)
      (r := s.alphaLen.toNat - 1) (by omega) (by omega) (by omega), Nat.zero_add]

/-- Settles O26: the codewords of both states are the same function of the same L. -/
theorem shannonCodebookDependsOnLengthAlone : Obligations.ShannonCodebookDependsOnLengthAlone := by
  intro s t u v hlen ht hv h0 i hi
  rw [codeword_of_exec_buildShannon h0 ht hi, codeword_of_exec_buildShannon (hlen ▸ h0) hv (hlen ▸ hi), hlen]

end Sys2Proof.Machine
end

section
/-! PROOFS, the selection scan (44_huffman.md R101, R105): the literal scan, turn by turn, and what it keeps along the queue. -/

namespace Sys2Proof.Machine

@[simp] theorem selectScan_two (w : Nat → Freq) : selectScan w 2 = (0, 1) := rfl

/-- The scan of one more element is one more turn (R101). -/
theorem selectScan_succ (w : Nat → Freq) {n : Nat} (hn : 2 ≤ n) : selectScan w (n + 1) = scanTurn w (selectScan w n) n := by
  obtain ⟨m, rfl⟩ := Nat.exists_eq_add_of_le hn
  rw [selectScan, selectScan, show 2 + m + 1 - 2 = m + 1 by omega, List.range'_1_concat, List.foldl_concat, Nat.add_sub_cancel_left]

/-- An element below the second minimum pushes it into the first slot (R101). -/
theorem scanTurn_of_lt_second {w : Nat → Freq} {ab : Nat × Nat} {k : Nat} (h : w k < w ab.2) : scanTurn w ab k = (ab.2, k) :=
  if_pos h

/-- An element below the first minimum alone replaces it (R101). -/
theorem scanTurn_of_lt_first {w : Nat → Freq} {ab : Nat × Nat} {k : Nat} (h : ¬ w k < w ab.2) (h' : w k < w ab.1) :
    scanTurn w ab k = (k, ab.2) := by
  rw [scanTurn, if_neg h, if_pos h']

/-- Any other element changes nothing (R101). -/
theorem scanTurn_of_not_lt {w : Nat → Freq} {ab : Nat × Nat} {k : Nat} (h : ¬ w k < w ab.2) (h' : ¬ w k < w ab.1) :
    scanTurn w ab k = ab := by
  rw [scanTurn, if_neg h, if_neg h']

/-- Settles O28: the scan of n + 1 elements is the scan of n and one turn, whose three branches are the three cases. -/
theorem scanIsTheLiteralOne : Obligations.ScanIsTheLiteralOne := by
  refine fun w => ⟨selectScan_two w, fun n a b hn hab => ?_⟩
  rw [selectScan_succ w hn, hab]
  exact ⟨fun hb => scanTurn_of_lt_second hb, fun hb ha => scanTurn_of_lt_first hb ha, fun hb ha => scanTurn_of_not_lt hb ha⟩

/-! ### What the turns keep -/

/-- The pair holds two smallest weights of the positions from `z` to below `k`, the second minimum at most the first (R105). -/
def TwoSmallest (w : Nat → Freq) (z k : Nat) (ab : Nat × Nat) : Prop :=
  w ab.2 ≤ w ab.1 ∧ ∀ j < k, z ≤ j → j ≠ ab.1 → j ≠ ab.2 → w ab.1 ≤ w j

/-- Once the pair holds two smallest weights, every turn keeps it so (R105). -/
theorem TwoSmallest.after_turn {w : Nat → Freq} {z k : Nat} {ab : Nat × Nat} (h : TwoSmallest w z k ab) :
    TwoSmallest w z (k + 1) (scanTurn w ab k) := by
  obtain ⟨a, b⟩ := ab
  obtain ⟨hba, hrest⟩ := h
  dsimp only at hba hrest
  by_cases hkb : w k < w b
  · rw [scanTurn_of_lt_second hkb]
    refine ⟨BitVec.le_of_lt hkb, fun j hj hz hjb hjk => ?_⟩
    by_cases hja : j = a
    · rw [hja]; exact hba
    · exact BitVec.le_trans hba (hrest j (by dsimp only at hjk; omega) hz hja hjb)
  by_cases hka : w k < w a
  · rw [scanTurn_of_lt_first hkb hka]
    refine ⟨BitVec.not_lt.1 hkb, fun j hj hz hjk hjb => ?_⟩
    by_cases hja : j = a
    · rw [hja]; exact BitVec.le_of_lt hka
    · exact BitVec.le_trans (BitVec.le_of_lt hka) (hrest j (by dsimp only at hjk; omega) hz hja hjb)
  · rw [scanTurn_of_not_lt hkb hka]
    refine ⟨hba, fun j hj hz hja hjb => ?_⟩
    obtain hjk | rfl := Nat.lt_succ_iff_lt_or_eq.1 hj
    · exact hrest j hjk hz hja hjb
    · exact BitVec.not_lt.1 hka

/-- A second weight not above the first: the scan selects two smallest weights (R105). -/
theorem twoSmallest_selectScan {w : Nat → Freq} {n : Nat} (hn : 2 ≤ n) (h : w 1 ≤ w 0) : TwoSmallest w 0 n (selectScan w n) :=
  selectScan_induction w n hn (TwoSmallest w 0) ⟨h, fun j hj _ h0 h1 => by dsimp only at h0 h1; omega⟩ fun _ _ => .after_turn

/-- Where W(0) < W(1), the scan is still at (0, 1), no later weight being below W(1), or it has lost position 0 for good and holds two
smallest of the others (R105). -/
def KeptOrLost (w : Nat → Freq) (k : Nat) (ab : Nat × Nat) : Prop :=
  (ab = (0, 1) ∧ ∀ j, 2 ≤ j → j < k → w 1 ≤ w j) ∨
  ((∃ j, 2 ≤ j ∧ j < k ∧ w j < w 1) ∧ 1 ≤ ab.1 ∧ 1 ≤ ab.2 ∧ TwoSmallest w 1 k ab)

/-- A turn at a later position does not bring position 0 back (R105). -/
theorem scanTurn_pos (w : Nat → Freq) {ab : Nat × Nat} {k : Nat} (ha : 1 ≤ ab.1) (hb : 1 ≤ ab.2) (hk : 1 ≤ k) :
    1 ≤ (scanTurn w ab k).1 ∧ 1 ≤ (scanTurn w ab k).2 := by
  unfold scanTurn
  split
  · exact ⟨hb, hk⟩
  · split
    · exact ⟨hk, hb⟩
    · exact ⟨ha, hb⟩

/-- A turn loses position 0 at the first weight below W(1) (R105). -/
theorem KeptOrLost.after_turn {w : Nat → Freq} {k : Nat} {ab : Nat × Nat} (h01 : w 0 < w 1) (hk : 2 ≤ k) (h : KeptOrLost w k ab) :
    KeptOrLost w (k + 1) (scanTurn w ab k) := by
  obtain ⟨rfl, hkept⟩ | ⟨⟨j, hj2, hjk, hj⟩, ha, hb, hsmall⟩ := h
  · by_cases hk1 : w k < w 1
    · rw [scanTurn_of_lt_second (ab := (0, 1)) hk1]
      refine .inr ⟨⟨k, hk, Nat.lt_succ_self k, hk1⟩, le_rfl, by dsimp only; omega, BitVec.le_of_lt hk1, fun j hj hj1 hja hjb => ?_⟩
      dsimp only at hja hjb
      exact hkept j (by omega) (by omega)
    · have hk0 : ¬ w k < w 0 := fun hk0 => hk1 (BitVec.lt_trans hk0 h01)
      rw [scanTurn_of_not_lt (ab := (0, 1)) hk1 hk0]
      refine .inl ⟨rfl, fun j hj2 hj => ?_⟩
      obtain hjk | rfl := Nat.lt_succ_iff_lt_or_eq.1 hj
      · exact hkept j hj2 hjk
      · exact BitVec.not_lt.1 hk1
  · obtain ⟨ha', hb'⟩ := scanTurn_pos w ha hb (show 1 ≤ k by omega)
    exact .inr ⟨⟨j, hj2, Nat.lt_succ_of_lt hjk, hj⟩, ha', hb', hsmall.after_turn⟩

/-- A second weight above the first: the scan ends where `KeptOrLost` says (R105). -/
theorem keptOrLost_selectScan {w : Nat → Freq} {n : Nat} (hn : 2 ≤ n) (h01 : w 0 < w 1) : KeptOrLost w n (selectScan w n) :=
  (selectScan_induction w n hn (fun k ab => 2 ≤ k ∧ KeptOrLost w k ab)
    ⟨le_rfl, .inl ⟨rfl, fun j hj hj' => by omega⟩⟩
    fun _ _ h => ⟨by omega, h.2.after_turn h01 h.1⟩).2

/-- Settles O29: two smallest weights are kept from the first turn on where W(1) <= W(0), and else from the turn that loses position 0. -/
theorem scanSelectsAsCharacterised : Obligations.ScanSelectsAsCharacterised := by
  intro w n a b hn hab
  have hbounds := selectScan_bounds w hn
  rw [hab] at hbounds
  obtain ⟨ha, hb, hne⟩ := hbounds
  refine ⟨ha, hb, hne, fun h10 => ?_, fun h01 hlow => ?_, fun h01 hhigh => ?_⟩
  · have h := twoSmallest_selectScan hn h10
    rw [hab] at h
    exact ⟨h.1, fun k hk hka hkb => h.2 k hk (Nat.zero_le k) hka hkb⟩
  · have h := keptOrLost_selectScan hn h01
    rw [hab] at h
    obtain ⟨-, hkept⟩ | ⟨-, ha1, hb1, hba, hrest⟩ := h
    · obtain ⟨k, hk2, hkn, hk⟩ := hlow
      exact absurd hk (BitVec.not_lt.2 (hkept k hk2 hkn))
    · refine ⟨Nat.one_le_iff_ne_zero.1 ha1, Nat.one_le_iff_ne_zero.1 hb1, fun k hk hk0 hka hkb => ?_⟩
      have hle := hrest k hk (Nat.one_le_iff_ne_zero.2 hk0) hka hkb
      exact ⟨hle, BitVec.le_trans hba hle⟩
  · have h := keptOrLost_selectScan hn h01
    rw [hab] at h
    obtain ⟨h, -⟩ | ⟨⟨j, hj2, hjn, hj⟩, -⟩ := h
    · exact Prod.mk.inj h
    · exact absurd hj (BitVec.not_lt.2 (hhigh j hj2 hjn))

end Sys2Proof.Machine
end

section
/-! PROOFS, HUF_INIT and HUF_STEP (44_huffman.md R100, R102): the stores after the leaves have been planted, and the queue and the arena
after one merge. -/

namespace Sys2Proof.Machine

/-! ### HUF_INIT -/

theorem leavesOf_length (s : State) : (leavesOf s).length = s.alphaLen.toNat := by simp [leavesOf]

theorem get?_hufInitBody_node_inside (s : State) {i : Nat} (hi : i < s.alphaLen.toNat) :
    Store.get? (hufInitBody s).node i = some (.leaf (s.alphaAt i).freq (BitVec.ofNat 8 i)) := by
  rw [hufInitBody_node, Store.get?_setFrom_inside _ _ (Nat.zero_le i) (by rw [leavesOf_length]; omega)]
  simp [leavesOf, hi]

theorem get?_hufInitBody_wq_inside (s : State) {i : Nat} (hi : i < s.alphaLen.toNat) :
    Store.get? (hufInitBody s).wq i = some (BitVec.ofNat 9 i) := by
  rw [hufInitBody_wq, Store.get?_setFrom_inside _ _ (Nat.zero_le i) (by simpa using hi)]
  simp [hi]

/-- From L on, the arena and the queue hold what they held (R100). -/
theorem get?_hufInitBody_outside (s : State) {i : Nat} (hi : s.alphaLen.toNat ≤ i) :
    Store.get? (hufInitBody s).node i = Store.get? s.node i ∧ Store.get? (hufInitBody s).wq i = Store.get? s.wq i := by
  rw [hufInitBody_node, hufInitBody_wq]
  exact ⟨Store.get?_setFrom_outside _ _ (by rw [leavesOf_length]; omega), Store.get?_setFrom_outside _ _ (by simpa using hi)⟩

theorem exec_hufInit_of_ne_zero {s : State} (hl : s.alphaLen ≠ 0) : exec .hufInit s = .next (complete (hufInitBody s)) :=
  (exec_hufInit s).trans (if_neg hl)

/-- Settles O27: the leaves and their queue are written from 0 to below L, and no further. -/
theorem hufInitCompletes : Obligations.HufInitCompletes := by
  refine fun s => ⟨fun hl => ?_, fun hl => ⟨_, exec_hufInit_of_ne_zero hl, rfl, fun i hi => ?_, fun i hi => ?_⟩⟩
  · rw [exec_hufInit, if_pos hl, raiseFault_eq_faulted]
  · exact ⟨get?_hufInitBody_node_inside s hi, ForestInv.nodeAt_hufInitBody s hi, get?_hufInitBody_wq_inside s hi,
      ForestInv.wqAt_hufInitBody s hi⟩
  · exact get?_hufInitBody_outside s hi

/-! ### The queue and the arena after a merge -/

@[simp] theorem queue_length (s : State) : s.queue.length = s.wcnt.toNat := by simp [State.queue]

theorem getElem_queue (s : State) {p : Nat} (hp : p < s.queue.length) : s.queue[p] = s.wqAt p := by simp [State.queue]

/-- Two entries out of a list, the later one first: `skipTwo` says where an entry stood. -/
theorem getElem?_eraseIdx_eraseIdx {α : Type} (l : List α) {lo hi : Nat} (h : lo < hi) (p : Nat) :
    ((l.eraseIdx hi).eraseIdx lo)[p]? = l[skipTwo lo hi p]? := by
  rw [List.getElem?_eraseIdx, List.getElem?_eraseIdx, List.getElem?_eraseIdx, skipTwo]
  by_cases h1 : p < lo
  · rw [if_pos h1, if_pos h1, if_pos (by omega)]
  · rw [if_neg h1, if_neg h1]
    split <;> rfl

/-- The queue after a merge: the two positions taken out, the new node at the tail (R102). -/
theorem mergeAt_queue {s : State} {a b : Nat} (ha : a < s.wcnt.toNat) (hb : b < s.wcnt.toNat) (hne : a ≠ b) :
    (mergeAt a b s).queue = (s.queue.eraseIdx (max a b)).eraseIdx (min a b) ++ [s.nodeCnt] := by
  have hw : (mergeAt a b s).wcnt.toNat = s.wcnt.toNat - 2 + 1 := (hufMergeBody_wcnt s (by omega)).trans (by omega)
  rw [State.queue, hw, List.range_succ, List.map_append, List.map_singleton, wqAt_mergeAt ha hb hne _ (by omega), if_pos rfl]
  congr 1
  apply List.ext_getElem?
  intro p
  rw [getElem?_eraseIdx_eraseIdx _ (by omega)]
  by_cases hp : p < s.wcnt.toNat - 2
  · have hskip := ((exists_skipTwo_iff ha hb hne _).1 ⟨p, hp, rfl⟩).1
    rw [List.getElem?_eq_getElem (l := s.queue) (by rwa [queue_length]), getElem_queue, List.getElem?_map,
      List.getElem?_range hp, Option.map_some, wqAt_mergeAt ha hb hne p (by omega), if_neg (by omega)]
  · have hskip : s.wcnt.toNat ≤ skipTwo (min a b) (max a b) p := by
      rw [skipTwo, if_neg (by omega), if_neg (by omega)]
      omega
    rw [List.getElem?_eq_none (by simpa using hp), List.getElem?_eq_none (by simpa using hskip)]

/-- A merge writes the queue below WCNT only (R102). -/
theorem get?_mergeAt_wq_outside {s : State} {a b : Nat} (ha : a < s.wcnt.toNat) (hb : b < s.wcnt.toNat) {p : Nat}
    (hp : s.wcnt.toNat ≤ p) : Store.get? (mergeAt a b s).wq p = Store.get? s.wq p := by
  rw [mergeAt_wq, Store.get?_set_other _ _ (by omega), queueRemoveTwo, get?_queueRemove_outside _ _ _ _ _ (by omega),
    get?_queueRemove_outside _ _ _ _ _ (by omega)]

theorem exec_hufStep_of_one_lt {s : State} (he : s.hufState ≠ .empty) (h1 : 1 < s.wcnt.toNat) :
    exec .hufStep s = .next (complete (hufMergeBody s)) := by
  have hne : s.wcnt ≠ 1 := by rintro h; rw [h] at h1; exact absurd h1 (by decide)
  rw [exec_hufStep, if_neg he, if_neg hne]

/-- Settles O30: the three branches of HUF_STEP, the last one a merge of the two positions the scan selects. -/
theorem hufStepMergesTheSelectedRoots : Obligations.HufStepMergesTheSelectedRoots := by
  refine fun s => ⟨fun he => ?_, fun he h1 => ?_, fun p w hw => ?_, fun a b he h2 hab => ?_⟩
  · rw [exec_hufStep, if_pos he, raiseFault_eq_faulted]
  · rw [exec_hufStep, if_neg he, if_pos h1]; rfl
  · rw [State.weightAt]
    obtain ⟨i, h⟩ | ⟨l, r, h⟩ := hw <;> rw [h, nodeWeight]
  · have hbounds := selectScan_bounds s.weightAt h2
    have hexec := exec_hufStep_of_one_lt he h2
    rw [hufMergeBody, hab] at hexec
    rw [hab] at hbounds
    obtain ⟨ha, hb, hne⟩ := hbounds
    exact ⟨_, hexec, rfl, mergeAt_queue ha hb hne, fun p => get?_mergeAt_wq_outside ha hb, Store.get?_set_same _ _ _,
      nodeAt_mergeAt_new a b s, fun n => Store.get?_set_other _ _⟩

end Sys2Proof.Machine
end

section
/-! PROOFS, HUF_EXTRACT (44_huffman.md R103, R107): the walk writes the leaves and nothing else, and each path determines its leaf. -/

namespace Sys2Proof.Machine

/-! ### Paths -/

namespace State

/-- A path that begins another one goes on, by the rest of it, to the same end. -/
theorem Path.of_isPrefix {s : State} {n m k : Nat} {w v : Chars} (hw : s.Path n w m) (hv : s.Path n v k) (hpre : w <+: v) :
    ∃ u, s.Path m u k := by
  induction hw generalizing v with
  | here => exact ⟨v, hv⟩
  | left hint _ ih =>
    obtain ⟨rfl, -⟩ | ⟨v', rfl, hv'⟩ | ⟨v', rfl, -⟩ := (path_internal_iff hint).1 hv
    · exact absurd (List.prefix_nil.1 hpre) (List.cons_ne_nil _ _)
    · exact ih hv' ((List.prefix_cons_inj _).1 hpre)
    · nomatch (List.cons_prefix_cons.1 hpre).1
  | right hint _ ih =>
    obtain ⟨rfl, -⟩ | ⟨v', rfl, -⟩ | ⟨v', rfl, hv'⟩ := (path_internal_iff hint).1 hv
    · exact absurd (List.prefix_nil.1 hpre) (List.cons_ne_nil _ _)
    · nomatch (List.cons_prefix_cons.1 hpre).1
    · exact ih hv' ((List.prefix_cons_inj _).1 hpre)

/-- Where the path to a leaf begins another one, both end at the leaf. -/
theorem Path.eq_of_isPrefix {s : State} {n m k : Nat} {w v : Chars} {wt : Freq} {i : BitVec 8} (hleaf : s.nodeAt m = .leaf wt i)
    (hw : s.Path n w m) (hv : s.Path n v k) (hpre : w <+: v) : m = k := by
  obtain ⟨u, hu⟩ := hw.of_isPrefix hv hpre
  exact ((path_leaf_iff hleaf).1 hu).2.symm

end State

namespace ForestInv

variable {s : State}

/-- The only root left is the last node created (R106). -/
theorem wqAt_zero_toNat (h : ForestInv s) (hinv : HufInv s) (h1 : s.wcnt = 1) : (s.wqAt 0).toNat = 2 * s.alphaLen.toNat - 2 := by
  have hone : s.wcnt.toNat = 1 := by simp [h1]
  have he := hinv.ne_empty_of_wcnt hone.ge
  have hcnt := hinv.node_count he
  have hqueue := hinv.queue_le
  obtain ⟨p, hp, hroot⟩ := (h.roots he (2 * s.alphaLen.toNat - 2) (by omega)).2 fun n hn hc => by
    have := h.lt_of_isChild he hn hc
    omega
  obtain rfl : p = 0 := by omega
  exact hroot

/-- The walk from a valid node writes entries below L only (R103). -/
theorem get?_hufWalk_outside (h : ForestInv s) (he : s.hufState ≠ .empty) {i : Nat} (hi : s.alphaLen.toNat ≤ i) (fuel : Nat) :
    ∀ (n : NodeId) (path : Chars) (m : Store Codeword), n.toNat < s.nodeCnt.toNat →
    Store.get? (hufWalk s fuel n path m) i = Store.get? m i := by
  induction fuel with
  | zero => exact fun _ _ _ _ => rfl
  | succ fuel ih =>
    intro n path m hn
    by_cases hl : n.toNat < s.alphaLen.toNat
    · have hidx : (BitVec.ofNat 8 n.toNat).toNat ≤ n.toNat := by rw [BitVec.toNat_ofNat]; exact Nat.mod_le _ _
      simp only [hufWalk, h.leaves he _ hl]
      exact Store.get?_set_other m _ (by omega)
    · obtain ⟨l, r, hln, hrn, -, hint⟩ := h.internals he _ hn (by omega)
      simp only [hufWalk, hint]
      rw [ih r _ _ (by omega), ih l _ _ (by omega)]

/-- What HUF_EXTRACT leaves at an index below L: the path to its leaf, of at most L - 1 characters, stored whole (R103, R107). -/
theorem codeword_hufExtractBody (h : ForestInv s) (hinv : HufInv s) (h1 : s.wcnt = 1) {i : Nat} (hi : i < s.alphaLen.toNat) :
    ∃ w : Chars, s.Path (s.wqAt 0).toNat w i ∧ w.length ≤ s.alphaLen.toNat - 1 ∧
      Store.get? (hufExtractBody s).cb.huffman i = some (codewordOf w) ∧ (hufExtractBody s).codeword .huffman i = w := by
  have hone : s.wcnt.toNat = 1 := by simp [h1]
  have he := hinv.ne_empty_of_wcnt hone.ge
  have hroot := h.wqAt_zero_toNat hinv h1
  obtain ⟨w, hp, hw, hget⟩ := h.get?_hufExtractBody hinv h1 hi
  have hlen := h.length_le_of_path he hp (h.queued he 0 (by omega))
  have hget : Store.get? (hufExtractBody s).cb.huffman i = some (codewordOf w) := hget
  refine ⟨w, hp, by omega, hget, ?_⟩
  rw [State.codeword, State.cbAt, PerBook.get, Store.getD, hget, Option.getD_some, charsOf_codewordOf w hw]

/-- From L on, HUF_EXTRACT leaves the codebook as it was (R103). -/
theorem get?_hufExtractBody_outside (h : ForestInv s) (hinv : HufInv s) (h1 : s.wcnt = 1) {i : Nat} (hi : s.alphaLen.toNat ≤ i) :
    Store.get? (hufExtractBody s).cb.huffman i = Store.get? s.cb.huffman i := by
  have hone : s.wcnt.toNat = 1 := by simp [h1]
  have he := hinv.ne_empty_of_wcnt hone.ge
  exact h.get?_hufWalk_outside he hi _ _ _ _ (h.queued he 0 (by omega))

/-- No codeword HUF_EXTRACT leaves begins another: they are paths to distinct leaves (R107). -/
theorem prefixFree_hufExtractBody (h : ForestInv s) (hinv : HufInv s) (h1 : s.wcnt = 1) :
    PrefixFree ((hufExtractBody s).codeword .huffman) s.alphaLen.toNat := by
  intro i hi j hj hpre
  have he := hinv.ne_empty_of_wcnt (s := s) (by simp [h1])
  obtain ⟨w, hw, -, -, hwi⟩ := h.codeword_hufExtractBody hinv h1 hi
  obtain ⟨v, hv, -, -, hvj⟩ := h.codeword_hufExtractBody hinv h1 hj
  rw [hwi, hvj] at hpre
  exact hw.eq_of_isPrefix (h.leaves he i hi) hv hpre

end ForestInv

theorem exec_hufExtract_of_one {s : State} (he : s.hufState ≠ .empty) (h1 : s.wcnt = 1) :
    exec .hufExtract s = .next (complete (hufExtractBody s)) := by
  rw [exec_hufExtract, if_neg (not_or.2 ⟨he, not_not.2 h1⟩)]

/-- Settles O31: the walk from the one root reaches every leaf, and every path is short enough to be stored whole. -/
theorem hufExtractRecordsThePathOfEveryLeaf : Obligations.HufExtractRecordsThePathOfEveryLeaf := by
  refine fun s => ⟨fun h => ?_, fun he h1 => ⟨_, exec_hufExtract_of_one he h1, rfl, fun hinv hf => ?_⟩⟩
  · rw [exec_hufExtract, if_pos h, raiseFault_eq_faulted]
  · exact ⟨fun i => hf.codeword_hufExtractBody hinv h1, fun i => hf.get?_hufExtractBody_outside hinv h1⟩

end Sys2Proof.Machine
end

section
/-! PROOFS, BUILD_HUFFMAN (44_huffman.md R104, R106, R107): it is the three step commands in order, its loop ends with one tree, and
no merge changes the weight of the queue. -/

namespace Sys2Proof.Machine

/-! ### The step commands in order -/

theorem execAll_cons_of_next {i : Instr} {s t : State} (is : List Instr) (h : exec i s = .next t) :
    execAll (i :: is) s = execAll is t := by
  rw [execAll, h]

/-- n HUF_STEPs on a queue of n + 1 roots leave what the loop of BUILD_HUFFMAN leaves (R104). -/
theorem execAll_replicate_hufStep (n : Nat) (is : List Instr) : ∀ s : State, s.hufState ≠ .empty → s.wcnt.toNat = n + 1 →
    execAll (List.replicate n .hufStep ++ is) (complete s) = execAll is (complete (hufMergeAll (n + 1) s)) := by
  induction n with
  | zero =>
    intro s _ hw
    rw [hufMergeAll, if_neg (by omega), List.replicate_zero, List.nil_append]
  | succ n ih =>
    intro s he hw
    have hone : 1 < s.wcnt.toNat := by omega
    rw [hufMergeAll, if_pos hone, List.replicate_succ, List.cons_append,
      execAll_cons_of_next _ (exec_hufStep_of_one_lt (s := complete s) he hone)]
    exact ih (hufMergeBody s) he (by rw [hufMergeBody_wcnt s hone, hw, Nat.add_sub_cancel])

/-- The state the loop of BUILD_HUFFMAN ends with, before the extraction (R104). -/
def hufBuilt (s : State) : State := hufMergeAll s.alphaLen.toNat (hufInitBody s)

theorem exec_buildHuffman_of_ne_zero {s : State} (hl : s.alphaLen ≠ 0) :
    exec .buildHuffman s = .next (complete (hufExtractBody (hufBuilt s))) :=
  (exec_buildHuffman s).trans (if_neg hl)

/-- Up to the extraction, BUILD_HUFFMAN changes the arena, the queue, the scan positions and the builder's registers (R104). -/
theorem hufBuilt_frame (s : State) :
    hufBuilt s = { s with
      wq := (hufBuilt s).wq, wcnt := (hufBuilt s).wcnt, node := (hufBuilt s).node, nodeCnt := (hufBuilt s).nodeCnt,
      min1 := (hufBuilt s).min1, min2 := (hufBuilt s).min2, hufState := .active, hufRoot := 0 } :=
  hufMergeAll_frame _ _

@[simp] theorem hufBuilt_alphaLen (s : State) : (hufBuilt s).alphaLen = s.alphaLen := by rw [hufBuilt_frame]

@[simp] theorem hufBuilt_hufState (s : State) : (hufBuilt s).hufState = .active := by rw [hufBuilt_frame]

theorem hufBuilt_wcnt {s : State} (hl : s.alphaLen ≠ 0) : (hufBuilt s).wcnt = 1 := hufMergeAll_hufInitBody_wcnt hl

/-- The walk does not look at DONE. -/
theorem hufWalk_complete (s : State) (fuel : Nat) : ∀ (n : NodeId) (path : Chars) (m : Store Codeword),
    hufWalk (complete s) fuel n path m = hufWalk s fuel n path m := by
  induction fuel with
  | zero => exact fun _ _ _ => rfl
  | succ fuel ih =>
    intro n path m
    rw [hufWalk, hufWalk, complete_nodeAt]
    cases s.nodeAt n.toNat with
    | leaf => rfl
    | internal w l r => dsimp only; rw [ih, ih]

/-- An extraction right after another command is the extraction alone (R103, R110). -/
theorem complete_hufExtractBody_complete (s : State) :
    complete (hufExtractBody (complete s)) = complete (hufExtractBody s) := by
  rw [hufExtractBody, hufWalk_complete]
  rfl

/-- Settles O32: each HUF_STEP is one turn of the loop, and no step command looks at the DONE the one before it has set. -/
theorem buildHuffmanIsTheStepCommandsInOrder : Obligations.BuildHuffmanIsTheStepCommandsInOrder := by
  intro s hl
  have hpos : s.alphaLen.toNat - 1 + 1 = s.alphaLen.toNat := by bv_omega
  have hloop := execAll_replicate_hufStep (s.alphaLen.toNat - 1) [.hufExtract] (hufInitBody s) (by simp) hpos.symm
  rw [hpos, ← hufBuilt] at hloop
  have hextract := exec_hufExtract_of_one (s := complete (hufBuilt s)) (by simp) (hufBuilt_wcnt hl)
  rw [execAll_cons_of_next _ (exec_hufInit_of_ne_zero hl), hloop, execAll_cons_of_next _ hextract,
    complete_hufExtractBody_complete, exec_buildHuffman_of_ne_zero hl, execAll]

/-! ### The forest BUILD_HUFFMAN builds -/

/-- The state with the builder EMPTY. HUF_INIT looks at none of the registers this clears (R100). -/
def emptyBuilder (s : State) : State := { s with hufState := .empty, wcnt := 0, nodeCnt := 0, hufRoot := 0 }

theorem hufInv_emptyBuilder {s : State} (hlen : s.alphaLen.toNat ≤ 256) : HufInv (emptyBuilder s) := by
  constructor <;> simp [emptyBuilder, hlen]

/-- What holds of the leaves HUF_INIT plants, and of a forest after each merge, holds of the forest BUILD_HUFFMAN ends with, whatever
was in the builder before (R104). -/
theorem hufBuilt_induction {P : State → Prop} {s : State} (hl : s.alphaLen ≠ 0) (hlen : s.alphaLen.toNat ≤ 256)
    (h0 : P (hufInitBody s)) (hstep : ∀ u, HufInv u → ForestInv u → P u → 1 < u.wcnt.toNat → P (hufMergeBody u)) :
    HufInv (hufBuilt s) ∧ ForestInv (hufBuilt s) ∧ P (hufBuilt s) :=
  (hufInv_emptyBuilder hlen).mergeAll_induction (P := fun u => ForestInv u ∧ P u) hl ⟨.after_hufInitBody s, h0⟩
    fun u hu h h1 => ⟨h.1.after_hufMergeBody hu h1, hstep u hu h.1 h.2 h1⟩

theorem hufBuilt_inv {s : State} (hl : s.alphaLen ≠ 0) (hlen : s.alphaLen.toNat ≤ 256) :
    HufInv (hufBuilt s) ∧ ForestInv (hufBuilt s) :=
  have h := hufBuilt_induction (P := fun _ => True) hl hlen trivial fun _ _ _ _ _ => trivial
  ⟨h.1, h.2.1⟩

/-- The one root left is node 2L - 2, the last of 2L - 1 nodes (R106). -/
theorem hufBuilt_root {s : State} (hl : s.alphaLen ≠ 0) (hlen : s.alphaLen.toNat ≤ 256) :
    (hufBuilt s).wqAt 0 = BitVec.ofNat 9 (2 * s.alphaLen.toNat - 2) ∧
      (hufBuilt s).nodeCnt = BitVec.ofNat 9 (2 * s.alphaLen.toNat - 1) := by
  obtain ⟨hinv, hf⟩ := hufBuilt_inv hl hlen
  have hroot := hf.wqAt_zero_toNat hinv (hufBuilt_wcnt hl)
  have hcnt := hinv.node_count (by simp)
  have hone : (1 : Count).toNat = 1 := rfl
  rw [hufBuilt_alphaLen] at hroot hcnt
  rw [hufBuilt_wcnt hl, hone] at hcnt
  constructor <;> apply BitVec.eq_of_toNat_eq <;> rw [BitVec.toNat_ofNat] <;> omega

/-- Settles O33: the loop ends with a forest whose one root is its last node, and the extraction leaves the forest alone. -/
theorem buildHuffmanCompletesWithOneRoot : Obligations.BuildHuffmanCompletesWithOneRoot := by
  intro s hl hlen
  obtain ⟨hinv, hf⟩ := hufBuilt_inv hl hlen
  obtain ⟨hroot, hcnt⟩ := hufBuilt_root hl hlen
  have h1 := hufBuilt_wcnt hl
  refine ⟨_, exec_buildHuffman_of_ne_zero hl, ?_, ?_, (hf.after_hufExtractBody (by simp)).congr rfl⟩
  · rw [← hroot, ← hcnt, ← h1, hufBuilt_frame]
    rfl
  · rw [complete_queue, State.queue, hufExtractBody_wcnt, h1, ← hroot]
    rfl

/-- Settles O34: the codewords are the paths to the leaves of the forest the loop has built. -/
theorem huffmanCodebookIsPrefixFree : Obligations.HuffmanCodebookIsPrefixFree := by
  intro s t hl hlen h
  rw [exec_buildHuffman_of_ne_zero hl] at h
  cases h
  obtain ⟨hinv, hf⟩ := hufBuilt_inv hl hlen
  have h1 := hufBuilt_wcnt hl
  rw [← hufBuilt_alphaLen s]
  refine ⟨hf.prefixFree_hufExtractBody hinv h1, fun i hi => ?_⟩
  obtain ⟨w, -, hw, -, hwi⟩ := hf.codeword_hufExtractBody hinv h1 hi
  rw [complete_codeword, hwi]
  exact hw

/-! ### The weight of the queue -/

/-- The sum of the weights of the queued nodes, in the 24 bits of a weight. -/
def State.queueWeight (s : State) : Freq := (s.queue.map fun n => nodeWeight (s.nodeAt n.toNat)).sum

/-- Two entries taken out of a list, the later one first, and the rest make up the list. -/
theorem perm_eraseIdx_eraseIdx {α : Type} (l : List α) {lo hi : Nat} (h : lo < hi) (hhi : hi < l.length) :
    (l[lo] :: l[hi] :: (l.eraseIdx hi).eraseIdx lo).Perm l := by
  have hlen : lo < (l.eraseIdx hi).length := by rw [List.length_eraseIdx_of_lt hhi]; omega
  have hlo : (l.eraseIdx hi)[lo] = l[lo] := List.getElem_eraseIdx_of_lt hlen h
  have hrest := List.getElem_cons_eraseIdx_perm hlen
  rw [hlo] at hrest
  exact (List.Perm.swap _ _ _).trans ((hrest.cons _).trans (List.getElem_cons_eraseIdx_perm hhi))

/-- The two ids a merge takes from the queue, and those that stay, make up the queue (R102). -/
theorem queue_perm {s : State} {a b : Nat} (ha : a < s.wcnt.toNat) (hb : b < s.wcnt.toNat) (hne : a ≠ b) :
    (s.wqAt a :: s.wqAt b :: (s.queue.eraseIdx (max a b)).eraseIdx (min a b)).Perm s.queue := by
  wlog hlt : a < b generalizing a b
  · rw [max_comm, min_comm]
    exact (List.Perm.swap _ _ _).trans (this hb ha hne.symm (by omega))
  rw [max_eq_right hlt.le, min_eq_left hlt.le]
  have h := perm_eraseIdx_eraseIdx s.queue hlt (by rwa [queue_length])
  rwa [getElem_queue, getElem_queue] at h

/-- A merge moves two weights of the queue into one node (R102). -/
theorem queueWeight_mergeAt {s : State} (h : ForestInv s) (he : s.hufState ≠ .empty) {a b : Nat} (ha : a < s.wcnt.toNat)
    (hb : b < s.wcnt.toNat) (hne : a ≠ b) : (mergeAt a b s).queueWeight = s.queueWeight := by
  have hold : ∀ n ∈ (s.queue.eraseIdx (max a b)).eraseIdx (min a b),
      nodeWeight ((mergeAt a b s).nodeAt n.toNat) = nodeWeight (s.nodeAt n.toNat) := by
    intro n hn
    obtain ⟨p, hp, rfl⟩ := List.mem_map.1 (List.eraseIdx_subset (List.eraseIdx_subset hn))
    rw [nodeAt_mergeAt_old _ _ _ (h.queued he p (List.mem_range.1 hp)).ne]
  rw [State.queueWeight, State.queueWeight, ← ((queue_perm ha hb hne).map _).sum_eq, mergeAt_queue ha hb hne, List.map_append,
    List.map_congr_left hold, List.map_singleton, nodeAt_mergeAt_new, List.sum_append, List.sum_singleton, List.map_cons,
    List.map_cons, List.sum_cons, List.sum_cons, nodeWeight, State.weightAt, State.weightAt]
  ring

/-- The leaves HUF_INIT queues weigh what the frequencies add up to (R87, R100). -/
theorem queueWeight_hufInitBody (s : State) :
    (hufInitBody s).queueWeight = BitVec.ofNat 24 ((List.range s.alphaLen.toNat).map fun i => (s.alphaAt i).freq.toNat).sum := by
  rw [State.queueWeight, State.queue, List.map_map, hufInitBody_wcnt, ← BitVec.natCast_eq_ofNat, Nat.cast_list_sum, List.map_map]
  congr 1
  refine List.map_congr_left fun i hi => ?_
  have hi := List.mem_range.1 hi
  have := s.alphaLen.isLt
  simp only [Function.comp_apply]
  rw [ForestInv.wqAt_hufInitBody s hi, BitVec.toNat_ofNat, Nat.mod_eq_of_lt (by omega), ForestInv.nodeAt_hufInitBody s hi, nodeWeight]
  simp

theorem queueWeight_of_one {s : State} (h1 : s.wcnt = 1) : s.queueWeight = nodeWeight (s.nodeAt (s.wqAt 0).toNat) := by
  rw [State.queueWeight, State.queue, h1]
  simp

theorem queueWeight_hufBuilt {s : State} (hl : s.alphaLen ≠ 0) (hlen : s.alphaLen.toNat ≤ 256) :
    (hufBuilt s).queueWeight = (hufInitBody s).queueWeight :=
  (hufBuilt_induction (P := fun u => u.queueWeight = (hufInitBody s).queueWeight) hl hlen rfl fun u hu hf h h1 => by
    obtain ⟨ha, hb, hne⟩ := selectScan_bounds u.weightAt h1
    exact (queueWeight_mergeAt hf (hu.ne_empty_of_wcnt h1.le) ha hb hne).trans h).2.2

/-- Settles O35: no merge changes the weight of the queue, from the leaves, which weigh P_N, to the root. -/
theorem huffmanRootWeighsTheSource : Obligations.HuffmanRootWeighsTheSource := by
  intro s t hp hl hlen hinv h
  rw [exec_buildHuffman_of_ne_zero hl] at h
  cases h
  have hroot := queueWeight_of_one (hufBuilt_wcnt hl)
  rw [queueWeight_hufBuilt hl hlen, queueWeight_hufInitBody, hinv.total hl] at hroot
  show (nodeWeight ((hufBuilt s).nodeAt ((hufBuilt s).wqAt 0).toNat)).toNat = s.params.pN
  rw [← hroot, BitVec.toNat_ofNat, Nat.mod_eq_of_lt (Params.pN_lt hp)]

end Sys2Proof.Machine
end

section
/-! PROOFS, how ENCODE ends (45_encoder.md R108, 60_exceptions.md R112, R113): with the stream where every source byte has an index, with
SYMBOL_ABSENT at the lowest position that has none. -/

namespace Sys2Proof.Machine

/-! ### The index of a source position -/

theorem lookup_srcByte_eq_none_iff (s : State) (j : Nat) : s.lookup (s.srcByte j) = none ↔ s.Absent j := lookup_eq_none s _

theorem State.Looks.lookup {s : State} {f : Nat → Nat} (h : s.Looks f) {j : Nat} (hj : j < s.params.pN) :
    s.lookup (s.srcByte j) = some (f j) := (lookup_eq_some s _ _).2 (h j hj)

/-- The alphabet index of source position j, 0 where its byte is absent (R108). -/
def State.indexOf (s : State) (j : Nat) : Nat := (s.lookup (s.srcByte j)).getD 0

theorem looks_indexOf {s : State} (h : ∀ j < s.params.pN, ¬ s.Absent j) : s.Looks s.indexOf := by
  intro j hj
  obtain ⟨i, hi⟩ := Option.ne_none_iff_exists'.1 (mt (lookup_srcByte_eq_none_iff s j).1 (h j hj))
  rw [State.indexOf, hi]
  exact (lookup_eq_some s _ i).1 hi

/-- Either every source byte has an index, or there is a lowest position whose byte is absent (R113). -/
theorem looks_or_lowest_absent (s : State) :
    s.Looks s.indexOf ∨ ∃ j < s.params.pN, s.Absent j ∧ ∀ j' < j, ¬ s.Absent j' := by
  classical
  by_cases h : ∃ j, j < s.params.pN ∧ s.Absent j
  · obtain ⟨hj, habs⟩ := Nat.find_spec h
    exact .inr ⟨_, hj, habs, fun j' hj' ha => Nat.find_min h hj' ⟨hj'.trans hj, ha⟩⟩
  · exact .inl (looks_indexOf fun j hj ha => h ⟨j, hj, ha⟩)

/-! ### Both ends of the command -/

/-- The encoder stops at an absent byte that comes after bytes with an index (R108). -/
theorem codeStream_append_absent {s : State} (k : Book) {j : Nat} (hj : s.Absent j) (after : List Nat) :
    ∀ before : List Nat, (∀ i ∈ before, ¬ s.Absent i) → s.codeStream k (before ++ j :: after) = .error (s.srcByte j, j)
  | [], _ => by rw [List.nil_append, State.codeStream, (lookup_srcByte_eq_none_iff s j).2 hj]
  | i :: before, h => by
    obtain ⟨hi, hbefore⟩ := List.forall_mem_cons.1 h
    obtain ⟨n, hn⟩ := Option.ne_none_iff_exists'.1 (mt (lookup_srcByte_eq_none_iff s i).1 hi)
    rw [List.cons_append, State.codeStream, hn, codeStream_append_absent k hj after before hbefore]

theorem exec_encodeCommand_of_absent {s : State} {k : Book} {j : Nat} (hv : s.valid.get k = true) (hj : j < s.params.pN)
    (habs : s.Absent j) (hlow : ∀ j' < j, ¬ s.Absent j') :
    exec (encodeCommand k) s = .next (raiseFault .symbolAbsent (absentInfo (s.srcByte j) j) s) := by
  obtain ⟨before, after, hrange⟩ := List.append_of_mem (List.mem_range.2 hj)
  obtain ⟨-, -, hbefore⟩ := List.pairwise_append.1 (hrange ▸ List.pairwise_lt_range (n := s.params.pN))
  have hstop := codeStream_append_absent k habs after before fun i hi => hlow i (hbefore i hi j List.mem_cons_self)
  rw [exec_encodeCommand, encodeWith, hv, hrange, hstop]
  rfl

theorem exec_encodeCommand_of_looks {s : State} {k : Book} {f : Nat → Nat} (hv : s.valid.get k = true) (hf : s.Looks f) :
    exec (encodeCommand k) s = .next (complete (storeStream k (s.stream k f) s)) := by
  have hstream := codeStream_ok s k (List.range s.params.pN) f fun j hj => hf.lookup (List.mem_range.1 hj)
  rw [exec_encodeCommand, encodeWith, hv, hstream]
  rfl

theorem exec_encodeCommand_of_invalid {s : State} {k : Book} (hv : s.valid.get k = false) :
    exec (encodeCommand k) s = .next (raiseFault .noCodebook s.curCmd s) := by
  rw [exec_encodeCommand, encodeWith, if_pos hv]

/-- THE inversion of an ENCODE that ends in IDLE: every source byte has an index, and the stream of those indices is stored (R108, R110). -/
theorem looks_of_exec_encodeCommand_idle {s t : State} {k : Book} (h : exec (encodeCommand k) s = .next t) (hi : t.engState = .idle) :
    s.Looks s.indexOf ∧ t = complete (storeStream k (s.stream k s.indexOf) s) := by
  cases hv : s.valid.get k with
  | false =>
    rw [exec_encodeCommand_of_invalid hv] at h
    cases h
    cases hi
  | true =>
    obtain hf | ⟨j, hj, habs, hlow⟩ := looks_or_lowest_absent s
    · rw [exec_encodeCommand_of_looks hv hf] at h
      cases h
      exact ⟨hf, rfl⟩
    · rw [exec_encodeCommand_of_absent hv hj habs hlow] at h
      cases h
      cases hi

/-- Settles O11: the positions before the lowest absent one all have an index, so that the encoder comes as far as that one and stops. -/
theorem absentSymbolFaultsAtTheLowestPosition : Obligations.AbsentSymbolFaultsAtTheLowestPosition := by
  intro s k j hv hj habs hlow
  rw [exec_encodeCommand_of_absent hv hj habs hlow, raiseFault_eq_faulted, absentInfo]

/-! ### The stored stream -/

/-- OUT after the stream has been stored: its first P_OUT_BITS characters, and what stood there before from its end on (R108). -/
theorem get?_storeStream_out (k : Book) (w : Chars) (s : State) (c : Nat) :
    Store.get? (storeStream k w s).out c = if c < min w.length s.params.pOutBits then w[c]? else Store.get? s.out c := by
  rw [storeStream_out, Store.get?_setFrom, List.length_take, Nat.zero_add, Nat.sub_zero, min_comm]
  by_cases hc : c < min w.length s.params.pOutBits
  · rw [if_pos ⟨c.zero_le, hc⟩, if_pos hc, List.getElem?_take_of_lt (lt_min_iff.1 hc).2]
  · rw [if_neg (fun h => hc h.2), if_neg hc]

theorem outBit_storeStream (k : Book) (w : Chars) (s : State) {c : Nat} (hc : c < min w.length s.params.pOutBits) :
    w[c]? = some ((storeStream k w s).outBit c) := by
  have hlen := (lt_min_iff.1 hc).1
  rw [State.outBit, Store.getD, get?_storeStream_out, if_pos hc, List.getElem?_eq_getElem hlen, Option.getD_some]

theorem eq_encodeCommand_of_mem {i : Instr} {k : Book}
    (h : (i, k) ∈ [(Instr.encodeFixed, Book.fixed), (.encodeShannon, .shannon), (.encodeHuffman, .huffman)]) : i = encodeCommand k := by
  simp only [List.mem_cons, List.not_mem_nil, or_false, Prod.mk.injEq] at h
  obtain ⟨rfl, rfl⟩ | ⟨rfl, rfl⟩ | ⟨rfl, rfl⟩ := h <;> rfl

/-- Settles O36: the command stores the stream of its indices, and OUT is that stream as far as it has room. -/
theorem encodeCompletesWithTheStream : Obligations.EncodeCompletesWithTheStream := by
  intro s i k f hik hv hf
  rw [eq_encodeCommand_of_mem hik]
  exact ⟨_, exec_encodeCommand_of_looks hv hf, rfl, get?_storeStream_out k _ s, fun c hc => outBit_storeStream k _ s hc⟩

end Sys2Proof.Machine
end

section
/-! PROOFS, the length of the stream (45_encoder.md R109): the source positions counted by their alphabet index. -/

namespace Sys2Proof.Machine

/-- The stream has the characters of each position's codeword (R108). -/
theorem stream_length (s : State) (k : Book) (f : Nat → Nat) :
    (s.stream k f).length = ∑ j ∈ Finset.range s.params.pN, (s.cbAt k (f j)).len.toNat := by
  rw [State.stream, List.length_flatten, List.map_map]
  exact congrArg List.sum (List.map_congr_left fun j _ => charsOf_length _)

/-- A codeword has at most 255 characters (R46). -/
theorem stream_length_le (s : State) (k : Book) (f : Nat → Nat) : (s.stream k f).length ≤ s.params.pN * 255 := by
  have hle := Finset.sum_le_card_nsmul (Finset.range s.params.pN) (fun j => (s.cbAt k (f j)).len.toNat) 255
    fun j _ => Nat.le_of_lt_succ (s.cbAt k (f j)).len.isLt
  rwa [Finset.card_range, smul_eq_mul, ← stream_length] at hle

/-- ENC_LEN does not wrap (R109). -/
theorem encLen_toNat (s : State) (k : Book) (f : Nat → Nat) (hp : s.params.wf = true) :
    (BitVec.ofNat 32 (s.stream k f).length).toNat = (s.stream k f).length := by
  have := stream_length_le s k f
  have := Params.pN_lt hp
  rw [BitVec.toNat_ofNat, Nat.mod_eq_of_lt (by omega)]

theorem count_srcBytes (s : State) (b : Byte) :
    s.srcBytes.count b = ((Finset.range s.params.pN).filter fun j => s.srcByte j = b).card := by
  rw [State.srcBytes, List.count_eq_countP, List.countP_map, List.countP_eq_length_filter]
  rfl

namespace AlphaInv

variable {s : State}

theorem sym_lt (h : AlphaInv s) {i j : Nat} (hij : i < j) (hj : j < s.alphaLen.toNat) : (s.alphaAt i).sym < (s.alphaAt j).sym := by
  induction j, hij using Nat.le_induction with
  | base => exact h.ascending i hj
  | succ j _ ih => exact BitVec.lt_trans (ih (by omega)) (h.ascending j hj)

/-- No symbol stands twice in the alphabet (R43). -/
theorem sym_injOn (h : AlphaInv s) : Set.InjOn (fun i => (s.alphaAt i).sym) (Finset.range s.alphaLen.toNat) := by
  intro i hi j hj he
  rw [Finset.coe_range, Set.mem_Iio] at hi hj
  obtain hlt | heq | hlt := Nat.lt_trichotomy i j
  · exact absurd he (BitVec.ne_of_lt (h.sym_lt hlt hj))
  · exact heq
  · exact absurd he.symm (BitVec.ne_of_lt (h.sym_lt hlt hi))

/-- Where the counts are those of the source and add up to its length, no byte of it is left out (R43, R109). -/
theorem not_absent_of_census (h : AlphaInv s) (hl : s.alphaLen ≠ 0)
    (hc : ∀ i < s.alphaLen.toNat, (s.alphaAt i).freq.toNat = s.srcBytes.count (s.alphaAt i).sym) :
    ∀ j < s.params.pN, ¬ s.Absent j := by
  have hall : ((Finset.range s.params.pN).filter fun j =>
      s.srcByte j ∈ (Finset.range s.alphaLen.toNat).image fun i => (s.alphaAt i).sym).card = (Finset.range s.params.pN).card := by
    rw [← Finset.sum_card_fiberwise_eq_card_filter, Finset.sum_image h.sym_injOn, Finset.card_range]
    exact (Finset.sum_congr rfl fun i hi => by rw [hc i (Finset.mem_range.1 hi), count_srcBytes]).trans (h.total hl)
  intro j hj habs
  obtain ⟨i, hi, he⟩ := Finset.mem_image.1 (Finset.card_filter_eq_iff.1 hall j (Finset.mem_range.2 hj))
  exact habs i (Finset.mem_range.1 hi) he

/-- The positions with index i are those that hold its symbol (R108). -/
theorem looks_eq_iff (h : AlphaInv s) {f : Nat → Nat} (hf : s.Looks f) {i j : Nat} (hi : i < s.alphaLen.toNat)
    (hj : j < s.params.pN) : f j = i ↔ s.srcByte j = (s.alphaAt i).sym := by
  obtain ⟨hlt, hsym, -⟩ := hf j hj
  rw [← hsym]
  exact ⟨fun he => by rw [he], fun he => h.sym_injOn (by simpa using hlt) (by simpa using hi) he⟩

/-- A sum over the source positions by their index, counted symbol by symbol (R109). -/
theorem sum_looks (h : AlphaInv s) {f : Nat → Nat} (hf : s.Looks f) (g : Nat → Nat) :
    ∑ j ∈ Finset.range s.params.pN, g (f j) =
      ∑ i ∈ Finset.range s.alphaLen.toNat, s.srcBytes.count (s.alphaAt i).sym * g i := by
  have hmaps : ∀ j ∈ Finset.range s.params.pN, f j ∈ Finset.range s.alphaLen.toNat := fun j hj =>
    Finset.mem_range.2 (hf j (Finset.mem_range.1 hj)).1
  rw [← Finset.sum_fiberwise_of_maps_to' hmaps]
  refine Finset.sum_congr rfl fun i hi => ?_
  rw [Finset.sum_const, smul_eq_mul, count_srcBytes]
  congr 2
  exact Finset.filter_congr fun j hj => h.looks_eq_iff hf (Finset.mem_range.1 hi) (Finset.mem_range.1 hj)

end AlphaInv

/-- Settles O37: every byte of the source is in its census, and the stream has one codeword for each occurrence of a symbol. -/
theorem encodedLengthIsTheWeightedSum : Obligations.EncodedLengthIsTheWeightedSum := by
  intro s t k hp hinv hl hcount hv h
  have hf := looks_indexOf (hinv.not_absent_of_census hl hcount)
  rw [exec_encodeCommand_of_looks hv hf] at h
  cases h
  refine ⟨rfl, ?_⟩
  calc ((complete (storeStream k (s.stream k s.indexOf) s)).encLen.get k).toNat
      = (s.stream k s.indexOf).length := by
        rw [complete_encLen, storeStream_encLen, PerBook.get_set_same, encLen_toNat s k _ hp]
    _ = ∑ i ∈ Finset.range s.alphaLen.toNat, s.srcBytes.count (s.alphaAt i).sym * (s.cbAt k i).len.toNat := by
        rw [stream_length, hinv.sum_looks hf fun i => (s.cbAt k i).len.toNat]
    _ = ∑ i ∈ Finset.range s.alphaLen.toNat, (s.alphaAt i).freq.toNat * (s.cbAt k i).len.toNat :=
        Finset.sum_congr rfl fun i hi => by rw [hcount i (Finset.mem_range.1 hi)]

end Sys2Proof.Machine
end

section
/-! PROOFS, the unique parse of a stream (45_encoder.md R109, 00_scope.md R19). -/

namespace Sys2Proof.Machine

/-- Of two codewords that begin the same characters one begins the other, so that under a code that is PrefixFree they are one (R19). -/
theorem PrefixFree.eq_of_append_eq {code : Nat → Chars} {n i j : Nat} (h : PrefixFree code n) (hi : i < n) (hj : j < n) {v w : Chars}
    (he : code i ++ v = code j ++ w) : i = j :=
  (List.prefix_or_prefix_of_prefix (List.prefix_append _ v) (he ▸ List.prefix_append (code j) w)).elim (h i hi j hj) fun hpre =>
    (h j hj i hi hpre).symm

/-- Two sequences of as many codewords of a PrefixFree code that spell the same characters are the same (R109). -/
theorem PrefixFree.eq_of_flatten_eq {code : Nat → Chars} {n : Nat} (h : PrefixFree code n) :
    ∀ {is js : List Nat}, is.length = js.length → (∀ i ∈ is, i < n) → (∀ j ∈ js, j < n) →
      (is.map code).flatten = (js.map code).flatten → is = js
  | [], [], _, _, _, _ => rfl
  | i :: is, j :: js, hlen, his, hjs, he => by
    obtain ⟨hi, his⟩ := List.forall_mem_cons.1 his
    obtain ⟨hj, hjs⟩ := List.forall_mem_cons.1 hjs
    rw [List.map_cons, List.map_cons, List.flatten_cons, List.flatten_cons] at he
    have hij := h.eq_of_append_eq hi hj he
    rw [← hij] at he ⊢
    rw [h.eq_of_flatten_eq (Nat.succ_inj.1 hlen) his hjs (List.append_cancel_left he)]

/-- A stream that was not cut is read back from ENC_LEN and OUT (R108, R109). -/
theorem eq_of_storeStream {s u : State} {k : Book} {v w : Chars} (hv : v.length ≤ s.params.pOutBits)
    (hw : w.length ≤ u.params.pOutBits) (hlen : v.length = w.length)
    (hout : ∀ c < v.length, (storeStream k v s).outBit c = (storeStream k w u).outBit c) : v = w := by
  apply List.ext_getElem? fun c => ?_
  by_cases hc : c < v.length
  · rw [outBit_storeStream k v s (by omega), outBit_storeStream k w u (by omega), hout c hc]
  · rw [List.getElem?_eq_none (by omega), List.getElem?_eq_none (by omega)]

/-! ### The source and its indices -/

theorem stream_eq_flatten (s : State) (k : Book) (f : Nat → Nat) :
    s.stream k f = (((List.range s.params.pN).map f).map (s.codeword k)).flatten := by
  rw [State.stream, List.map_map]
  rfl

theorem State.Looks.index_lt {s : State} {f : Nat → Nat} (hf : s.Looks f) :
    ∀ i ∈ (List.range s.params.pN).map f, i < s.alphaLen.toNat :=
  List.forall_mem_map.2 fun j hj => (hf j (List.mem_range.1 hj)).1

/-- The source is the symbols of its indices (R108). -/
theorem State.Looks.srcBytes {s : State} {f : Nat → Nat} (hf : s.Looks f) :
    s.srcBytes = ((List.range s.params.pN).map f).map fun i => (s.alphaAt i).sym := by
  rw [State.srcBytes, List.map_map]
  exact List.map_congr_left fun j hj => (hf j (List.mem_range.1 hj)).2.1.symm

/-- Settles O38: OUT holds the whole stream, whose one parse into P_N codewords gives the indices, and so the bytes. As both machines have
P_N of them, the parse is unique even where a codeword is empty, and L >= 2 is not needed. -/
theorem streamDeterminesTheSource : Obligations.StreamDeterminesTheSource := by
  intro s t u v k hp hup hul _ hsame hpf hs hsi hst hu hui hut hlen hout
  obtain ⟨hf, rfl⟩ := looks_of_exec_encodeCommand_idle hs hsi
  obtain ⟨hg, rfl⟩ := looks_of_exec_encodeCommand_idle hu hui
  simp only [complete_encLen, storeStream_encLen, PerBook.get_set_same, complete_trunc, storeStream_trunc, decide_eq_false_iff_not,
    not_lt, complete_outBit] at hst hut hlen hout
  have hlength := congrArg BitVec.toNat hlen
  rw [encLen_toNat s k _ hp] at hlength hout
  rw [encLen_toNat u k _ (by rwa [hup])] at hlength
  have hstream := eq_of_storeStream hst hut hlength hout
  have hidx : (List.range s.params.pN).map s.indexOf = (List.range u.params.pN).map u.indexOf := by
    apply hpf.eq_of_flatten_eq (by simp [hup])
    · exact hf.index_lt
    · exact hul ▸ hg.index_lt
    · rw [stream_eq_flatten, stream_eq_flatten] at hstream
      rw [hstream]
      exact congrArg List.flatten (List.map_congr_left fun i hi => (hsame i (hul ▸ hg.index_lt i hi)).2)
  rw [hf.srcBytes, hg.srcBytes, hidx]
  exact List.map_congr_left fun i hi => (hsame i (hul ▸ hg.index_lt i hi)).1.symm

end Sys2Proof.Machine
end

section
/-! PROOFS, the end of a command (60_exceptions.md R110 to R113): completion or a fault of the table. -/

namespace Sys2Proof.Machine

/-- THE inversion of a command that ends in FAULTED: it took one of the faults of the table, on the state it started from (R111, R112). -/
theorem faults_of_exec_faulted {i : Instr} {s t : State} (h : exec i s = .next t) (hf : t.engState = .faulted) :
    ∃ c v, Faults s i c v ∧ t = faulted c v s := by
  obtain ⟨u, -, hx⟩ | ⟨c, v, hc, hx⟩ := exec_cases i s
  · obtain rfl : complete u = t := by simpa [hx] using h
    cases hf
  · exact ⟨c, v, hc, by simpa [hx] using h.symm⟩

/-- Settles O7: completion assigns no fault field, and a fault has a code. -/
theorem everyCommandEndsWithDone : Obligations.EveryCommandEndsWithDone := by
  intro i s
  obtain ⟨u, hu, hx⟩ | ⟨c, v, hf, hx⟩ := exec_cases i s
  · refine ⟨complete u, hx, rfl, .inl ?_⟩
    rw [hu.frame]
    exact ⟨rfl, rfl, rfl⟩
  · exact ⟨raiseFault c v s, hx, rfl, .inr ⟨rfl, hf.code_ne_none⟩⟩

/-- Settles O8: a fault is raised on the state the command started from. -/
theorem faultsDiscardEveryAssignment : Obligations.FaultsDiscardEveryAssignment := by
  intro i s t h hf
  obtain ⟨c, v, -, rfl⟩ := faults_of_exec_faulted h hf
  rfl

/-- The encoder stops only at a position of SRC whose byte is absent, and names that byte and that position (R108, R112). -/
theorem absent_of_codeStream_error {s : State} {k : Book} {b : Byte} {j : Nat}
    (h : s.codeStream k (List.range s.params.pN) = .error (b, j)) : j < s.params.pN ∧ s.Absent j ∧ b = s.srcByte j := by
  obtain ⟨before, after, hsplit, hbyte, hnone, -⟩ := codeStream_error s k _ _ h
  have hmem : j ∈ List.range s.params.pN := by rw [hsplit]; simp
  exact ⟨List.mem_range.1 hmem, (lookup_srcByte_eq_none_iff s j).1 hnone, hbyte⟩

/-- Settles O9: one case for each row of the table. -/
theorem faultsAreThoseOfTheTable : Obligations.FaultsAreThoseOfTheTable := by
  intro i s t h hf
  obtain ⟨c, v, hc, rfl⟩ := faults_of_exec_faulted h hf
  cases hc with
  | emptyAlphabet i hi hl => exact .inl ⟨rfl, by simpa using hi, hl, rfl⟩
  | noCodebook k hv => exact .inr (.inl ⟨k, rfl, rfl, hv, rfl⟩)
  | stepFromEmpty he => exact .inr (.inr (.inl ⟨rfl, rfl, .inl ⟨rfl, he⟩⟩))
  | extractTooEarly he => exact .inr (.inr (.inl ⟨rfl, rfl, .inr ⟨rfl, he⟩⟩))
  | symbolAbsent k b j hv hstop =>
    obtain ⟨hj, habs, rfl⟩ := absent_of_codeStream_error hstop
    exact .inr (.inr (.inr ⟨k, j, rfl, rfl, hv, hj, habs, rfl⟩))

/-- The commands that need an alphabet fault without one (R112). -/
theorem exec_of_alphaLen_zero {s : State} (hl : s.alphaLen = 0) {i : Instr}
    (hi : i ∈ [Instr.stats, .buildShannon, .hufInit, .buildHuffman]) : exec i s = .next (faulted .emptyAlphabet s.curCmd s) := by
  simp only [List.mem_cons, List.not_mem_nil, or_false] at hi
  obtain rfl | rfl | rfl | rfl := hi
  · exact (exec_stats s).trans (if_pos hl)
  · exact (exec_buildShannon s).trans (if_pos hl)
  · exact (exec_hufInit s).trans (if_pos hl)
  · exact (exec_buildHuffman s).trans (if_pos hl)

/-- Settles O10: each check is the first branch of its command. -/
theorem preconditionsFault : Obligations.PreconditionsFault := fun s =>
  ⟨fun _ hi hl => exec_of_alphaLen_zero hl hi, fun _ hv => exec_encodeCommand_of_invalid hv,
    fun he => (exec_hufStep s).trans (if_pos he), fun he => (exec_hufExtract s).trans (if_pos he)⟩

/-- Settles O13: the inversion of a step gives its next state. -/
theorem noStepStops : Obligations.NoStepStops := fun s => (step_moves s).imp fun _ h => h.1

end Sys2Proof.Machine
end

section
/-! PROOFS, the FAULTED state (60_exceptions.md R114 to R116): what the host can still change without a reset. -/

namespace Sys2Proof.Machine

/-- `t` is `s` but for what the host can still change in FAULTED: SRC, ARG, IE, the four W1C flags, the port's answer and the hard-reset
input (R114). -/
def SameButForTheHost (s t : State) : Prop :=
  t = { s with
    src := t.src, arg := t.arg, ie := t.ie, done := t.done, cmdDropped := t.cmdDropped, wrDropped := t.wrDropped, busErr := t.busErr,
    response := t.response, resetHeld := t.resetHeld }

/-- Only the control page shows registers (R61). -/
theorem ctrlRegAt_of_regionOf_reg {a : Addr} {r : CtrlReg} (h : regionOf a = .reg r) : ctrlRegAt a.toNat = some r := by
  unfold regionOf at h
  by_cases hpage : a.toNat < 0x1000
  · simp only [if_pos hpage] at h
    cases hreg : ctrlRegAt a.toNat with
    | none => simp [hreg] at h
    | some r' => simpa [hreg] using h
  · simp only [if_neg hpage, cbRegion] at h
    split_ifs at h

/-- CTRL stands at one offset alone (R62). -/
theorem eq_of_ctrlRegAt_ctrl {n : Nat} (h : ctrlRegAt n = some .ctrl) : n = 0xC := by
  have hpage : ∀ n < 0x48, ctrlRegAt n = some .ctrl → n = 0xC := by decide
  by_cases hn : n < 0x48
  · exact hpage n hn h
  · rw [ctrlRegAt_none (by omega)] at h
    cases h

theorem eq_of_regionOf_ctrl {a : Addr} (h : regionOf a = .reg .ctrl) : a = 0xC :=
  BitVec.eq_of_toNat_eq (eq_of_ctrlRegAt_ctrl (ctrlRegAt_of_regionOf_reg h))

/-- A write in FAULTED that is not a soft reset reaches only the host's own fields (R114, R115). -/
theorem Writes.sameButForTheHost {a : Addr} {v : Word} {s u : State} (h : Writes a v s u) (hf : s.engState = .faulted)
    (hsrst : ¬ (a = 0xC ∧ v.getLsbD 1 = true)) : SameButForTheHost s u := by
  cases h with
  | softReset hr hv => exact absurd ⟨eq_of_regionOf_ctrl hr, hv⟩ hsrst
  | submit => rw [submitCommand_of_not_idle v (by rw [hf]; decide)]; rfl
  | enable | status | arg | srcDropped | src | ignored => rfl

/-- A host action in FAULTED that is not a reset reaches only the host's own fields (R114, R115). -/
theorem Acts.sameButForTheHost {act : HostAction} {s t : State} (h : Acts s act t) (hf : s.engState = .faulted)
    (hrelease : act ≠ .releaseReset) (hsrst : ∀ v : Word, v.getLsbD 1 = true → act ≠ .write 32 0xC v) : SameButForTheHost s t := by
  cases h with
  | release | releaseIdle => exact absurd rfl hrelease
  | read a =>
    obtain ⟨hr, -, -⟩ | ⟨-, h⟩ := portRead_cases a s
    · rw [hf] at hr; cases hr
    · rw [h]; rfl
  | write a v u _ _ hw =>
    have hu := hw.sameButForTheHost hf (by rintro ⟨rfl, hv⟩; exact hsrst v hv rfl)
    unfold SameButForTheHost at hu ⊢
    rw [hu]
  | assert | heldRead | heldWrite | badRead | badWrite => rfl

/-- Settles O12: the engine has no step in FAULTED, and a host turn that is no reset reaches only the host's own fields. -/
theorem faultedIsStuckUntilReset : Obligations.FaultedIsStuckUntilReset := by
  intro s t hf hreset h
  cases moves_of_step h with
  | host act rest ha =>
    refine (hostAct_cases act (popTurn s)).sameButForTheHost hf ?_ ?_
    · rintro rfl; exact hreset ⟨rest, .inl ha⟩
    · rintro v hv rfl; exact hreset ⟨rest, .inr ⟨v, hv, ha⟩⟩
  | rest => rfl
  | command _ _ _ hr | illegal _ _ hr => rw [hf] at hr; cases hr

end Sys2Proof.Machine
end

section
/-! PROOFS, the interrupt line (60_exceptions.md R117): raised at the end of every command, cleared with DONE. -/

namespace Sys2Proof.Machine

theorem irq_eq_false_of_not_done {s : State} (h : s.done = false) : s.irq = false := by rw [State.irq, h, Bool.and_false]

/-- The end of a command sets DONE and leaves RUNNING, and IRQ then follows IE (R110, R111, R117). -/
theorem exec_raises_irq (i : Instr) (s : State) : ∃ t, exec i s = .next t ∧ t.engState ≠ .running ∧ t.irq = s.ie := by
  obtain ⟨t, hx, hdone, hend⟩ := everyCommandEndsWithDone i s
  have hie : t.ie = s.ie := by rw [exec_frame hx]
  refine ⟨t, hx, ?_, by rw [State.irq, hdone, hie, Bool.and_true]⟩
  obtain ⟨he, -⟩ | ⟨he, -⟩ := hend <;> (rw [he]; decide)

/-- The engine's turn ends the command that is RUNNING, legal or illegal (R80, R117). -/
theorem engineTurn_raises_irq {s : State} (hr : s.resetHeld = false) (he : s.engState = .running) :
    ∃ t, engineTurn s = .next t ∧ t.engState ≠ .running ∧ t.irq = s.ie := by
  cases hd : decode s.curCmd with
  | ok i => rw [engineTurn_of_running hr he hd]; exact exec_raises_irq i s
  | error e =>
    exact ⟨faulted .illegalCmd s.curCmd s, engineTurn_of_illegal hr he hd, by simp [faulted], by simp [faulted, State.irq]⟩

/-- Settles O51: a command's end sets DONE; a W1C write, an acceptance and either reset clear it. -/
theorem interruptFollowsDone : Obligations.InterruptFollowsDone := by
  intro s
  refine ⟨rfl, engineTurn_raises_irq, fun hr => ⟨fun v hv => irq_eq_false_of_not_done ?w1c,
    fun c hi => irq_eq_false_of_not_done ?accepted, fun v hv => irq_eq_false_of_not_done ?softReset⟩,
    fun hr => irq_eq_false_of_not_done ?hardReset⟩
  case w1c =>
    rw [hostAct_write_aligned v hr (by decide)]
    show (writeStatus v s).done = false
    simp [writeStatus, hv]
  case accepted => rw [hostAct_write_cmd c hr, submitCommand_of_idle c hi]; rfl
  case softReset => rw [hostAct_write_ctrl_reset hr hv]; rfl
  case hardReset => rw [hostAct, if_pos hr]; rfl

end Sys2Proof.Machine
end

section
/-! PROOFS, the reads after a reset (20_memory.md R68, 70_reset_and_hazards.md R128): outside SRC and the constants, 0 everywhere. -/

namespace Sys2Proof.Machine

/-- ID, PARAM0 and PARAM1 stand at three offsets alone (R62). -/
theorem mem_of_ctrlRegAt_constant {n : Nat} {r : CtrlReg} (h : ctrlRegAt n = some r) (hr : r ∈ [.id, .param0, .param1]) :
    n ∈ [0x000, 0x004, 0x008] := by
  have hpage : ∀ n < 0x48, ∀ r ∈ [CtrlReg.id, .param0, .param1], ctrlRegAt n = some r → n ∈ [0x000, 0x004, 0x008] := by decide
  by_cases hn : n < 0x48
  · exact hpage n hn r hr h
  · rw [ctrlRegAt_none (by omega)] at h
    cases h

/-- Only the SRC window shows SRC (R61, R66). -/
theorem range_of_regionOf_src {a : Addr} {w : Nat} (h : regionOf a = .src w) : 0x1000000 ≤ a.toNat ∧ a.toNat < 0x2000000 := by
  unfold regionOf at h
  by_cases hpage : a.toNat < 0x1000
  · simp only [if_pos hpage] at h
    cases hreg : ctrlRegAt a.toNat <;> simp [hreg] at h
  · simp only [if_neg hpage, cbRegion] at h
    split_ifs at h
    omega

/-- While OUT_LEN is 0 the OUT window is all zeros (R47, R68). -/
theorem outWord_of_outLen_zero {s : State} (h : s.outLen = 0) (w : Nat) : s.outWord w = 0 := by
  apply BitVec.eq_of_getLsbD_eq
  intro b hb
  simp [outWord_bit s w hb, State.outWindowBit, h]

/-- The registers hold the values R52 gives them and the tables list nothing: `t` is a reset state but for SRC, the free values and the
model's own fields. -/
def AfterReset (t : State) : Prop :=
  t = { State.resetWith t.params with
    src := t.src, srcEpoch := t.srcEpoch, tabEpoch := t.tabEpoch, min1 := t.min1, min2 := t.min2, agenda := t.agenda, draws := t.draws,
    response := t.response }

/-- The soft reset gives every register its reset value (R127). -/
theorem afterReset_softReset {s : State} {v : Word} (hr : s.resetHeld = false) (hv : v.getLsbD 1 = true) :
    AfterReset (hostAct (.write 32 0x00C v) s) := by
  obtain ⟨t, ht, hreset, -⟩ := softResetKeepsOnlyTheSource s v hr hv
  rw [ht, hreset]
  rfl

/-- The release of the hard reset gives every register its reset value (R126). -/
theorem afterReset_releaseReset {s : State} (hr : s.resetHeld = true) : AfterReset (hostAct .releaseReset s) := by
  obtain ⟨-, -, t, ht, hreset, -⟩ := hardResetForgetsEverything s hr
  rw [ht, hreset]
  rfl

namespace AfterReset

variable {t : State}

theorem portQuiet (h : AfterReset t) : PortQuiet t := by
  rw [h]; exact ⟨rfl, EngState.noConfusion⟩

/-- Every register but the constants reads 0 (R52, R128). -/
theorem regWord_eq_zero (h : AfterReset t) {r : CtrlReg} (hr : r ∉ [CtrlReg.id, .param0, .param1]) : t.regWord r = 0 := by
  rw [h]
  cases r with
  | id | param0 | param1 => simp at hr
  | encLen k => cases k <;> rfl
  | cmd | faultInfo | alphaLen | hufRoot | statSumbits | arg | result => rfl
  | ctrl | status | cbValid | hufStatus | encStatus =>
    simp only [State.regWord, State.ctrlWord, State.statusWord, State.busy, State.faultFlag, State.cbValidWord, State.hufStatusWord,
      State.encStatusWord, State.resetWith]
    decide

/-- L, NODE_CNT, WCNT and OUT_LEN are 0, so that every entry of a window is past its valid range (R68). -/
theorem readWord_eq_zero (h : AfterReset t) {a : Addr} (hconst : a.toNat ∉ [0x000, 0x004, 0x008])
    (hsrc : ¬ (0x1000000 ≤ a.toNat ∧ a.toNat < 0x2000000)) : t.readWord a = 0 := by
  rw [State.readWord]
  cases hr : regionOf a with
  | reg r => exact h.regWord_eq_zero (mt (mem_of_ctrlRegAt_constant (ctrlRegAt_of_regionOf_reg hr)) hconst)
  | alpha i =>
    have hlen : t.alphaLen.toNat = 0 := by rw [h]; rfl
    exact if_neg (by omega)
  | node n second =>
    have hcnt : t.nodeCnt.toNat = 0 := by rw [h]; rfl
    exact if_neg (by omega)
  | wq p =>
    have hcnt : t.wcnt.toNat = 0 := by rw [h]; rfl
    exact if_neg (by omega)
  | cb k i w =>
    have hlen : t.alphaLen.toNat = 0 := by rw [h]; rfl
    exact if_neg (by omega)
  | src w => exact absurd (range_of_regionOf_src hr) hsrc
  | out w => exact outWord_of_outLen_zero (by rw [h]; rfl) w
  | reserved => rfl

end AfterReset

/-- Settles O50: both resets leave every register at its reset value, where every word of the map but SRC and the constants is 0. -/
theorem everyResultReadsZeroAfterAReset : Obligations.EveryResultReadsZeroAfterAReset := by
  intro s a ha hconst hsrc
  have hread : ∀ {t : State}, AfterReset t → t.portAnswer a = some ⟨false, 0⟩ := fun ht => by
    rw [portAnswer_quiet ht.portQuiet ha, ht.readWord_eq_zero hconst hsrc]
  exact ⟨fun v hr hv => hread (afterReset_softReset hr hv), fun hr => hread (afterReset_releaseReset hr)⟩

end Sys2Proof.Machine
end

section
/-! PROOFS, the end of an accepted command (70_reset_and_hazards.md R137): the host's turns run out, and the engine's turn ends it. -/

namespace Sys2Proof.Machine

theorem runFor_succ_of_step {s u : State} (n : Nat) (h : step s = .next u) : runFor (n + 1) s = runFor n u := by
  rw [runFor, h]

/-- A write touches neither the turns to come nor the hard-reset input (R57). -/
theorem Writes.agenda_and_resetHeld {a : Addr} {v : Word} {s u : State} (h : Writes a v s u) :
    u.agenda = s.agenda ∧ u.resetHeld = s.resetHeld := by
  cases h with
  | submit => unfold submitCommand; cases s.engState <;> exact ⟨rfl, rfl⟩
  | softReset | enable | status | arg | srcDropped | src | ignored => exact ⟨rfl, rfl⟩

/-- No host action gives the host a new turn, and none but an assertion starts a hard reset (R53, R126). -/
theorem Acts.agenda_and_resetHeld {act : HostAction} {s t : State} (h : Acts s act t) (hr : s.resetHeld = false)
    (hact : act ≠ .assertReset) : t.agenda = s.agenda ∧ t.resetHeld = false := by
  cases h with
  | assert => exact absurd rfl hact
  | release => exact ⟨rfl, rfl⟩
  | read a => obtain ⟨-, -, h⟩ | ⟨-, h⟩ := portRead_cases a s <;> (rw [h]; exact ⟨rfl, hr⟩)
  | write a v u _ _ hw => exact ⟨hw.agenda_and_resetHeld.1, hw.agenda_and_resetHeld.2.trans hr⟩
  | releaseIdle | heldRead | heldWrite | badRead | badWrite => exact ⟨rfl, hr⟩

/-- The engine's turn ends the command in progress in one step (R110, R111). -/
theorem runFor_one_ends {s : State} (hm : EngineMoves s) (he : s.engState = .running) :
    ∃ t, runFor 1 s = .next t ∧ t.engState ≠ .running := by
  obtain ⟨t, ht, hend, -⟩ := engineTurn_raises_irq (s := popTurn s) hm.1 he
  exact ⟨t, runFor_succ_of_step 0 ((step_of_engineMoves hm).trans ht), hend⟩

/-- Settles O52: by induction on the turns to come. The engine's turn, or a soft reset, ends the command at once; after any other turn of
the host the command still runs, with one turn fewer to come. -/
theorem acceptedCommandEnds : Obligations.AcceptedCommandEnds := by
  intro s he hr hassert
  induction hturns : s.agenda generalizing s with
  | nil =>
    obtain ⟨t, ht⟩ := runFor_one_ends ⟨hr, .inl hturns⟩ he
    exact ⟨1, by simp, t, ht⟩
  | cons turn rest ih =>
    cases turn with
    | engine =>
      obtain ⟨t, ht⟩ := runFor_one_ends ⟨hr, .inr ⟨rest, hturns⟩⟩ he
      exact ⟨1, by simp, t, ht⟩
    | host act =>
      rw [hturns, List.mem_cons, not_or] at hassert
      obtain ⟨hact, hrest⟩ := hassert
      have hstep := step_of_host hturns
      obtain ⟨hagenda, hheld⟩ := (hostAct_cases act (popTurn s)).agenda_and_resetHeld hr (by rintro rfl; exact hact rfl)
      rw [popTurn_agenda, hturns, List.tail_cons] at hagenda
      by_cases hrun : (hostAct act (popTurn s)).engState = .running
      · obtain ⟨n, hn, t, ht, hend⟩ := ih _ hrun hheld (by rwa [hagenda]) hagenda
        exact ⟨n + 1, by simpa using hn, t, (runFor_succ_of_step n hstep).trans ht, hend⟩
      · exact ⟨1, by simp, _, runFor_succ_of_step 0 hstep, hrun⟩

end Sys2Proof.Machine
end
